-- ==== Sys2Proof/Word.lean ====
section
/-! DEFINITION. The word types of the block (R6, R10): all quantities are unsigned, bit 0 is the least significant. -/

namespace Sys2Proof

/-- A command word, a response word or a control and status register: 32 bits (R64, R81, R84, R40). -/
abbrev Word := BitVec 32

/-- A symbol: 8 bits, opaque to the block (R6). -/
abbrev Sym := BitVec 8

/-- A weight: 32 bits, unsigned (R6). -/
abbrev Weight := BitVec 32

/-- A node identifier: 9 bits (R6). -/
abbrev NodeId := BitVec 9

/-- A sequence of single bits, first bit first (R10): a code, a path, the contents of the bit buffer. -/
abbrev BitSeq := List Bool

/-- NIL, the identifier that names no node (R6, R68). -/
def nil9 : NodeId := 0x1FF#9

/-- The largest total weight, 2^32 - 1 (R24). -/
def maxWeight : Nat := 0xFFFFFFFF

end Sys2Proof
end

