-- ==== Sys2Proof/Syntax.lean ====
section
/-! DEFINITION. The 17 commands of HUF-CMD version 1, one constructor per row of R87, with the operands of R83. -/

namespace Sys2Proof

/-- A command with its operand fields as R83 assembles them: `a` and symbols are 8 bits, `b` is 16 bits, `x` is 24 bits. -/
inductive Instr where
  /-- NOP (R100). -/
  | nop
  /-- CLR (R101). -/
  | clr
  /-- RDCSR n (R102). -/
  | rdcsr (n : BitVec 8)
  /-- WRCSR n, v (R103). -/
  | wrcsr (n : BitVec 8) (v : BitVec 16)
  /-- TALLY s (R110). -/
  | tally (sym : Sym)
  /-- LEAF s, w (R123). -/
  | leaf (sym : Sym) (w : BitVec 16)
  /-- BUILD (R124). -/
  | build
  /-- RDNODE f, i (R126): field selector and node identifier. -/
  | rdnode (fsel : BitVec 8) (id : BitVec 16)
  /-- GEN (R140). -/
  | gen
  /-- RDLEN s (R142). -/
  | rdlen (sym : Sym)
  /-- RDCBIT s, k (R143). -/
  | rdcbit (sym : Sym) (k : BitVec 16)
  /-- ENC s (R150). -/
  | enc (sym : Sym)
  /-- PUSHBIT v (R151): the operand field x, whose bit 0 is the bit. -/
  | pushbit (x : BitVec 24)
  /-- CLRBITS (R152). -/
  | clrbits
  /-- RDBIT k (R153). -/
  | rdbit (k : BitVec 24)
  /-- DECODE (R160). -/
  | decode
  /-- RDOUT k (R166). -/
  | rdout (k : BitVec 24)
  deriving DecidableEq, Repr

end Sys2Proof
end

