-- ==== Sys2Proof/WellFormed.lean ====
section
/-! DEFINITION. Which terms of Instr are commands: the operand restrictions that R85 makes part of legality. -/

namespace Sys2Proof

/-- R85, R83: RDNODE's field selector is at most 3 and PUSHBIT's operand at most 1; every other operand field is legal at
every value (the CSR number is checked by the command itself, R85). -/
def Instr.WellFormed : Instr → Bool
  | .rdnode fsel _ => decide (fsel ≤ 3#8)
  | .pushbit x => decide (x ≤ 1#24)
  | .nop => true
  | .clr => true
  | .rdcsr _ => true
  | .wrcsr _ _ => true
  | .tally _ => true
  | .leaf _ _ => true
  | .build => true
  | .gen => true
  | .rdlen _ => true
  | .rdcbit _ _ => true
  | .enc _ => true
  | .clrbits => true
  | .rdbit _ => true
  | .decode => true
  | .rdout _ => true

end Sys2Proof
end

