-- ==== Sys2Proof/Decode.lean ====
section
/-! DEFINITION. Decoding a command word (R81 to R85, R87, R88), the encoder written from the same table, and the table
itself (R87). -/

namespace Sys2Proof

/-- Why a word is no command (R88). Every reason has the same effect, IllegalCommand. -/
inductive Reject where
  /-- `cmd[31:24]` is none of the 17 opcodes (R88). -/
  | unlistedOpcode
  /-- A field the command's format does not use is not zero (R82). -/
  | mustBeZero
  /-- RDNODE with a field selector above 3 (R83). -/
  | fieldSelector
  /-- PUSHBIT with `x[23:1]` not zero (R83). -/
  | pushedBit
  deriving DecidableEq, Repr

/-! ## The fields of a word (R81) -/

/-- `op` = `cmd[31:24]` (R81). -/
def opField (w : Word) : BitVec 8 := w.extractLsb' 24 8

/-- `a` = `cmd[23:16]` (R81). -/
def aField (w : Word) : BitVec 8 := w.extractLsb' 16 8

/-- `b` = `cmd[15:0]` (R81). -/
def bField (w : Word) : BitVec 16 := w.extractLsb' 0 16

/-- `x` = `cmd[23:0]`, which overlays `a` and `b` (R81). -/
def xField (w : Word) : BitVec 24 := w.extractLsb' 0 24

/-! ## Decoding (R85) -/

/-- Format Z: `a` and `b` must be zero (R82). -/
def decodeZ (i : Instr) (w : Word) : Except Reject Instr :=
  if xField w = 0#24 then .ok i else .error .mustBeZero

/-- Format A: `b` must be zero (R82). -/
def decodeA (f : BitVec 8 → Instr) (w : Word) : Except Reject Instr :=
  if bField w = 0#16 then .ok (f (aField w)) else .error .mustBeZero

/-- Format AB: both operand fields are used (R82). -/
def decodeAB (f : BitVec 8 → BitVec 16 → Instr) (w : Word) : Except Reject Instr :=
  .ok (f (aField w) (bField w))

/-- Format X: the 24-bit operand is used (R82). -/
def decodeX (f : BitVec 24 → Instr) (w : Word) : Except Reject Instr :=
  .ok (f (xField w))

/-- RDNODE: format AB with `fsel` at most 3 (R83, R85). -/
def decodeRdnode (w : Word) : Except Reject Instr :=
  if aField w ≤ 3#8 then decodeAB .rdnode w else .error .fieldSelector

/-- PUSHBIT: format X with `x` at most 1 (R83, R85). -/
def decodePushbit (w : Word) : Except Reject Instr :=
  if xField w ≤ 1#24 then decodeX .pushbit w else .error .pushedBit

/-- Decoding a word: the opcode chooses the command and its format, the format says which fields must be zero (R85). It
reads no state. -/
def decode (w : Word) : Except Reject Instr :=
  match (opField w).toNat with
  | 0x00 => decodeZ .nop w
  | 0x01 => decodeZ .clr w
  | 0x02 => decodeA .rdcsr w
  | 0x03 => decodeAB .wrcsr w
  | 0x10 => decodeA .tally w
  | 0x11 => decodeAB .leaf w
  | 0x12 => decodeZ .build w
  | 0x13 => decodeRdnode w
  | 0x20 => decodeZ .gen w
  | 0x21 => decodeA .rdlen w
  | 0x22 => decodeAB .rdcbit w
  | 0x30 => decodeA .enc w
  | 0x31 => decodePushbit w
  | 0x32 => decodeZ .clrbits w
  | 0x33 => decodeX .rdbit w
  | 0x40 => decodeZ .decode w
  | 0x41 => decodeX .rdout w
  | _ => .error .unlistedOpcode

/-- The instruction the decoder reads from the word whose bits are `w`, numbered as the opcode table numbers them; every
command is one 32-bit word (R81), so bits above `nbits` are zero and a longer instruction does not exist. -/
def decodeTableWord (nbits w : Nat) : Option Instr :=
  if nbits ≤ 32 then
    match decode (BitVec.ofNat 32 (w % 2 ^ nbits)) with
    | .ok i => some i
    | .error _ => none
  else none

/-! ## Encoding (R82, R83, R87) -/

/-- Formats Z, A, AB: the opcode in bits 31:24, `a` in bits 23:16, `b` in bits 15:0 (R82). -/
def wordAB (op a : BitVec 8) (b : BitVec 16) : Word := op ++ a ++ b

/-- Format X: the opcode in bits 31:24, `x` in bits 23:0 (R82). -/
def wordX (op : BitVec 8) (x : BitVec 24) : Word := op ++ x

/-- The opcode of each command (R87). -/
def Instr.opcode : Instr → BitVec 8
  | .nop => 0x00#8
  | .clr => 0x01#8
  | .rdcsr _ => 0x02#8
  | .wrcsr _ _ => 0x03#8
  | .tally _ => 0x10#8
  | .leaf _ _ => 0x11#8
  | .build => 0x12#8
  | .rdnode _ _ => 0x13#8
  | .gen => 0x20#8
  | .rdlen _ => 0x21#8
  | .rdcbit _ _ => 0x22#8
  | .enc _ => 0x30#8
  | .pushbit _ => 0x31#8
  | .clrbits => 0x32#8
  | .rdbit _ => 0x33#8
  | .decode => 0x40#8
  | .rdout _ => 0x41#8

/-- The word of a command, fields laid out as its format says and the fields it does not use zero (R82, R83). -/
def encode (i : Instr) : Word :=
  match i with
  | .nop => wordAB i.opcode 0#8 0#16
  | .clr => wordAB i.opcode 0#8 0#16
  | .rdcsr n => wordAB i.opcode n 0#16
  | .wrcsr n v => wordAB i.opcode n v
  | .tally s => wordAB i.opcode s 0#16
  | .leaf s w => wordAB i.opcode s w
  | .build => wordAB i.opcode 0#8 0#16
  | .rdnode f id => wordAB i.opcode f id
  | .gen => wordAB i.opcode 0#8 0#16
  | .rdlen s => wordAB i.opcode s 0#16
  | .rdcbit s k => wordAB i.opcode s k
  | .enc s => wordAB i.opcode s 0#16
  | .pushbit x => wordX i.opcode x
  | .clrbits => wordAB i.opcode 0#8 0#16
  | .rdbit k => wordX i.opcode k
  | .decode => wordAB i.opcode 0#8 0#16
  | .rdout k => wordX i.opcode k

/-! ## The opcode table (R87) -/

/-- One row of the table of R87: a word `w` is this command exactly when `w & mask == match`. -/
structure OpcodeRow where
  mnemonic : String
  matchBits : Word
  maskBits : Word
  deriving DecidableEq, Repr

/-- The test of R87. -/
def OpcodeRow.accepts (r : OpcodeRow) (w : Word) : Bool := decide (w &&& r.maskBits = r.matchBits)

/-- The row of each command (R87). -/
def Instr.row : Instr → OpcodeRow
  | .nop => ⟨"NOP", 0x00000000#32, 0xFFFFFFFF#32⟩
  | .clr => ⟨"CLR", 0x01000000#32, 0xFFFFFFFF#32⟩
  | .rdcsr _ => ⟨"RDCSR", 0x02000000#32, 0xFF00FFFF#32⟩
  | .wrcsr _ _ => ⟨"WRCSR", 0x03000000#32, 0xFF000000#32⟩
  | .tally _ => ⟨"TALLY", 0x10000000#32, 0xFF00FFFF#32⟩
  | .leaf _ _ => ⟨"LEAF", 0x11000000#32, 0xFF000000#32⟩
  | .build => ⟨"BUILD", 0x12000000#32, 0xFFFFFFFF#32⟩
  | .rdnode _ _ => ⟨"RDNODE", 0x13000000#32, 0xFFFC0000#32⟩
  | .gen => ⟨"GEN", 0x20000000#32, 0xFFFFFFFF#32⟩
  | .rdlen _ => ⟨"RDLEN", 0x21000000#32, 0xFF00FFFF#32⟩
  | .rdcbit _ _ => ⟨"RDCBIT", 0x22000000#32, 0xFF000000#32⟩
  | .enc _ => ⟨"ENC", 0x30000000#32, 0xFF00FFFF#32⟩
  | .pushbit _ => ⟨"PUSHBIT", 0x31000000#32, 0xFFFFFFFE#32⟩
  | .clrbits => ⟨"CLRBITS", 0x32000000#32, 0xFFFFFFFF#32⟩
  | .rdbit _ => ⟨"RDBIT", 0x33000000#32, 0xFF000000#32⟩
  | .decode => ⟨"DECODE", 0x40000000#32, 0xFFFFFFFF#32⟩
  | .rdout _ => ⟨"RDOUT", 0x41000000#32, 0xFF000000#32⟩

/-- All 17 rows in the order of R87. -/
def opcodeTable : List OpcodeRow :=
  [Instr.nop.row, Instr.clr.row, (Instr.rdcsr 0).row, (Instr.wrcsr 0 0).row, (Instr.tally 0).row, (Instr.leaf 0 0).row,
    Instr.build.row, (Instr.rdnode 0 0).row, Instr.gen.row, (Instr.rdlen 0).row, (Instr.rdcbit 0 0).row,
    (Instr.enc 0).row, (Instr.pushbit 0).row, Instr.clrbits.row, (Instr.rdbit 0).row, Instr.decode.row,
    (Instr.rdout 0).row]

end Sys2Proof
end

