-- ==== Sys2Proof/Config.lean ====
section
/-! DEFINITION. What an implementation fixes (R7, R8) and the free values: what the spec leaves open and no command can
observe (R21, U9, U10). -/

namespace Sys2Proof

/-- The named parameters of R7 and R8, arguments of the step function (R51). DESIGN CHOICE (log entry 2, safe): a State
carries them as a field that no step changes, so a statement about every state is a statement about every parameter. -/
structure Params where
  /-- BIT_CAP, the capacity of the bit buffer in bits (R7). -/
  bitCap : Nat
  /-- OUT_CAP, the capacity of the output buffer in symbols (R7). -/
  outCap : Nat
  /-- BLANK, the set of symbols the host counts as whitespace (R8); as data, the list of its members. -/
  blank : List Sym
  deriving DecidableEq, Repr

/-- The defaults of R7 and R8. -/
def Params.default : Params := { bitCap := 65536, outCap := 65536, blank := [] }

/-- The bounds R7 puts on the capacities. -/
abbrev Params.Wf (p : Params) : Prop :=
  1 ≤ p.bitCap ∧ p.bitCap ≤ 2 ^ 24 ∧ 1 ≤ p.outCap ∧ p.outCap ≤ 2 ^ 24

/-- What a scratch register of width `w` holds after a command that leaves it unspecified (U10): the `n`-th value drawn.
A free value: nothing constrains it (log entry 5, safe). -/
opaque Config.freeScratch (w n : Nat) : BitVec w

/-- What field number `field`, of width `w`, of an arena record at or above `n_node` holds (R21: "unspecified values that
no command can read"). A free value (log entry 4). -/
opaque Config.freeRecord (w field index : Nat) : BitVec w

end Sys2Proof
end

