-- ==== Sys2Proof/Machine/State.lean ====
section
/-! DEFINITION. The state of the block (R20 to R49) as plain data, the reasons a step can stop, and the state after
reset (R50). Storage below a counter is a list of exactly the live elements, in index order; what lies at or above the
counter is absent, as R200 allows (log entry 3). -/

namespace Sys2Proof.Machine

/-- An arena record (R21). -/
structure Node where
  leaf : Bool
  sym : Sym
  weight : Weight
  left : NodeId
  right : NodeId
  deriving DecidableEq, Repr

/-- A priority queue entry (R27). -/
structure PqEntry where
  weight : Weight
  seq : BitVec 9
  id : NodeId
  deriving DecidableEq, Repr

/-- A traversal stack entry (R32): a node and the path to it; the field `len` is the path's length. -/
structure StkEntry where
  id : NodeId
  path : BitSeq
  deriving DecidableEq, Repr

/-- The states of the merge machine (R29, R125). -/
inductive TbState where
  | idle | seed | pop1 | pop2 | merge | fin
  deriving DecidableEq, Repr

/-- The states of the traversal machine (R32, R141). -/
inductive CgState where
  | idle | clear | walk
  deriving DecidableEq, Repr

/-- The states of the tree-walk machine (R35, R167). -/
inductive DeState where
  | idle | run
  deriving DecidableEq, Repr

/-- The twelve errors of R180 (U13: exactly these). They are RESPONSES of the block, not stops of the model. -/
inductive Err where
  | invalidInput | malformedBit | unmappedSymbol | truncated | badState | illegalCommand | badIndex | weightOverflow
  | bufferOverflow | outOverflow | duplicateSymbol | invalidWeight
  deriving DecidableEq, Repr

/-- A response (R84): error code and data. -/
structure Response where
  err : BitVec 8
  data : Word
  deriving DecidableEq, Repr

/-- What the host can do to the block (R12, R13, R200, R208). -/
inductive HostEvent where
  /-- The host sends a command word and waits for the response. -/
  | command (w : Word)
  /-- The host asserts `rst` between commands. -/
  | reset
  /-- The host sends a command word and asserts `rst` before the response (R208). -/
  | abandoned (w : Word)
  deriving DecidableEq, Repr

/-- Why the model stops. The block itself never does (R13, R209): both reasons arise only in states that no run from
reset reaches. -/
inductive Fault where
  /-- GEN's traversal has visited as many records as the arena holds and its stack is not empty: the arena is no tree
  (R26 broken). Raised by GEN. Safe: the model stops where the spec's loop goes on, perhaps for ever (log entry 9). -/
  | endlessWalk
  /-- The merge machine pops from an empty queue (R122's precondition broken). Raised by BUILD and by the machine-level
  merge machine. Safe: the model stops (log entry 10). -/
  | queueUnderflow
  deriving DecidableEq, Repr

/-- Why the model gives no meaning. -/
inductive Refusal where
  /-- The instruction has no meaning yet. Raised by no arm of this model. Safe. -/
  | notModelled (mnemonic : String)
  deriving DecidableEq, Repr

/-- The complete state (R20). Every field is the spec's but the last three, which are the model's own. -/
structure State where
  /-- `node[0 .. n_node - 1]`; its length is `n_node` (R21, R22). -/
  arena : List Node
  /-- `n_leaf` (R22). -/
  nLeaf : BitVec 9
  /-- `leaf_of[0 .. 255]` (R23). -/
  leafOf : Vector NodeId 256
  /-- `total_w` (R24). -/
  totalW : Word
  /-- `tree_valid` (R25). -/
  treeValid : Bool
  /-- `root` (R25). -/
  root : NodeId
  /-- `pq[0 .. pq_n - 1]`; its length is `pq_n` (R27). -/
  pq : List PqEntry
  /-- `seq_ctr` (R28). -/
  seqCtr : BitVec 9
  /-- `tb_state` (R29). -/
  tbState : TbState
  /-- `seed_i` (R29). -/
  seedI : BitVec 9
  /-- `tb_a` (R29). -/
  tbA : PqEntry
  /-- `tb_b` (R29). -/
  tbB : PqEntry
  /-- `ct[0 .. 255]`: `some c` is `valid` = 1, `code` = c and `len` = |c| (R30). -/
  ct : Vector (Option BitSeq) 256
  /-- `ct_valid` (R31). -/
  ctValid : Bool
  /-- `stk[0 .. sp - 1]`, the top entry first; its length is `sp` (R32). -/
  stk : List StkEntry
  /-- `cg_state` (R32). -/
  cgState : CgState
  /-- `s_i` (R32). -/
  sI : BitVec 9
  /-- `count` (R32). -/
  count : BitVec 9
  /-- `bitbuf[0 .. bit_n - 1]`; its length is `bit_n` (R33). -/
  bitbuf : BitSeq
  /-- `outbuf[0 .. out_n - 1]`; its length is `out_n` (R34). -/
  outbuf : List Sym
  /-- `dec_done` (R34). -/
  decDone : Bool
  /-- `cursor` (R35). -/
  cursor : NodeId
  /-- `rd_ptr` (R35). -/
  rdPtr : BitVec 25
  /-- `de_state` (R35). -/
  deState : DeState
  /-- `lenient` (R35). -/
  lenient : Bool
  /-- ERR (R42). -/
  err : Word
  /-- CFG.LENIENT, the one stored bit of CFG (R43). -/
  cfgLenient : Bool
  /-- The response port (R80, R84): `none` is `resp_valid` = 0. -/
  resp : Option Response
  /-- The MODEL's own: the host's events still to come (log entry 1). -/
  input : List HostEvent
  /-- The MODEL's own: the parameters of R7 and R8 (log entry 2). -/
  params : Params
  /-- The MODEL's own: how many free values have been drawn (log entry 7). -/
  freeCtr : Nat
  deriving DecidableEq, Repr

/-- The block right after reset (R50, R200): every counter and valid bit 0, `leaf_of` all NIL, `root` and `cursor` NIL,
ERR and CFG 0, storage empty. DESIGN CHOICE (log entry 6, unsafe): the scratch registers R50 calls unspecified are 0. -/
def State.reset : State where
  arena := []
  nLeaf := 0#9
  leafOf := Vector.replicate 256 nil9
  totalW := 0#32
  treeValid := false
  root := nil9
  pq := []
  seqCtr := 0#9
  tbState := .idle
  seedI := 0#9
  tbA := ⟨0#32, 0#9, 0#9⟩
  tbB := ⟨0#32, 0#9, 0#9⟩
  ct := Vector.replicate 256 none
  ctValid := false
  stk := []
  cgState := .idle
  sI := 0#9
  count := 0#9
  bitbuf := []
  outbuf := []
  decDone := false
  cursor := nil9
  rdPtr := 0#25
  deState := .idle
  lenient := false
  err := 0#32
  cfgLenient := false
  resp := none
  input := []
  params := Params.default
  freeCtr := 0

end Sys2Proof.Machine
end

