-- ==== Sys2Proof/Machine/Operands.lean ====
section
/-! DEFINITION. Operand assembly (R83) and the counters that are the lengths of live lists (R22, R27, R32, R33, R34). -/

namespace Sys2Proof.Machine

/-- `zext_32` (R10, R83). -/
def zext32 {n : Nat} (v : BitVec n) : Word := v.setWidth 32

/-- A count as a response word. -/
def word (n : Nat) : Word := BitVec.ofNat 32 n

/-- One bit as a response word: 0 or 1. -/
def bitWord (b : Bool) : Word := if b then 1#32 else 0#32

/-- `n_node` (R22): the number of arena records in use, and the identifier the next record gets. -/
def State.nNode (s : State) : NodeId := BitVec.ofNat 9 s.arena.length

/-- `pq_n` (R27). -/
def State.pqN (s : State) : BitVec 9 := BitVec.ofNat 9 s.pq.length

/-- `sp` (R32). -/
def State.sp (s : State) : BitVec 9 := BitVec.ofNat 9 s.stk.length

/-- `bit_n` (R33). -/
def State.bitN (s : State) : BitVec 25 := BitVec.ofNat 25 s.bitbuf.length

/-- `out_n` (R34). -/
def State.outN (s : State) : BitVec 25 := BitVec.ofNat 25 s.outbuf.length

/-! ## Reading the indexed spaces (R60) -/

/-- What an arena record at or above `n_node` reads as: free values in every field (R21; log entry 4). -/
def absentNode (i : Nat) : Node where
  leaf := (Config.freeRecord 1 0 i).toNat == 1
  sym := Config.freeRecord 8 1 i
  weight := Config.freeRecord 32 2 i
  left := Config.freeRecord 9 3 i
  right := Config.freeRecord 9 4 i

/-- `node[i]` of an arena (R11, R21). -/
def nodeAt (arena : List Node) (i : NodeId) : Node := arena.getD i.toNat (absentNode i.toNat)

/-- `node[i]` (R11, R21). -/
def State.node (s : State) (i : NodeId) : Node := nodeAt s.arena i

/-- `leaf_of[x]` (R11, R23). -/
def State.leafOfSym (s : State) (x : Sym) : NodeId := s.leafOf[x.toNat]'x.isLt

/-- `ct[x]` (R11, R30): the code of `x`, or none when `valid` = 0. -/
def State.codeOf (s : State) (x : Sym) : Option BitSeq := s.ct[x.toNat]'x.isLt

/-- The edge of a node that a bit names: 0 is left, 1 is right (R63, R162). -/
def Node.child (n : Node) (v : Bool) : NodeId := if v then n.right else n.left

/-- One field of a record, zero-extended (R126): the meaning of RDNODE's selector. -/
def nodeField (fsel : BitVec 8) (n : Node) : Option Word :=
  match fsel.toNat with
  | 0 => some ((if n.leaf then 0x100#32 else 0#32) ||| zext32 n.sym)
  | 1 => some n.weight
  | 2 => some (zext32 n.left)
  | 3 => some (zext32 n.right)
  | _ => none

end Sys2Proof.Machine
end

