-- ==== Sys2Proof/Machine/Flags.lean ====
section
/-! DEFINITION. Error codes (R180), the ERR bits (R42), the STATUS flags (R41) and the nine control and status registers
(R40 to R49). -/

namespace Sys2Proof.Machine

/-- The code of an error (R180). -/
def errCode : Err → BitVec 8
  | .invalidInput => 1#8
  | .malformedBit => 2#8
  | .unmappedSymbol => 3#8
  | .truncated => 4#8
  | .badState => 5#8
  | .illegalCommand => 6#8
  | .badIndex => 7#8
  | .weightOverflow => 8#8
  | .bufferOverflow => 9#8
  | .outOverflow => 10#8
  | .duplicateSymbol => 11#8
  | .invalidWeight => 12#8

/-- The ERR bit of an error: the bit of the same number (R42, R180). -/
def errBit (e : Err) : Word := 1#32 <<< (errCode e).toNat

/-- STATUS bit 3, DEGEN: a tree exists and its root is a leaf (R41). -/
def State.degen (s : State) : Bool := s.treeValid && (s.node s.root).leaf

/-- STATUS bit 4, ERR_ANY (R41). -/
def State.errAny (s : State) : Bool := s.err != 0#32

/-- STATUS (CSR 0): five flags in bits 0 to 4, the rest 0, a pure function of other state (R41). -/
def State.status (s : State) : Word :=
  (if s.treeValid then 0x01#32 else 0#32) ||| (if s.ctValid then 0x02#32 else 0#32)
    ||| (if s.decDone then 0x04#32 else 0#32) ||| (if s.degen then 0x08#32 else 0#32)
    ||| (if s.errAny then 0x10#32 else 0#32)

/-- CFG (CSR 2): bit 0 is LENIENT, bits 31 to 1 read 0 (R43). -/
def State.cfg (s : State) : Word := bitWord s.cfgLenient

/-- `csr[n]` (R11, R40); none for the reserved numbers 9 to 255. -/
def State.csr (s : State) (n : BitVec 8) : Option Word :=
  match n.toNat with
  | 0 => some s.status
  | 1 => some s.err
  | 2 => some s.cfg
  | 3 => some (zext32 s.nLeaf)
  | 4 => some (zext32 s.nNode)
  | 5 => some (zext32 s.root)
  | 6 => some (zext32 s.bitN)
  | 7 => some (zext32 s.outN)
  | 8 => some s.totalW
  | _ => none

end Sys2Proof.Machine
end

