-- ==== Sys2Proof/Machine/Ops.lean ====
section
/-! DEFINITION. The operations every command is written with: ending a command (R11), the priority queue (R121, R122),
writing the indexed spaces (R60), reset (R200), and what the host's events do to the ports. -/

namespace Sys2Proof.Machine

/-! ## Ending a command (R11, R84, R181) -/

/-- `respond(d)`: the command ends with error code 0 and data `d` (R11). -/
def respond (d : Word) (s : State) : State := { s with resp := some ⟨0#8, d⟩ }

/-- `raise E(d)`: taking an exception (R11, R181). The response carries the code of E and the data `d`, the bit of that
number in ERR becomes 1, and nothing else changes: nothing is saved, nothing is vectored, no mode changes. There is no
return operation because nothing was entered (R184). -/
def raise (e : Err) (d : Word) (s : State) : State :=
  { s with err := s.err ||| errBit e, resp := some ⟨errCode e, d⟩ }

/-! ## The priority queue (R120 to R122) -/

/-- Entry `e` comes before entry `f`: the key (weight, seq), compared unsigned, weight first (R120). -/
def entryBefore (e f : PqEntry) : Bool :=
  decide (e.weight < f.weight) || (decide (e.weight = f.weight) && decide (e.seq < f.seq))

/-- `pq_insert`: the new entry goes to the position p that is the number of entries before it, the entries from p on move
up (R121). -/
def pqInsert (e : PqEntry) (q : List PqEntry) : List PqEntry :=
  let p := q.countP (fun f => entryBefore f e)
  q.take p ++ e :: q.drop p

/-- `pq_pop_min`: the first entry and the rest moved down (R122); none where the precondition `pq_n` >= 1 fails. -/
def pqPopMin : List PqEntry → Option (PqEntry × List PqEntry)
  | [] => none
  | e :: q => some (e, q)

/-! ## Writing the indexed spaces (R60) -/

/-- Append a record to the arena; it gets the identifier `n_node` had (R22, R66). -/
def State.addNode (s : State) (n : Node) : State := { s with arena := s.arena ++ [n] }

/-- `leaf_of[x] <- i` (R23). -/
def State.setLeafOf (s : State) (x : Sym) (i : NodeId) : State := { s with leafOf := s.leafOf.set x.toNat i x.isLt }

/-- `ct[x] <- (valid 1, |c|, c)` (R30). -/
def State.setCode (s : State) (x : Sym) (c : BitSeq) : State := { s with ct := s.ct.set x.toNat (some c) x.isLt }

/-- `ct[s].valid <- 0` for every s (R140). -/
def State.clearTable (s : State) : State := { s with ct := Vector.replicate 256 none }

/-- A new leaf for symbol `x` with weight `w`: record, leaf index, both counters and the running total (R110, R123). -/
def State.addLeaf (s : State) (x : Sym) (w : Word) : State :=
  let t := s.addNode { leaf := true, sym := x, weight := w, left := nil9, right := nil9 }
  let t := t.setLeafOf x s.nNode
  { t with nLeaf := s.nLeaf + 1#9, totalW := s.totalW + w }

/-- One more occurrence in the leaf with identifier `i` (R110). -/
def State.bumpLeaf (s : State) (i : NodeId) : State :=
  { s with
    arena := s.arena.modify i.toNat (fun n => { n with weight := n.weight + 1#32 })
    totalW := s.totalW + 1#32 }

/-! ## Scratch registers after a command (U10; log entry 5) -/

/-- After BUILD `seed_i`, `tb_a` and `tb_b` are unspecified (R29, U10): each holds a fresh free value. -/
def State.forgetBuilder (s : State) : State :=
  { s with
    seedI := Config.freeScratch 9 s.freeCtr
    tbA := ⟨Config.freeScratch 32 (s.freeCtr + 1), Config.freeScratch 9 (s.freeCtr + 2),
      Config.freeScratch 9 (s.freeCtr + 3)⟩
    tbB := ⟨Config.freeScratch 32 (s.freeCtr + 4), Config.freeScratch 9 (s.freeCtr + 5),
      Config.freeScratch 9 (s.freeCtr + 6)⟩
    freeCtr := s.freeCtr + 7 }

/-- After GEN `s_i` and `count` are unspecified (R141, U10). -/
def State.forgetWalker (s : State) : State :=
  { s with
    sI := Config.freeScratch 9 s.freeCtr
    count := Config.freeScratch 9 (s.freeCtr + 1)
    freeCtr := s.freeCtr + 2 }

/-- After DECODE `rd_ptr` and `lenient` are unspecified (R182, U10). -/
def State.forgetDecoder (s : State) : State :=
  { s with
    rdPtr := Config.freeScratch 25 s.freeCtr
    lenient := (Config.freeScratch 1 (s.freeCtr + 1)).toNat == 1
    freeCtr := s.freeCtr + 2 }

/-! ## Reset and the ports (R80, R200, R208) -/

/-- The effect of `rst` on the state, which CLR shares (R101, R200): every element of R50 at its reset value and no
response. The host's remaining events, the parameters and the free value counter are no elements of the block. -/
def hardReset (s : State) : State :=
  { State.reset with input := s.input, params := s.params, freeCtr := s.freeCtr }

/-- No event: the block waits, and the response of the last command has been presented once (R80; log entry 11). -/
def idle (s : State) : State := { s with resp := none }

/-- The block accepts the next event: it leaves the host's list, and the port holds no response until the command ends
(R80). -/
def accept (rest : List HostEvent) (s : State) : State := { s with input := rest, resp := none }

/-- An illegal word: IllegalCommand with data 0, and nothing else changes (R88). -/
def illegalWord (s : State) : State := raise .illegalCommand 0#32 s

end Sys2Proof.Machine
end

