-- ==== Sys2Proof/Machine/Builder.lean ====
section
/-! DEFINITION. The tree builder's commands LEAF, BUILD, RDNODE (R123, R124, R126), and the pieces of the merge that the
command level and the machine level (R125) share. -/

namespace Sys2Proof.Machine

/-- LEAF s, w (R123): checks in the order BadState, InvalidWeight, DuplicateSymbol, WeightOverflow (the sum without
wrapping); then a new leaf of weight w. -/
def execLeaf (x : Sym) (w : BitVec 16) (s : State) : Host.Outcome State Fault Refusal :=
  if s.treeValid then .next (raise .badState 0#32 s)
  else if w = 0#16 then .next (raise .invalidWeight 0#32 s)
  else if s.leafOfSym x ≠ nil9 then .next (raise .duplicateSymbol 0#32 s)
  else if s.totalW.toNat + w.toNat > maxWeight then .next (raise .weightOverflow 0#32 s)
  else .next (respond (zext32 s.nNode) (s.addLeaf x (zext32 w)))

/-! ## BUILD (R124) -/

/-- Every leaf's symbol is in BLANK (R8, R124). -/
def State.allBlank (s : State) : Bool :=
  (List.range s.nLeaf.toNat).all (fun i => s.params.blank.contains (s.node (BitVec.ofNat 9 i)).sym)

/-- The queue and the insertion counter before seeding (R124). -/
def State.emptyQueue (s : State) : State := { s with pq := [], seqCtr := 0#9 }

/-- Insert an entry for node `i` of weight `w` under the next sequence number (R28, R124). -/
def State.enqueue (s : State) (w : Weight) (i : NodeId) : State :=
  { s with pq := pqInsert ⟨w, s.seqCtr, i⟩ s.pq, seqCtr := s.seqCtr + 1#9 }

/-- Seed one leaf (R124). -/
def seedLeaf (i : NodeId) (s : State) : State := s.enqueue (s.node i).weight i

/-- Seed the leaves `i`, `i + 1`, ... , `k` of them, in identifier order (R124). -/
def seedLeaves : Nat → Nat → State → State
  | 0, _, s => s
  | k + 1, i, s => seedLeaves k (i + 1) (seedLeaf (BitVec.ofNat 9 i) s)

/-- One merge of the removed entries `a` (first, the left child) and `b`: a new internal node with the sum of the weights,
inserted back (R124). -/
def mergeNodes (a b : PqEntry) (s : State) : State :=
  (s.addNode { leaf := false, sym := 0#8, weight := a.weight + b.weight, left := a.id, right := b.id }).enqueue
    (a.weight + b.weight) s.nNode

/-- `while pq_n > 1`: remove two entries and merge them (R124). A merge takes one entry off the queue, so at most as many
merges happen as the queue is long. -/
def mergeLoop : Nat → State → State
  | 0, s => s
  | k + 1, s =>
    match s.pq with
    | a :: b :: q => mergeLoop k (mergeNodes a b { s with pq := q })
    | _ => s

/-- The last entry, removed from the queue, becomes the root (R124). -/
def State.plantRoot (s : State) (r : NodeId) : State := { s with root := r, treeValid := true, cursor := r }

/-- Seeding and merging, up to the removal of the last entry (R124). -/
def growTree (s : State) : State := mergeLoop s.nLeaf.toNat (seedLeaves s.nLeaf.toNat 0 s.emptyQueue)

/-- BUILD (R124): checks in the order BadState, InvalidInput (no leaf, or all symbols in BLANK); then the tree. The
response data is the root. -/
def execBuild (s : State) : Host.Outcome State Fault Refusal :=
  if s.treeValid then .next (raise .badState 0#32 s)
  else if s.nLeaf = 0#9 ∨ s.allBlank = true then .next (raise .invalidInput 0#32 s)
  else
    match pqPopMin (growTree s).pq with
    | some (r, q) =>
      .next (respond (zext32 r.id) (State.plantRoot { growTree s with pq := q, tbState := .idle } r.id).forgetBuilder)
    | none => .fault .queueUnderflow

/-- RDNODE f, i (R126): BadIndex when i is at or above `n_node`, compared as a 16-bit number; a selector above 3 makes the
word illegal (R85), which no decoded word is (log entry 13). -/
def execRdnode (fsel : BitVec 8) (i : BitVec 16) (s : State) : Host.Outcome State Fault Refusal :=
  if fsel > 3#8 then .next (raise .illegalCommand 0#32 s)
  else
    match s.arena[i.toNat]? with
    | none => .next (raise .badIndex 0#32 s)
    | some n => .next (respond ((nodeField fsel n).getD 0#32) s)

end Sys2Proof.Machine
end

