-- ==== Sys2Proof/Machine/CodeGen.lean ====
section
/-! DEFINITION. The code table generator's commands GEN, RDLEN, RDCBIT (R140, R142, R143), and the step of the traversal
that the command level and the machine level (R141) share. -/

namespace Sys2Proof.Machine

/-- What the traversal does with the popped entry `e`, the stack now being `rest` (R140): a leaf gets its path as its
code, an internal node's children are pushed, the right one first, so that the left one is popped next. -/
def visitNode (e : StkEntry) (rest : List StkEntry) (s : State) : State :=
  let n := s.node e.id
  if n.leaf then { s.setCode n.sym e.path with stk := rest, count := s.count + 1#9 }
  else { s with stk := ⟨n.left, e.path ++ [false]⟩ :: ⟨n.right, e.path ++ [true]⟩ :: rest }

/-- `while sp > 0`: pop and visit (R140), for at most as many visits as the arena holds records; none when the stack is
not empty after them, which a tree rules out (R26, R209; log entry 9). -/
def walkTree : Nat → State → Option State
  | k, s =>
    match s.stk with
    | [] => some s
    | e :: rest =>
      match k with
      | 0 => none
      | k + 1 => walkTree k (visitNode e rest s)

/-- The end of a GEN: the table is valid, the response is the number of entries written, the machine is idle and its
scratch registers are unspecified (R140, R141). -/
def finishTable (s : State) : State :=
  respond (zext32 s.count) (State.forgetWalker { s with ctValid := true, cgState := .idle })

/-- The degenerate tree's one entry, the fixed code "0" (R140). -/
def degenerateTable (s : State) : State :=
  { s.clearTable.setCode (s.node s.root).sym [false] with count := 1#9 }

/-- The traversal's start: the root with the empty path on the stack (R140). -/
def startWalk (s : State) : State := { s.clearTable with count := 0#9, stk := [⟨s.root, []⟩] }

/-- GEN (R140): BadState without a tree; then the table of all leaves' paths. -/
def execGen (s : State) : Host.Outcome State Fault Refusal :=
  if s.treeValid = false then .next (raise .badState 0#32 s)
  else if (s.node s.root).leaf then .next (finishTable (degenerateTable s))
  else
    match walkTree s.arena.length (startWalk s) with
    | some t => .next (finishTable t)
    | none => .fault .endlessWalk

/-- RDLEN s (R142): the code length, 0 without an entry; it never faults. -/
def execRdlen (x : Sym) (s : State) : Host.Outcome State Fault Refusal :=
  match s.codeOf x with
  | some c => .next (respond (word c.length) s)
  | none => .next (respond 0#32 s)

/-- RDCBIT s, k (R143): UnmappedSymbol without an entry, then BadIndex beyond the code. -/
def execRdcbit (x : Sym) (k : BitVec 16) (s : State) : Host.Outcome State Fault Refusal :=
  match s.codeOf x with
  | none => .next (raise .unmappedSymbol 0#32 s)
  | some code =>
    match code[k.toNat]? with
    | none => .next (raise .badIndex 0#32 s)
    | some b => .next (respond (bitWord b) s)

end Sys2Proof.Machine
end

