-- ==== Sys2Proof/Machine/Counter.lean ====
section
/-! DEFINITION. The frequency counter's command TALLY (R110). -/

namespace Sys2Proof.Machine

/-- TALLY s (R110): checks in the order BadState, WeightOverflow; then a new leaf of weight 1, or one more on the leaf of
s. The response data is the identifier of the leaf of s. -/
def execTally (x : Sym) (s : State) : Host.Outcome State Fault Refusal :=
  if s.treeValid then .next (raise .badState 0#32 s)
  else if s.totalW.toNat = maxWeight then .next (raise .weightOverflow 0#32 s)
  else if s.leafOfSym x = nil9 then .next (respond (zext32 s.nNode) (s.addLeaf x 1#32))
  else .next (respond (zext32 (s.leafOfSym x)) (s.bumpLeaf (s.leafOfSym x)))

end Sys2Proof.Machine
end

