-- ==== Sys2Proof/Machine/Decoder.lean ====
section
/-! DEFINITION. The decoder's commands DECODE and RDOUT (R160 to R166), and the step of the walk that the command level
and the machine level (R167) share. -/

namespace Sys2Proof.Machine

/-- `out_n <- 0; dec_done <- 0` (R160). -/
def State.emptyOutput (s : State) : State := { s with outbuf := [], decDone := false }

/-- `emit(x)` (R165): OutOverflow when the output buffer is full, else the symbol is appended. -/
def emit (x : Sym) (s : State) : Except Err State :=
  if s.outbuf.length = s.params.outCap then .error .outOverflow
  else .ok { s with outbuf := s.outbuf ++ [x] }

/-- A bit that asks for a child that does not exist (R162, R163): ignored in lenient mode, MalformedBit in strict mode. -/
def missingChild (s : State) : Except Err State :=
  if s.lenient then .ok s else .error .malformedBit

/-- One bit with the cursor on a leaf, which only a leaf root is (R163): bit 0 emits the root's symbol. -/
def stepLeaf (v : Bool) (s : State) : Except Err State :=
  if v then missingChild s else emit (s.node s.cursor).sym s

/-- The move to child `c` (R162): on a leaf its symbol is emitted and the cursor goes back to the root. -/
def moveTo (c : NodeId) (s : State) : Except Err State :=
  if (s.node c).leaf then
    match emit (s.node c).sym s with
    | .ok t => .ok { t with cursor := t.root }
    | .error e => .error e
  else .ok { s with cursor := c }

/-- One bit with the cursor on an internal node (R162): 0 goes left, 1 goes right. -/
def stepInternal (v : Bool) (s : State) : Except Err State :=
  if (s.node s.cursor).child v = nil9 then missingChild s else moveTo ((s.node s.cursor).child v) s

/-- One step of the walk on bit `v`, and the read pointer moves on (R160). -/
def stepBit (v : Bool) (s : State) : Except Err State :=
  match (if (s.node s.cursor).leaf then stepLeaf v s else stepInternal v s) with
  | .ok t => .ok { t with rdPtr := t.rdPtr + 1#25 }
  | .error e => .error e

/-- The walk over the bits not yet consumed (R160): the first failing step ends it, with `rd_ptr` as the data. -/
def walkBits : BitSeq → State → Except (Err × Word) State
  | [], s => .ok s
  | v :: vs, s =>
    match stepBit v s with
    | .ok t => walkBits vs t
    | .error e => .error (e, zext32 s.rdPtr)

/-- The decoder's start: LENIENT sampled, the cursor at the root, the read pointer at 0 (R160). -/
def startDecode (s : State) : State :=
  { s.emptyOutput with lenient := s.cfgLenient, cursor := s.root, rdPtr := 0#25 }

/-- `fail E(d)` (R160, R182): no output, the cursor at the root, scratch registers unspecified; the entry checks leave the
same (log entry 8). -/
def failDecode (e : Err) (d : Word) (s : State) : State :=
  raise e d (State.forgetDecoder { s.emptyOutput with cursor := s.root, deState := .idle })

/-- The successful end: `dec_done`, and the number of symbols as data (R160). -/
def finishDecode (s : State) : State :=
  respond (word s.outbuf.length) (State.forgetDecoder { s with decDone := true, deState := .idle })

/-- DECODE (R160): the entry checks of R161 (no tree, then no bits), the walk, the terminal check of R164. -/
def execDecode (s : State) : Host.Outcome State Fault Refusal :=
  if s.treeValid = false then .next (failDecode .invalidInput 0#32 s)
  else if s.bitbuf = [] then .next (failDecode .invalidInput 0#32 s)
  else
    match walkBits s.bitbuf (startDecode s) with
    | .error (e, d) => .next (failDecode e d s)
    | .ok t =>
      if t.cursor ≠ t.root then .next (failDecode .truncated (zext32 s.bitN) s)
      else .next (finishDecode t)

/-- RDOUT k (R166): BadIndex when k is at or above `out_n`. -/
def execRdout (k : BitVec 24) (s : State) : Host.Outcome State Fault Refusal :=
  match s.outbuf[k.toNat]? with
  | none => .next (raise .badIndex 0#32 s)
  | some x => .next (respond (zext32 x) s)

end Sys2Proof.Machine
end

