-- ==== Sys2Proof/Machine/Encoder.lean ====
section
/-! DEFINITION. The encoder's and the bit buffer's commands ENC, PUSHBIT, CLRBITS, RDBIT (R150 to R153). -/

namespace Sys2Proof.Machine

/-- Append bits at index `bit_n`, the first bit first (R62, R63). -/
def State.appendBits (s : State) (c : BitSeq) : State := { s with bitbuf := s.bitbuf ++ c }

/-- ENC s (R150): checks in the order BadState, UnmappedSymbol, BufferOverflow (the sum without wrapping); then the code
of s is appended whole. The response data is the new `bit_n`. -/
def execEnc (x : Sym) (s : State) : Host.Outcome State Fault Refusal :=
  if s.ctValid = false then .next (raise .badState 0#32 s)
  else
    match s.codeOf x with
    | none => .next (raise .unmappedSymbol 0#32 s)
    | some c =>
      if s.bitbuf.length + c.length > s.params.bitCap then .next (raise .bufferOverflow 0#32 s)
      else .next (respond (word (s.bitbuf.length + c.length)) (s.appendBits c))

/-- PUSHBIT v (R151): BufferOverflow when the buffer is full; an operand above 1 makes the word illegal (R85), which no
decoded word is (log entry 13). -/
def execPushbit (x : BitVec 24) (s : State) : Host.Outcome State Fault Refusal :=
  if x > 1#24 then .next (raise .illegalCommand 0#32 s)
  else if s.bitbuf.length = s.params.bitCap then .next (raise .bufferOverflow 0#32 s)
  else .next (respond (word (s.bitbuf.length + 1)) (s.appendBits [x.getLsbD 0]))

/-- CLRBITS (R152). -/
def execClrbits (s : State) : Host.Outcome State Fault Refusal := .next (respond 0#32 { s with bitbuf := [] })

/-- RDBIT k (R153): BadIndex when k is at or above `bit_n`. -/
def execRdbit (k : BitVec 24) (s : State) : Host.Outcome State Fault Refusal :=
  match s.bitbuf[k.toNat]? with
  | none => .next (raise .badIndex 0#32 s)
  | some b => .next (respond (bitWord b) s)

end Sys2Proof.Machine
end

