-- ==== Sys2Proof/Machine/System.lean ====
section
/-! DEFINITION. The system commands NOP, CLR, RDCSR, WRCSR (R100 to R103). -/

namespace Sys2Proof.Machine

/-- NOP (R100). -/
def execNop (s : State) : Host.Outcome State Fault Refusal := .next (respond 0#32 s)

/-- CLR (R101): the reset state, then a response. -/
def execClr (s : State) : Host.Outcome State Fault Refusal := .next (respond 0#32 (hardReset s))

/-- RDCSR n (R102): IllegalCommand for a reserved number, checked first and only. -/
def execRdcsr (n : BitVec 8) (s : State) : Host.Outcome State Fault Refusal :=
  match s.csr n with
  | some d => .next (respond d s)
  | none => .next (raise .illegalCommand 0#32 s)

/-- WRCSR n, v (R103): only CFG is writable, and of the value only bit 0 is used. -/
def execWrcsr (n : BitVec 8) (v : BitVec 16) (s : State) : Host.Outcome State Fault Refusal :=
  if n = 2#8 then .next (respond 0#32 { s with cfgLenient := v.getLsbD 0 })
  else .next (raise .illegalCommand 0#32 s)

end Sys2Proof.Machine
end

