-- ==== Sys2Proof/Machine/Dispatch.lean ====
section
/-! DEFINITION. exec: one arm per command (R87), each one call of its meaning. -/

namespace Sys2Proof.Machine

def exec (i : Instr) (s : State) : Host.Outcome State Fault Refusal :=
  match i with
  | .nop => Sys2Proof.Machine.execNop s
  | .clr => Sys2Proof.Machine.execClr s
  | .rdcsr n => Sys2Proof.Machine.execRdcsr n s
  | .wrcsr n v => Sys2Proof.Machine.execWrcsr n v s
  | .tally x => Sys2Proof.Machine.execTally x s
  | .leaf x w => Sys2Proof.Machine.execLeaf x w s
  | .build => Sys2Proof.Machine.execBuild s
  | .rdnode f k => Sys2Proof.Machine.execRdnode f k s
  | .gen => Sys2Proof.Machine.execGen s
  | .rdlen x => Sys2Proof.Machine.execRdlen x s
  | .rdcbit x k => Sys2Proof.Machine.execRdcbit x k s
  | .enc x => Sys2Proof.Machine.execEnc x s
  | .pushbit x => Sys2Proof.Machine.execPushbit x s
  | .clrbits => Sys2Proof.Machine.execClrbits s
  | .rdbit k => Sys2Proof.Machine.execRdbit k s
  | .decode => Sys2Proof.Machine.execDecode s
  | .rdout k => Sys2Proof.Machine.execRdout k s

end Sys2Proof.Machine
end

