-- ==== Sys2Proof/Machine/Step.lean ====
section
/-! DEFINITION. One step: the block takes the host's next event (R12, R69, R200). There is no program counter and no
fetch (R37, R71): the next command word is the next event of `input` (log entry 1). -/

namespace Sys2Proof.Machine

/-- One step (R12): the next command word is decoded and performed whole, or answered with IllegalCommand (R85, R88);
`rst` gives the reset state (R200), also when it cuts a command off (R208); without an event the block waits. -/
def step (s : State) : Host.Outcome State Fault Refusal :=
  match s.input with
  | [] => .next (idle s)
  | .reset :: rest => .next (hardReset (accept rest s))
  | .abandoned _ :: rest => .next (hardReset (accept rest s))
  | .command w :: rest =>
    match decode w with
    | .ok i => exec i (accept rest s)
    | .error _ => .next (illegalWord (accept rest s))

/-- `s` with the command word whose bits are `w` as the host's next event, so that the next step performs it. -/
def State.withFetchWord (s : State) (nbits w : Nat) : State :=
  { s with input := .command (BitVec.ofNat 32 (w % 2 ^ nbits)) :: s.input }

end Sys2Proof.Machine
end

