-- ==== Sys2Proof/Machine/Assembler.lean ====
section
/-! DEFINITION. The text form of commands and the pseudo-commands (R90, R91), and running a list of commands until one
faults. Notation only (D33): nothing of the machine depends on this file. Text is a list of characters; where R90 leaves the
blanks between tokens open, log entry 17 says what is read. -/

namespace Sys2Proof.Machine

/-! ## Running a list of commands (R12, R91) -/

/-- The last response is a success (R84). -/
def State.succeeded (s : State) : Bool :=
  match s.resp with
  | some r => r.err == 0#8
  | none => false

/-- The commands in order; none at the first one that faults, where a pseudo-command stops (R91), or stops the model. -/
def runCommands : List Instr → State → Option State
  | [], s => some s
  | i :: is, s =>
    match exec i s with
    | .next t => if t.succeeded then runCommands is t else none
    | .fault _ => none
    | .refused _ => none

/-! ## Pseudo-commands (R91) -/

/-- The pseudo-commands of R91; a string is the list of its symbols. -/
inductive Pseudo where
  | tallys (s : List Sym)
  | encs (s : List Sym)
  | pushbits (b : BitSeq)
  | encode (s : List Sym)
  | decodebits (b : BitSeq)
  deriving DecidableEq, Repr

/-- Performing a pseudo-command's commands: it stops at the first one that faults, in the state that one leaves (R91). -/
def runPseudo : List Instr → State → Host.Outcome State Fault Refusal
  | [], s => .next s
  | i :: is, s =>
    match exec i s with
    | .next t => if t.succeeded then runPseudo is t else .next t
    | .fault f => .fault f
    | .refused r => .refused r

/-- PUSHBIT 0 or PUSHBIT 1. -/
def pushOf (b : Bool) : Instr := .pushbit (if b then 1#24 else 0#24)

/-- The sequence of real commands a pseudo-command stands for (R91). -/
def Pseudo.expand : Pseudo → List Instr
  | .tallys s => s.map .tally
  | .encs s => s.map .enc
  | .pushbits b => b.map pushOf
  | .encode s => .clr :: s.map .tally ++ .build :: .gen :: s.map .enc
  | .decodebits b => .clrbits :: b.map pushOf ++ [.decode]

/-! ## Tokens -/

/-- A token of a line: a name or number, a quoted character, a quoted string, a comma. -/
inductive Token where
  | word (l : List Char)
  | quoted (c : Char)
  | text (l : List Char)
  | comma
  deriving DecidableEq, Repr

/-- Where the scanner is: between tokens, in a word, after an opening single quote, after the quoted character, in a
string, in a comment. Words and strings are kept in reverse. -/
inductive Scan where
  | between
  | inWord (l : List Char)
  | afterQuote
  | inQuote (c : Char)
  | inText (l : List Char)
  | inComment
  deriving DecidableEq, Repr

/-- What one character does between tokens. -/
def scanStart (ch : Char) : Option Scan × List Token :=
  if ch = ' ' then (some .between, [])
  else if ch = ';' then (some .inComment, [])
  else if ch = ',' then (some .between, [.comma])
  else if ch = '\'' then (some .afterQuote, [])
  else if ch = '"' then (some (.inText []), [])
  else if ch.isAlphanum then (some (.inWord [ch]), [])
  else (none, [])

/-- One character: the scanner's next place (none where the line is no command) and the tokens finished. -/
def scanChar (p : Scan) (ch : Char) : Option Scan × List Token :=
  match p with
  | .between => scanStart ch
  | .inWord l =>
    if ch.isAlphanum then (some (.inWord (ch :: l)), [])
    else
      match scanStart ch with
      | (q, ts) => (q, .word l.reverse :: ts)
  | .afterQuote => (some (.inQuote ch), [])
  | .inQuote c => if ch = '\'' then (some .between, [.quoted c]) else (none, [])
  | .inText l => if ch = '"' then (some .between, [.text l.reverse]) else (some (.inText (ch :: l)), [])
  | .inComment => (some .inComment, [])

/-- The tokens of a line; none where it has no reading. -/
def tokensFrom : Scan → List Char → Option (List Token)
  | .inWord l, [] => some [.word l.reverse]
  | .between, [] => some []
  | .inComment, [] => some []
  | .afterQuote, [] => none
  | .inQuote _, [] => none
  | .inText _, [] => none
  | p, ch :: rest =>
    match scanChar p ch with
    | (some q, ts) => (tokensFrom q rest).map (ts ++ ·)
    | (none, _) => none

/-! ## Operands (R90) -/

/-- A digit in base `b` (2, 10 or 16). -/
def digit (b : Nat) (ch : Char) : Option Nat :=
  let n := if ch.isDigit then some (ch.toNat - '0'.toNat)
    else if 'a' ≤ ch ∧ ch ≤ 'f' then some (ch.toNat - 'a'.toNat + 10)
    else if 'A' ≤ ch ∧ ch ≤ 'F' then some (ch.toNat - 'A'.toNat + 10)
    else none
  n.bind (fun d => if d < b then some d else none)

/-- Digits in base `b` after the value so far. -/
def digits (b : Nat) : Nat → List Char → Option Nat
  | n, [] => some n
  | n, ch :: rest => (digit b ch).bind (fun d => digits b (n * b + d) rest)

/-- A number: hexadecimal after `0x`, binary after `0b`, else decimal (R10, R90). -/
def number : List Char → Option Nat
  | [] => none
  | '0' :: 'x' :: ch :: rest => digits 16 0 (ch :: rest)
  | '0' :: 'b' :: ch :: rest => digits 2 0 (ch :: rest)
  | ch :: rest => digits 10 0 (ch :: rest)

/-- A number that fits `w` bits. -/
def field (w : Nat) (n : Nat) : Option (BitVec w) := if n < 2 ^ w then some (BitVec.ofNat w n) else none

/-- A character stands for its ASCII code (R90, G1). -/
def asciiSym (c : Char) : Option Sym := if c.toNat < 128 then some (BitVec.ofNat 8 c.toNat) else none

/-- The symbols of a string (R91). -/
def asciiSyms (l : List Char) : Option (List Sym) := l.mapM asciiSym

/-- The bits of a string of the characters 0 and 1 (R91). -/
def bitsOf (l : List Char) : Option BitSeq :=
  l.mapM (fun c => if c = '0' then some false else if c = '1' then some true else none)

/-- A numeric operand of `w` bits. -/
def numOperand (w : Nat) : Token → Option (BitVec w)
  | .word l => (number l).bind (field w)
  | .quoted _ => none
  | .text _ => none
  | .comma => none

/-- A symbol operand: a number or a quoted character (R90). -/
def symOperand : Token → Option Sym
  | .quoted c => asciiSym c
  | .word l => numOperand 8 (.word l)
  | .text _ => none
  | .comma => none

/-- The value a name stands for, else the token read as a number (R90). -/
def namedOperand (names : List (String × BitVec 8)) (t : Token) : Option (BitVec 8) :=
  match names.find? (fun p => t == .word p.1.toList) with
  | some p => some p.2
  | none => numOperand 8 t

/-- A control and status register by number or by the name of R40. -/
def csrOperand : Token → Option (BitVec 8) :=
  namedOperand [("STATUS", 0#8), ("ERR", 1#8), ("CFG", 2#8), ("NLEAF", 3#8), ("NNODE", 4#8), ("ROOT", 5#8), ("BITN", 6#8),
    ("OUTN", 7#8), ("TOTALW", 8#8)]

/-- RDNODE's selector by number or name (R90). -/
def selOperand : Token → Option (BitVec 8) :=
  namedOperand [("INFO", 0#8), ("WEIGHT", 1#8), ("LEFT", 2#8), ("RIGHT", 3#8)]

/-! ## Lines and programs -/

/-- The commands with one operand. -/
def assemble1 (m : String) (t : Token) : Option (List Instr) :=
  match m with
  | "RDCSR" => (csrOperand t).map (fun n => [.rdcsr n])
  | "TALLY" => (symOperand t).map (fun x => [.tally x])
  | "RDLEN" => (symOperand t).map (fun x => [.rdlen x])
  | "ENC" => (symOperand t).map (fun x => [.enc x])
  | "PUSHBIT" => (numOperand 24 t).map (fun x => [.pushbit x])
  | "RDBIT" => (numOperand 24 t).map (fun k => [.rdbit k])
  | "RDOUT" => (numOperand 24 t).map (fun k => [.rdout k])
  | _ => none

/-- The commands with two operands, in the order of R90. -/
def assemble2 (m : String) (t u : Token) : Option (List Instr) :=
  match m with
  | "WRCSR" => (csrOperand t).bind (fun n => (numOperand 16 u).map (fun v => [.wrcsr n v]))
  | "LEAF" => (symOperand t).bind (fun x => (numOperand 16 u).map (fun w => [.leaf x w]))
  | "RDNODE" => (selOperand t).bind (fun f => (numOperand 16 u).map (fun i => [.rdnode f i]))
  | "RDCBIT" => (symOperand t).bind (fun x => (numOperand 16 u).map (fun k => [.rdcbit x k]))
  | _ => none

/-- The commands without operands. -/
def assemble0 (m : String) : Option (List Instr) :=
  match m with
  | "NOP" => some [.nop]
  | "CLR" => some [.clr]
  | "BUILD" => some [.build]
  | "GEN" => some [.gen]
  | "CLRBITS" => some [.clrbits]
  | "DECODE" => some [.decode]
  | _ => none

/-- The pseudo-commands (R91). -/
def assemblePseudo (m : String) (l : List Char) : Option (List Instr) :=
  match m with
  | "TALLYS" => (asciiSyms l).map (fun s => Pseudo.expand (.tallys s))
  | "ENCS" => (asciiSyms l).map (fun s => Pseudo.expand (.encs s))
  | "PUSHBITS" => (bitsOf l).map (fun b => Pseudo.expand (.pushbits b))
  | "ENCODE" => (asciiSyms l).map (fun s => Pseudo.expand (.encode s))
  | "DECODEBITS" => (bitsOf l).map (fun b => Pseudo.expand (.decodebits b))
  | _ => none

/-- The commands of one line (R90): none where it is no command, the empty list for an empty line or a comment. -/
def assembleLine (l : List Char) : Option (List Instr) :=
  match tokensFrom .between l with
  | some [] => some []
  | some [.word m] => assemble0 (String.ofList m)
  | some [.word m, .text t] => assemblePseudo (String.ofList m) t
  | some [.word m, t] => assemble1 (String.ofList m) t
  | some [.word m, t, .comma, u] => assemble2 (String.ofList m) t u
  | _ => none

/-- The lines of a text. -/
def linesFrom : List Char → List Char → List (List Char)
  | acc, [] => [acc.reverse]
  | acc, ch :: rest => if ch = '\n' then acc.reverse :: linesFrom [] rest else linesFrom (ch :: acc) rest

/-- The commands of a text, one command per line (R90). -/
def assemble (l : List Char) : Option (List Instr) :=
  (linesFrom [] l).foldr (fun line acc => (assembleLine line).bind (fun is => acc.map (is ++ ·))) (some [])

end Sys2Proof.Machine
end

