-- ==== Sys2Proof/Machine/Fsm.lean ====
section
/-! DEFINITION. The machine level of BUILD, GEN and DECODE (R9, R125, R141, R167): each machine by its state visits. exec
is the command level, which is normative for every observable (R9; log entry 16); the two are stated to agree in the
obligations. A visit that ends the command writes the response and leaves the machine idle. -/

namespace Sys2Proof.Machine

/-- Up to `k` visits of a machine, ending early when it is no longer busy. -/
def runMachine (busy : State → Bool) (visit : State → Host.Outcome State Fault Refusal) :
    Nat → State → Host.Outcome State Fault Refusal
  | 0, s => .next s
  | k + 1, s =>
    if busy s then
      match visit s with
      | .next t => runMachine busy visit k t
      | .fault r => .fault r
      | .refused r => .refused r
    else .next s

/-! ## The merge machine (R125) -/

/-- TB_IDLE, when a BUILD has passed its checks (R125). -/
def tbAccept (s : State) : State := { s.emptyQueue with seedI := 0#9, tbState := .seed }

/-- Where the machine goes with the queue as it is: TB_FIN on one entry, else TB_POP1 (R125, R207). -/
def tbNext (s : State) : State := { s with tbState := if s.pq.length = 1 then .fin else .pop1 }

/-- One state visit of the merge machine (R125). -/
def tbVisit (s : State) : Host.Outcome State Fault Refusal :=
  match s.tbState with
  | .idle => .next s
  | .seed =>
    if s.seedI < s.nLeaf then .next { seedLeaf s.seedI s with seedI := s.seedI + 1#9 }
    else .next (tbNext s)
  | .pop1 =>
    match pqPopMin s.pq with
    | some (e, q) => .next { s with pq := q, tbA := e, tbState := .pop2 }
    | none => .fault .queueUnderflow
  | .pop2 =>
    match pqPopMin s.pq with
    | some (e, q) => .next { s with pq := q, tbB := e, tbState := .merge }
    | none => .fault .queueUnderflow
  | .merge => .next (tbNext (mergeNodes s.tbA s.tbB s))
  | .fin =>
    match pqPopMin s.pq with
    | some (e, q) => .next (respond (zext32 e.id) (State.plantRoot { s with pq := q, tbState := .idle } e.id))
    | none => .fault .queueUnderflow

/-- The merge machine is inside a BUILD (R29). -/
def tbBusy (s : State) : Bool := decide (s.tbState ≠ .idle)

/-! ## The traversal machine (R141) -/

/-- CG_IDLE, when a GEN is accepted with a tree (R141). -/
def cgAccept (s : State) : State := { s with sI := 0#9, cgState := .clear }

/-- The machine's end: the table is valid, the response carries the number of entries written (R141). -/
def cgFinish (n : Word) (s : State) : State := respond n { s with ctValid := true, cgState := .idle }

/-- One state visit of the traversal machine (R141). -/
def cgVisit (s : State) : Host.Outcome State Fault Refusal :=
  match s.cgState with
  | .idle => .next s
  | .clear =>
    if s.sI ≤ 255#9 then .next { s with ct := s.ct.setIfInBounds s.sI.toNat none, sI := s.sI + 1#9 }
    else if (s.node s.root).leaf then .next (cgFinish 1#32 (s.setCode (s.node s.root).sym [false]))
    else .next { s with stk := [⟨s.root, []⟩], count := 0#9, cgState := .walk }
  | .walk =>
    match s.stk with
    | [] => .next (cgFinish (zext32 s.count) s)
    | e :: rest => .next (visitNode e rest s)

/-- The traversal machine is inside a GEN (R32). -/
def cgBusy (s : State) : Bool := decide (s.cgState ≠ .idle)

/-! ## The tree-walk machine (R167) -/

/-- `fail E(d)` at the machine level (R160, R167). -/
def deFail (e : Err) (d : Word) (s : State) : State :=
  raise e d { s.emptyOutput with cursor := s.root, deState := .idle }

/-- DE_IDLE, when a DECODE is accepted (R167): the output emptied, the entry checks, then DE_RUN. -/
def deAccept (s : State) : State :=
  if s.treeValid = false ∨ s.bitbuf = [] then deFail .invalidInput 0#32 s
  else { startDecode s with deState := .run }

/-- One state visit of the tree-walk machine (R167): the terminal check when no bit is left, else one step. -/
def deVisit (s : State) : Host.Outcome State Fault Refusal :=
  match s.deState with
  | .idle => .next s
  | .run =>
    match s.bitbuf[s.rdPtr.toNat]? with
    | none =>
      if s.cursor = s.root then .next (respond (word s.outbuf.length) { s with decDone := true, deState := .idle })
      else .next (deFail .truncated (zext32 s.bitN) s)
    | some v =>
      match stepBit v s with
      | .ok t => .next t
      | .error e => .next (deFail e (zext32 s.rdPtr) s)

/-- The tree-walk machine is inside a DECODE (R35). -/
def deBusy (s : State) : Bool := decide (s.deState ≠ .idle)

end Sys2Proof.Machine
end

