-- ==== Sys2Proof/Safety.lean ====
section
/-! DEFINITION. What claims about the block are stated with: a clean run (R184), what two states share, the path a code
spells, and the invariant every step keeps (R22 to R35). -/

namespace Sys2Proof.Machine

/-- The claim that a run was clean is the claim that ERR is 0 at its end (R184). -/
abbrev State.Clean (s : State) : Prop := s.err = 0#32

/-- The response a state holds is exactly (`e`, `d`). -/
abbrev State.Responds (s : State) (e : BitVec 8) (d : Word) : Prop := s.resp = some ⟨e, d⟩

/-! ## What two states share -/

/-- The tree and its leaf index (R21 to R25). -/
abbrev SameTree (s t : State) : Prop :=
  t.arena = s.arena ∧ t.nLeaf = s.nLeaf ∧ t.leafOf = s.leafOf ∧ t.totalW = s.totalW ∧ t.treeValid = s.treeValid
    ∧ t.root = s.root

/-- The code table (R30, R31). -/
abbrev SameTable (s t : State) : Prop := t.ct = s.ct ∧ t.ctValid = s.ctValid

/-- The output buffer (R34). -/
abbrev SameOutput (s t : State) : Prop := t.outbuf = s.outbuf ∧ t.decDone = s.decDone

/-- The queue and the merge machine's registers (R27 to R29). -/
abbrev SameBuilder (s t : State) : Prop :=
  t.pq = s.pq ∧ t.seqCtr = s.seqCtr ∧ t.tbState = s.tbState ∧ t.seedI = s.seedI ∧ t.tbA = s.tbA ∧ t.tbB = s.tbB

/-- The traversal machine's registers (R32). -/
abbrev SameWalker (s t : State) : Prop :=
  t.stk = s.stk ∧ t.cgState = s.cgState ∧ t.sI = s.sI ∧ t.count = s.count

/-- The tree-walk machine's registers (R35). -/
abbrev SameDecoder (s t : State) : Prop :=
  t.cursor = s.cursor ∧ t.rdPtr = s.rdPtr ∧ t.deState = s.deState ∧ t.lenient = s.lenient

/-- The stored control and status registers, ERR and CFG (R42, R43). -/
abbrev SameControl (s t : State) : Prop := t.err = s.err ∧ t.cfgLenient = s.cfgLenient

/-- The host's side: the events to come and the parameters. -/
abbrev SameHost (s t : State) : Prop := t.input = s.input ∧ t.params = s.params

/-- The state without the scratch registers a command leaves unspecified (U10) and the model's count of free values: what
the two levels of R9 must agree on. -/
def State.dropScratch (s : State) : State :=
  { s with seedI := 0#9, tbA := State.reset.tbA, tbB := State.reset.tbB, sI := 0#9, count := 0#9, rdPtr := 0#25,
           lenient := false, freeCtr := 0 }

/-- The state without what R39 says no command reads between commands: the three machines' registers, the queue, the
insertion counter, the traversal stack and the cursor. -/
def State.dropHidden (s : State) : State :=
  { s.dropScratch with pq := [], seqCtr := 0#9, tbState := .idle, stk := [], cgState := .idle, cursor := nil9,
                       deState := .idle }

/-! ## Paths (R63, R140) -/

/-- The node a path leads to from node `i`: bit 0 is the edge to the left child, bit 1 to the right; none where an edge
leaves a leaf. -/
def State.follow (s : State) : NodeId → BitSeq → Option NodeId
  | i, [] => some i
  | i, v :: p =>
    if (s.node i).leaf then none else s.follow ((s.node i).child v) p

/-- `c` is the code of the leaf `i` (R140): its root-to-leaf path, or the fixed code "0" of the degenerate tree. -/
abbrev State.IsCode (s : State) (i : NodeId) (c : BitSeq) : Prop :=
  (s.node i).leaf = true ∧ i.toNat < s.arena.length
    ∧ ((s.node s.root).leaf = true → i = s.root ∧ c = [false])
    ∧ ((s.node s.root).leaf = false → s.follow s.root c = some i)

/-- Leaves with their codes, as a decoder meets them one after the other: the symbols, and the bits. -/
def State.symbolsAt (s : State) (ps : List (NodeId × BitSeq)) : List Sym := ps.map (fun p => (s.node p.1).sym)

/-- The bits of a sequence of leaves with their codes. -/
def bitsAlong (ps : List (NodeId × BitSeq)) : BitSeq := ps.flatMap (fun p => p.2)

/-- The codes of a sequence of symbols, one after the other (R154); an unmapped symbol adds nothing. -/
def State.codesOf (s : State) (xs : List Sym) : BitSeq := xs.flatMap (fun x => (s.codeOf x).getD [])

/-! ## Values after reset and the order of merging -/

/-- Every element R50 gives a value holds it. -/
abbrev State.AtResetValues (s : State) : Prop :=
  (s.arena = [] ∧ s.nLeaf = 0#9 ∧ (∀ x : Sym, s.leafOfSym x = 0x1FF#9) ∧ s.totalW = 0#32)
    ∧ (s.treeValid = false ∧ s.root = 0x1FF#9)
    ∧ (s.pq = [] ∧ s.seqCtr = 0#9 ∧ s.tbState = .idle)
    ∧ ((∀ x : Sym, s.codeOf x = none) ∧ s.ctValid = false)
    ∧ (s.cgState = .idle ∧ s.stk = [])
    ∧ (s.bitbuf = [] ∧ s.outbuf = [] ∧ s.decDone = false)
    ∧ (s.deState = .idle ∧ s.cursor = 0x1FF#9 ∧ s.rdPtr = 0#25)
    ∧ (s.err = 0#32 ∧ s.cfgLenient = false)

/-- Node `i` leaves the queue before node `j`: the key of R120, the sequence number being the identifier (R28). -/
def State.LighterThan (s : State) (i j : NodeId) : Prop :=
  (s.node i).weight < (s.node j).weight ∨ ((s.node i).weight = (s.node j).weight ∧ i < j)

/-- Node `j` is in the queue when internal node `k` is made: it exists and no earlier merge has removed it (R124). -/
def State.QueuedBefore (s : State) (k : Nat) (j : NodeId) : Prop :=
  j.toNat < k ∧ ∀ m, s.nLeaf.toNat ≤ m → m < k →
    (s.node (BitVec.ofNat 9 m)).left ≠ j ∧ (s.node (BitVec.ofNat 9 m)).right ≠ j

/-! ## The invariant -/

/-- Between commands the machines are idle, the queue and the stack are empty and the cursor is at the root (R27, R29, R32,
R35). -/
abbrev State.MachinesIdle (s : State) : Prop :=
  s.tbState = .idle ∧ s.cgState = .idle ∧ s.deState = .idle ∧ s.pq = [] ∧ s.stk = [] ∧ s.cursor = s.root

/-- ERR bit 0 and bits 31 to 13 read 0 (R42). -/
abbrev State.ErrReserved (s : State) : Prop := s.err &&& 0xFFFFE001#32 = 0#32

/-- The buffers are within their capacities (R33, R34), and an undelivered output is empty (R34, R160). -/
abbrev State.BuffersFit (s : State) : Prop :=
  s.params.Wf ∧ s.bitbuf.length ≤ s.params.bitCap ∧ s.outbuf.length ≤ s.params.outCap
    ∧ (s.decDone = false → s.outbuf = [])

/-- A leaf record (R21): no children, a positive weight. -/
abbrev Node.IsLeaf (n : Node) : Prop := n.leaf = true ∧ n.left = nil9 ∧ n.right = nil9 ∧ n.weight ≠ 0#32

/-- The leaves are the first `n_leaf` records (R22), at most 256, and `total_w` is the sum of their weights (R24). -/
abbrev State.LeavesFirst (s : State) : Prop :=
  s.nLeaf.toNat ≤ 256 ∧ s.nLeaf.toNat ≤ s.arena.length ∧ (∀ n ∈ s.arena.take s.nLeaf.toNat, n.IsLeaf)
    ∧ ((s.arena.take s.nLeaf.toNat).map (fun n => n.weight.toNat)).sum = s.totalW.toNat

/-- The leaf index is the inverse of the leaves' symbols (R23). -/
abbrev State.LeafIndexed (s : State) : Prop :=
  (∀ i, i < s.nLeaf.toNat → s.leafOfSym (s.node (BitVec.ofNat 9 i)).sym = BitVec.ofNat 9 i)
    ∧ ∀ x : Sym, s.leafOfSym x = nil9
        ∨ ((s.leafOfSym x).toNat < s.nLeaf.toNat ∧ (s.node (s.leafOfSym x)).sym = x)

/-- What an internal record `n` at identifier `i` holds (R21, R26): no symbol, two children with smaller identifiers, their weights' sum. -/
abbrev State.InternalRecord (s : State) (i : Nat) (n : Node) : Prop :=
  n.leaf = false ∧ n.sym = 0#8 ∧ n.left.toNat < i ∧ n.right.toNat < i
    ∧ n.weight.toNat = (s.node n.left).weight.toNat + (s.node n.right).weight.toNat

/-- The record at identifier `i` is an internal one. -/
abbrev State.InternalAt (s : State) (i : Nat) : Prop :=
  s.InternalRecord i (s.node (BitVec.ofNat 9 i))

/-- How many times node `i` is a child of an internal node (R26). -/
def State.parentCount (s : State) (i : NodeId) : Nat :=
  s.arena.countP (fun n => !n.leaf && decide (n.left = i)) + s.arena.countP (fun n => !n.leaf && decide (n.right = i))

/-- The tree (R22, R25, R26, R28): before BUILD only leaves exist and the root is NIL; after it there are 2n - 1 records, the
last one is the root, and every other node is the child of exactly one internal node. -/
abbrev State.TreeShape (s : State) : Prop :=
  (∀ i, i < s.arena.length → s.nLeaf.toNat ≤ i → s.InternalAt i)
    ∧ (s.treeValid = false → s.root = nil9 ∧ s.arena.length = s.nLeaf.toNat ∧ s.seqCtr = 0#9)
    ∧ (s.treeValid = true →
        1 ≤ s.nLeaf.toNat ∧ s.arena.length + 1 = 2 * s.nLeaf.toNat ∧ s.root.toNat + 1 = s.arena.length
          ∧ (s.node s.root).weight = s.totalW ∧ s.seqCtr = s.nNode
          ∧ ∀ i, i < s.arena.length - 1 → s.parentCount (BitVec.ofNat 9 i) = 1)

/-- `c` is what GEN writes for symbol `x` (R30, R140). -/
abbrev State.EntryFor (s : State) (x : Sym) (c : BitSeq) : Prop :=
  s.leafOfSym x ≠ nil9 ∧ c.length ≤ 255
    ∧ ((s.node s.root).leaf = true → c = [false]) ∧ ((s.node s.root).leaf = false → s.follow s.root c = some (s.leafOfSym x))

/-- The code table (R30, R31, R140): without GEN no entry is valid; after it the entries are the leaves' codes. -/
abbrev State.TableHolds (s : State) : Prop :=
  (s.ctValid = true → s.treeValid = true)
    ∧ ∀ x : Sym,
        (s.ctValid = true → s.leafOfSym x ≠ nil9 → s.codeOf x ≠ none)
          ∧ ∀ c ∈ (s.codeOf x).toList, s.ctValid = true ∧ s.EntryFor x c

/-- The invariant of the block between commands. -/
structure State.Inv (s : State) : Prop where
  machinesIdle : s.MachinesIdle
  errReserved : s.ErrReserved
  buffersFit : s.BuffersFit
  leavesFirst : s.LeavesFirst
  leafIndexed : s.LeafIndexed
  treeShape : s.TreeShape
  tableHolds : s.TableHolds

end Sys2Proof.Machine
end

