-- ==== Sys2Proof/Certificates/Slice0/Obligations.lean ====
section
/-! DEFINITION. What is claimed of the block, from the numbered rules of spec/. A statement about a next state says the
whole next state: what the rule writes, and, by an equation, that nothing else changes. -/

open Sys2Proof Sys2Proof.Machine

/-! ## Encoding -/

/-- R81 to R83, R85: decoding the word of a well-formed command gives the command back, at every operand. -/
def Obligations.EncodeThenDecodeGivesTheCommand : Prop :=
  ∀ i : Instr, i.WellFormed = true → decode (encode i) = .ok i

/-- R81 to R83, R89: a word that is a command is the word of exactly that command. -/
def Obligations.DecodeThenEncodeGivesTheWord : Prop :=
  ∀ (w : Word) (i : Instr), decode w = .ok i → i.WellFormed = true ∧ encode i = w

/-- R87: a word is a row's command exactly when the row's mask and match say so. -/
def Obligations.WordIsACommandExactlyWhenItsRowMatches : Prop :=
  ∀ w : Word,
    (∀ i, decode w = .ok i → i.row ∈ opcodeTable ∧ i.row.accepts w = true)
      ∧ ∀ r ∈ opcodeTable, r.accepts w = true → ∃ i, decode w = .ok i ∧ i.row = r

/-- R88: no word matches two rows; a word that matches none raises IllegalCommand and changes nothing else. -/
def Obligations.IllegalWordRaisesIllegalCommandOnly : Prop :=
  (∀ (w : Word), ∀ r ∈ opcodeTable, ∀ q ∈ opcodeTable, r.accepts w = true → q.accepts w = true → r = q)
    ∧ ∀ (s : State) (w : Word) (rest : List HostEvent), s.input = .command w :: rest →
        (∀ r ∈ opcodeTable, r.accepts w = false) →
        step s = .next { s with input := rest, err := s.err ||| 0x40#32, resp := some ⟨6#8, 0#32⟩ }

/-- R85, R87: words of 95_test_vectors.md V4 and V5 and of R102's example, one or more per family, decode to the commands they
stand for, and four illegal words are refused. Which of its four names a refusal carries is the model's choice (log entry 18);
the spec has one verdict for all of them. -/
def Obligations.ListedWordsDecodeAsListed : Prop :=
  decode 0x00000000#32 = .ok .nop ∧ decode 0x02050000#32 = .ok (.rdcsr 5#8) ∧ decode 0x03020001#32 = .ok (.wrcsr 2#8 1#16)
    ∧ decode 0x10410000#32 = .ok (.tally 0x41#8) ∧ decode 0x11FFFFFF#32 = .ok (.leaf 0xFF#8 0xFFFF#16)
    ∧ decode 0x12000000#32 = .ok .build ∧ decode 0x1303FFFF#32 = .ok (.rdnode 3#8 0xFFFF#16)
    ∧ decode 0x20000000#32 = .ok .gen ∧ decode 0x2242FFFF#32 = .ok (.rdcbit 0x42#8 0xFFFF#16)
    ∧ decode 0x30410000#32 = .ok (.enc 0x41#8) ∧ decode 0x31000001#32 = .ok (.pushbit 1#24)
    ∧ decode 0x33FFFFFF#32 = .ok (.rdbit 0xFFFFFF#24) ∧ decode 0x40000000#32 = .ok .decode
    ∧ decode 0x41000002#32 = .ok (.rdout 2#24)
    ∧ decode 0x01000001#32 = .error .mustBeZero ∧ decode 0x13040000#32 = .error .fieldSelector
    ∧ decode 0x31000002#32 = .error .pushedBit ∧ decode 0x42000000#32 = .error .unlistedOpcode

/-! ## The step and reset -/

/-- R12: when the host's next event is a command word that decodes to `i`, the step is exec of `i` after the block has
taken the word from the host; there is no fetch and no program counter (R37, R71). -/
def Obligations.StepRunsTheDecodedCommand : Prop :=
  ∀ (s : State) (w : Word) (rest : List HostEvent) (i : Instr), s.input = .command w :: rest → decode w = .ok i →
    step s = exec i { s with input := rest, resp := none }

/-- Without an event the block waits and only the response port becomes empty. The model's own choice (log entry 11). -/
def Obligations.StepWithoutAnEventWaits : Prop :=
  ∀ s : State, s.input = [] → step s = .next { s with resp := none }

/-- R50: after `rst`, also one that cuts a command off (R208), and after CLR every element has the same value, that of the
table; only CLR responds. -/
def Obligations.ResetAndClrGiveTheResetValues : Prop :=
  State.reset.AtResetValues
    ∧ (∀ (s : State) (e : HostEvent) (rest : List HostEvent), s.input = e :: rest →
        (e = .reset ∨ ∃ w, e = .abandoned w) →
        ∃ t, step s = .next t ∧ t.AtResetValues ∧ t.resp = none ∧ t.input = rest ∧ t.params = s.params)
    ∧ ∀ (s : State), ∃ t u, exec .clr s = .next t ∧ t.AtResetValues ∧ t.Responds 0#8 0#32 ∧ SameHost s t
        ∧ step { s with input := .reset :: s.input } = .next u ∧ t = { u with resp := t.resp }

/-- The state after reset meets the invariant. -/
def Obligations.ResetMeetsTheInvariant : Prop := State.reset.Inv

/-- R22 to R35: every step keeps the invariant: leaves first, the leaf index their inverse, the total their sum, the tree's
shape, the table its leaves' codes, the buffers within capacity, ERR's reserved bits 0, the machines idle. -/
def Obligations.EveryStepKeepsTheInvariant : Prop :=
  ∀ s t : State, s.Inv → step s = .next t → t.Inv

/-- R84: in a state that meets the invariant every accepted command ends, in a next state with exactly one response: code 0,
or an error code with data 0 unless it is MalformedBit, Truncated or OutOverflow. -/
def Obligations.EveryCommandEndsWithOneResponse : Prop :=
  ∀ (s : State) (w : Word) (rest : List HostEvent), s.Inv → s.input = .command w :: rest →
    ∃ t r, step s = .next t ∧ t.resp = some r ∧ t.input = rest ∧ r.err.toNat ≤ 12
      ∧ (r.err ≠ 0#8 → r.err ≠ 2#8 → r.err ≠ 4#8 → r.err ≠ 10#8 → r.data = 0#32)

/-! ## Rules about all commands -/

/-- R42: ERR gets the bit of the error a command word ends with and keeps every other bit; only CLR and `rst` clear it; its
bit 0 and bits 31 to 13 stay 0. -/
def Obligations.ErrBitsAreStickyUntilClr : Prop :=
  State.reset.err = 0#32
    ∧ ∀ s t : State, step s = .next t →
        (∀ w rest, s.input = .command w :: rest →
          ∃ e d, t.resp = some ⟨e, d⟩ ∧ e.toNat ≤ 12 ∧ (decode w = .ok .clr → t.err = 0#32)
            ∧ (decode w ≠ .ok .clr → t.err = if e = 0#8 then s.err else s.err ||| (1#32 <<< e.toNat)))
          ∧ (∀ e rest, s.input = e :: rest → (e = .reset ∨ ∃ w, e = .abandoned w) → t.err = 0#32)
          ∧ (s.input = [] → t.err = s.err)
          ∧ (s.ErrReserved → t.ErrReserved)

/-- R182: a failed command other than DECODE changes nothing except the ERR bit (and responds); a failed DECODE also empties
the output buffer and leaves the cursor at the root, its scratch registers unspecified. -/
def Obligations.FailedCommandsChangeOnlyErr : Prop :=
  ∀ (i : Instr) (s t : State) (e : BitVec 8) (d : Word), exec i s = .next t → t.resp = some ⟨e, d⟩ → e ≠ 0#8 →
    (i ≠ .decode → t = { s with err := s.err ||| (1#32 <<< e.toNat), resp := some ⟨e, d⟩ })
      ∧ (i = .decode → t = { s with
          err := s.err ||| (1#32 <<< e.toNat), resp := some ⟨e, d⟩, outbuf := [], decDone := false, cursor := s.root,
          deState := .idle, rdPtr := t.rdPtr, lenient := t.lenient, freeCtr := t.freeCtr })

/-- R203: once a tree exists no command but CLR changes it, and TALLY, LEAF and BUILD answer BadState. -/
def Obligations.TreeIsFrozenOnceBuilt : Prop :=
  ∀ (i : Instr) (s t : State), s.treeValid = true → exec i s = .next t → i ≠ .clr →
    SameTree s t
      ∧ ((∃ x, i = .tally x) ∨ (∃ x w, i = .leaf x w) ∨ i = .build → t.Responds 5#8 0#32)

/-- R67: the six read commands change nothing but the response and, on a fault, the ERR bit of its error. -/
def Obligations.ReadCommandsHaveNoSideEffects : Prop :=
  ∀ (i : Instr) (s t : State),
    ((∃ n, i = .rdcsr n) ∨ (∃ f k, i = .rdnode f k) ∨ (∃ x, i = .rdlen x) ∨ (∃ x k, i = .rdcbit x k)
      ∨ (∃ k, i = .rdbit k) ∨ ∃ k, i = .rdout k) →
    exec i s = .next t →
    ∃ e d, t = { s with err := (if e = 0#8 then s.err else s.err ||| (1#32 <<< e.toNat)), resp := some ⟨e, d⟩ }

/-- The writers of each storage space, the table of R60 (CLR, which resets every space, apart). -/
def Obligations.OnlyItsWritersChangeASpace : Prop :=
  ∀ (i : Instr) (s t : State), exec i s = .next t → i ≠ .clr →
    ((∀ x, i ≠ .tally x) → (∀ x w, i ≠ .leaf x w) → i ≠ .build → t.arena = s.arena)
      ∧ ((∀ x, i ≠ .tally x) → (∀ x w, i ≠ .leaf x w) → t.leafOf = s.leafOf)
      ∧ (i ≠ .build → t.pq = s.pq)
      ∧ (i ≠ .gen → SameTable s t)
      ∧ ((∀ x, i ≠ .enc x) → (∀ x, i ≠ .pushbit x) → i ≠ .clrbits → t.bitbuf = s.bitbuf)
      ∧ (i ≠ .decode → SameOutput s t)
      ∧ ((∀ n v, i ≠ .wrcsr n v) → t.cfgLenient = s.cfgLenient)

/-- R39: what no command reads between commands (the machines' registers, the queue, the insertion counter, the stack, the
cursor) influences nothing: two states that agree on the rest answer alike and agree on the rest afterwards. -/
def Obligations.HiddenRegistersInfluenceNothing : Prop :=
  ∀ (i : Instr) (s t s' : State), s.dropHidden = t.dropHidden → exec i s = .next s' →
    ∃ t', exec i t = .next t' ∧ t'.dropHidden = s'.dropHidden

/-- R91: a pseudo-command performs its commands in order and stops at the first that faults, in the state that command
leaves, whatever would have followed. -/
def Obligations.PseudoCommandStopsAtItsFirstFault : Prop :=
  ∀ (before rest : List Instr) (i : Instr) (s t u : State), runCommands before s = some t → exec i t = .next u →
    u.succeeded = false → runPseudo (before ++ i :: rest) s = .next u

/-! ## System commands -/

/-- R100. -/
def Obligations.NopSucceedsAndDoesNothing : Prop :=
  ∀ s : State, exec .nop s = .next { s with resp := some ⟨0#8, 0#32⟩ }

/-- R102 with R41 to R49: what each of the nine registers reads, and IllegalCommand for every other number. -/
def Obligations.RdcsrReadsTheNineRegisters : Prop :=
  ∀ s : State,
    (∃ st : Word, exec (.rdcsr 0#8) s = .next { s with resp := some ⟨0#8, st⟩ }
        ∧ st.getLsbD 0 = s.treeValid ∧ st.getLsbD 1 = s.ctValid ∧ st.getLsbD 2 = s.decDone
        ∧ st.getLsbD 3 = (s.treeValid && (s.node s.root).leaf) ∧ (st.getLsbD 4 = true ↔ s.err ≠ 0#32)
        ∧ ∀ k, 5 ≤ k → st.getLsbD k = false)
      ∧ exec (.rdcsr 1#8) s = .next { s with resp := some ⟨0#8, s.err⟩ }
      ∧ (∃ cf : Word, exec (.rdcsr 2#8) s = .next { s with resp := some ⟨0#8, cf⟩ }
          ∧ cf.getLsbD 0 = s.cfgLenient ∧ ∀ k, 1 ≤ k → cf.getLsbD k = false)
      ∧ exec (.rdcsr 3#8) s = .next { s with resp := some ⟨0#8, s.nLeaf.setWidth 32⟩ }
      ∧ exec (.rdcsr 4#8) s = .next { s with resp := some ⟨0#8, (BitVec.ofNat 9 s.arena.length).setWidth 32⟩ }
      ∧ exec (.rdcsr 5#8) s = .next { s with resp := some ⟨0#8, s.root.setWidth 32⟩ }
      ∧ exec (.rdcsr 6#8) s = .next { s with resp := some ⟨0#8, (BitVec.ofNat 25 s.bitbuf.length).setWidth 32⟩ }
      ∧ exec (.rdcsr 7#8) s = .next { s with resp := some ⟨0#8, (BitVec.ofNat 25 s.outbuf.length).setWidth 32⟩ }
      ∧ exec (.rdcsr 8#8) s = .next { s with resp := some ⟨0#8, s.totalW⟩ }
      ∧ ∀ n : BitVec 8, 8#8 < n →
          exec (.rdcsr n) s = .next { s with err := s.err ||| 0x40#32, resp := some ⟨6#8, 0#32⟩ }

/-- R103: only CFG is writable, from bit 0 of the value alone. -/
def Obligations.WrcsrWritesOnlyTheLenientBit : Prop :=
  ∀ (s : State) (v : BitVec 16),
    exec (.wrcsr 2#8 v) s = .next { s with cfgLenient := v.getLsbD 0, resp := some ⟨0#8, 0#32⟩ }
      ∧ ∀ n : BitVec 8, n ≠ 2#8 →
          exec (.wrcsr n v) s = .next { s with err := s.err ||| 0x40#32, resp := some ⟨6#8, 0#32⟩ }

/-! ## The frequency counter -/

/-- R110: TALLY's two faults in their order, the new leaf of a symbol met for the first time, and one more on the leaf of a
symbol met before. -/
def Obligations.TallyCountsOneOccurrence : Prop :=
  ∀ (s : State) (x : Sym),
    (s.treeValid = true → exec (.tally x) s = .next { s with err := s.err ||| 0x20#32, resp := some ⟨5#8, 0#32⟩ })
      ∧ (s.treeValid = false → s.totalW = 0xFFFFFFFF#32 →
          exec (.tally x) s = .next { s with err := s.err ||| 0x100#32, resp := some ⟨8#8, 0#32⟩ })
      ∧ (s.treeValid = false → s.totalW ≠ 0xFFFFFFFF#32 → s.leafOfSym x = 0x1FF#9 →
          ∃ t, exec (.tally x) s = .next t ∧ t.Responds 0#8 (s.nNode.setWidth 32)
            ∧ t.arena = s.arena ++ [⟨true, x, 1#32, 0x1FF#9, 0x1FF#9⟩]
            ∧ t.leafOfSym x = s.nNode ∧ (∀ y, y ≠ x → t.leafOfSym y = s.leafOfSym y)
            ∧ t = { s with arena := t.arena, leafOf := t.leafOf, nLeaf := s.nLeaf + 1#9, totalW := s.totalW + 1#32,
                           resp := t.resp })
      ∧ (s.treeValid = false → s.totalW ≠ 0xFFFFFFFF#32 → s.leafOfSym x ≠ 0x1FF#9 →
          (s.leafOfSym x).toNat < s.arena.length →
          ∃ t, exec (.tally x) s = .next t ∧ t.Responds 0#8 ((s.leafOfSym x).setWidth 32)
            ∧ t.node (s.leafOfSym x)
                = { s.node (s.leafOfSym x) with weight := (s.node (s.leafOfSym x)).weight + 1#32 }
            ∧ (∀ j, j ≠ s.leafOfSym x → t.node j = s.node j) ∧ t.arena.length = s.arena.length
            ∧ t = { s with arena := t.arena, totalW := s.totalW + 1#32, resp := t.resp })

/-- R110, R111, R23, R22: after the TALLYs of a sequence that starts from reset, the leaf of a symbol weighs the number of its
occurrences, a symbol that does not occur has no leaf, the leaves stand in the order of first occurrence, and the total is
the sequence's length. -/
def Obligations.TalliesCountTheSequence : Prop :=
  ∀ (s : State) (xs : List Sym), xs.length ≤ 0xFFFFFFFF →
    ∃ t, runCommands (.clr :: xs.map .tally) s = some t
      ∧ (∀ x ∈ xs, t.leafOfSym x ≠ 0x1FF#9 ∧ (t.node (t.leafOfSym x)).sym = x
          ∧ (t.node (t.leafOfSym x)).weight.toNat = xs.count x)
      ∧ (∀ x, x ∉ xs → t.leafOfSym x = 0x1FF#9)
      ∧ t.arena.map (fun n => n.sym) = xs.eraseDups ∧ t.totalW.toNat = xs.length

/-! ## The priority queue and the tree builder -/

/-- R121, R122: inserting an entry whose sequence number is new keeps a sorted queue sorted by the key of R120, loses and invents
no entry; what R122 removes then comes before every entry that stays. -/
def Obligations.QueueInsertionKeepsTheOrder : Prop :=
  ∀ (e : PqEntry) (q : List PqEntry), q.Pairwise (fun a b => entryBefore a b = true) → (∀ f ∈ q, f.seq ≠ e.seq) →
    (pqInsert e q).Pairwise (fun a b => entryBefore a b = true) ∧ (pqInsert e q).Perm (e :: q)
      ∧ ∃ m r, pqPopMin (pqInsert e q) = some (m, r) ∧ r.length = q.length ∧ ∀ f ∈ r, entryBefore m f = true

/-- R123: LEAF's four faults in their order, and the new leaf. -/
def Obligations.LeafLoadsAWeightedLeaf : Prop :=
  ∀ (s : State) (x : Sym) (w : BitVec 16),
    (s.treeValid = true → exec (.leaf x w) s = .next { s with err := s.err ||| 0x20#32, resp := some ⟨5#8, 0#32⟩ })
      ∧ (s.treeValid = false → w = 0#16 →
          exec (.leaf x w) s = .next { s with err := s.err ||| 0x1000#32, resp := some ⟨12#8, 0#32⟩ })
      ∧ (s.treeValid = false → w ≠ 0#16 → s.leafOfSym x ≠ 0x1FF#9 →
          exec (.leaf x w) s = .next { s with err := s.err ||| 0x800#32, resp := some ⟨11#8, 0#32⟩ })
      ∧ (s.treeValid = false → w ≠ 0#16 → s.leafOfSym x = 0x1FF#9 → 2 ^ 32 ≤ s.totalW.toNat + w.toNat →
          exec (.leaf x w) s = .next { s with err := s.err ||| 0x100#32, resp := some ⟨8#8, 0#32⟩ })
      ∧ (s.treeValid = false → w ≠ 0#16 → s.leafOfSym x = 0x1FF#9 → s.totalW.toNat + w.toNat < 2 ^ 32 →
          ∃ t, exec (.leaf x w) s = .next t ∧ t.Responds 0#8 (s.nNode.setWidth 32)
            ∧ t.arena = s.arena ++ [⟨true, x, w.setWidth 32, 0x1FF#9, 0x1FF#9⟩]
            ∧ t.leafOfSym x = s.nNode ∧ (∀ y, y ≠ x → t.leafOfSym y = s.leafOfSym y)
            ∧ t.totalW.toNat = s.totalW.toNat + w.toNat
            ∧ t = { s with arena := t.arena, leafOf := t.leafOf, nLeaf := s.nLeaf + 1#9, totalW := t.totalW,
                           resp := t.resp })

/-- R124: BUILD's two faults in their order; otherwise it completes in every state: the records there were stay, the root
is installed and answered, the queue is left empty, and nothing outside the tree builder and the cursor changes. -/
def Obligations.BuildChecksThenPlantsATree : Prop :=
  ∀ s : State,
    (s.treeValid = true → exec .build s = .next { s with err := s.err ||| 0x20#32, resp := some ⟨5#8, 0#32⟩ })
      ∧ (s.treeValid = false → (∀ i, i < s.nLeaf.toNat → (s.node (BitVec.ofNat 9 i)).sym ∈ s.params.blank) →
          exec .build s = .next { s with err := s.err ||| 0x02#32, resp := some ⟨1#8, 0#32⟩ })
      ∧ (s.treeValid = false → (∃ i, i < s.nLeaf.toNat ∧ (s.node (BitVec.ofNat 9 i)).sym ∉ s.params.blank) →
          ∃ t, exec .build s = .next t ∧ t.Responds 0#8 (t.root.setWidth 32) ∧ t.treeValid = true ∧ t.cursor = t.root
            ∧ t.pq = [] ∧ s.arena <+: t.arena ∧ t.arena.length + 1 = s.arena.length + s.nLeaf.toNat
            ∧ t = { s with
                arena := t.arena, root := t.root, treeValid := true, cursor := t.root, pq := [], seqCtr := t.seqCtr,
                tbState := .idle, seedI := t.seedI, tbA := t.tbA, tbB := t.tbB, freeCtr := t.freeCtr, resp := t.resp })

/-- R124 with R120: every internal node BUILD makes has as its left child the node that leaves the queue first, and as its
right child the one that leaves it next, among all nodes no earlier merge has removed; its weight is their sum. -/
def Obligations.BuildMergesTheTwoLightestNodes : Prop :=
  ∀ s t : State, s.Inv → s.treeValid = false → exec .build s = .next t → t.treeValid = true →
    ∀ k, t.nLeaf.toNat ≤ k → k < t.arena.length →
      (t.node (BitVec.ofNat 9 k)).leaf = false
        ∧ (t.node (BitVec.ofNat 9 k)).weight
            = (t.node (t.node (BitVec.ofNat 9 k)).left).weight + (t.node (t.node (BitVec.ofNat 9 k)).right).weight
        ∧ t.QueuedBefore k (t.node (BitVec.ofNat 9 k)).left ∧ t.QueuedBefore k (t.node (BitVec.ofNat 9 k)).right
        ∧ t.LighterThan (t.node (BitVec.ofNat 9 k)).left (t.node (BitVec.ofNat 9 k)).right
        ∧ ∀ j, t.QueuedBefore k j → j ≠ (t.node (BitVec.ofNat 9 k)).left → j ≠ (t.node (BitVec.ofNat 9 k)).right →
            t.LighterThan (t.node (BitVec.ofNat 9 k)).right j

/-- R125: run from TB_IDLE to TB_IDLE the merge machine performs exactly what BUILD does, up to the scratch registers that
are unspecified afterwards. -/
def Obligations.MergeMachineRefinesBuild : Prop :=
  ∀ s u : State, s.treeValid = false → s.nLeaf ≠ 0#9 → s.allBlank = false → exec .build s = .next u →
    ∃ k t, runMachine tbBusy tbVisit k (tbAccept s) = .next t ∧ t.tbState = .idle ∧ t.dropScratch = u.dropScratch

/-- R126: the four fields of a record, and BadIndex at or above `n_node`. The last clause is the model's own reading (log entry
13): a term with a selector above 3, which no word decodes to (R85), is answered as its word would be. -/
def Obligations.RdnodeReadsOneField : Prop :=
  ∀ (s : State) (i : BitVec 16),
    (∀ n, s.arena[i.toNat]? = some n →
      exec (.rdnode 0#8 i) s = .next { s with resp := some ⟨0#8, (BitVec.ofBool n.leaf ++ n.sym).setWidth 32⟩ }
        ∧ exec (.rdnode 1#8 i) s = .next { s with resp := some ⟨0#8, n.weight⟩ }
        ∧ exec (.rdnode 2#8 i) s = .next { s with resp := some ⟨0#8, n.left.setWidth 32⟩ }
        ∧ exec (.rdnode 3#8 i) s = .next { s with resp := some ⟨0#8, n.right.setWidth 32⟩ })
      ∧ (s.arena.length ≤ i.toNat → ∀ f : BitVec 8, f ≤ 3#8 →
          exec (.rdnode f i) s = .next { s with err := s.err ||| 0x80#32, resp := some ⟨7#8, 0#32⟩ })
      ∧ ∀ f : BitVec 8, 3#8 < f →
          exec (.rdnode f i) s = .next { s with err := s.err ||| 0x40#32, resp := some ⟨6#8, 0#32⟩ }

/-! ## The code table generator -/

/-- R140: BadState without a tree; with one, GEN writes for every leaf's symbol the path from the root to that leaf (the
fixed code "0" in the degenerate tree) and no other entry, answers `n_leaf`, and changes nothing else. -/
def Obligations.GenFillsTheTableWithPaths : Prop :=
  ∀ s : State,
    (s.treeValid = false → exec .gen s = .next { s with err := s.err ||| 0x20#32, resp := some ⟨5#8, 0#32⟩ })
      ∧ (s.Inv → s.treeValid = true →
          ∃ t, exec .gen s = .next t ∧ t.Responds 0#8 (s.nLeaf.setWidth 32)
            ∧ (∀ x, s.leafOfSym x = 0x1FF#9 → t.codeOf x = none)
            ∧ (∀ x, s.leafOfSym x ≠ 0x1FF#9 → ∃ p, t.codeOf x = some p
                ∧ ((s.node s.root).leaf = true → p = [false])
                ∧ ((s.node s.root).leaf = false → s.follow s.root p = some (s.leafOfSym x)))
            ∧ t = { s with
                ct := t.ct, ctValid := true, cgState := .idle, sI := t.sI, count := t.count, freeCtr := t.freeCtr,
                resp := t.resp })

/-- R141: run from CG_IDLE to CG_IDLE the traversal machine performs exactly what GEN does, up to its scratch counters. -/
def Obligations.TraversalMachineRefinesGen : Prop :=
  ∀ s u : State, s.treeValid = true → exec .gen s = .next u →
    ∃ k t, runMachine cgBusy cgVisit k (cgAccept s) = .next t ∧ t.cgState = .idle ∧ t.dropScratch = u.dropScratch

/-- R140: GEN sent again while the tree exists answers the same and writes the same table. -/
def Obligations.GenRepeatedWritesTheSameTable : Prop :=
  ∀ s : State, s.Inv → s.treeValid = true →
    ∃ t u, exec .gen s = .next t ∧ exec .gen t = .next u ∧ u.ct = t.ct ∧ u.resp = t.resp ∧ u.ctValid = true

/-- R144: no code of the table is the beginning of the code of another symbol. -/
def Obligations.NoCodeBeginsAnother : Prop :=
  ∀ (s : State) (x y : Sym) (p q : BitSeq), s.Inv → s.codeOf x = some p → s.codeOf y = some q → x ≠ y → ¬ p <+: q

/-- R128: after BUILD and GEN a symbol with the larger weight never has the longer code. -/
def Obligations.HeavierSymbolsHaveNoLongerCodes : Prop :=
  ∀ (s t u : State) (x y : Sym) (p q : BitSeq), s.Inv → s.treeValid = false → exec .build s = .next t →
    exec .gen t = .next u → u.codeOf x = some p → u.codeOf y = some q →
    (u.node (u.leafOfSym y)).weight < (u.node (u.leafOfSym x)).weight → p.length ≤ q.length

/-- R142. -/
def Obligations.RdlenReadsTheCodeLength : Prop :=
  ∀ (s : State) (x : Sym),
    (∀ p, s.codeOf x = some p → exec (.rdlen x) s = .next { s with resp := some ⟨0#8, BitVec.ofNat 32 p.length⟩ })
      ∧ (s.codeOf x = none → exec (.rdlen x) s = .next { s with resp := some ⟨0#8, 0#32⟩ })

/-- R143: element k of the code, UnmappedSymbol before BadIndex. -/
def Obligations.RdcbitReadsOneCodeBit : Prop :=
  ∀ (s : State) (x : Sym) (k : BitVec 16),
    (s.codeOf x = none →
        exec (.rdcbit x k) s = .next { s with err := s.err ||| 0x08#32, resp := some ⟨3#8, 0#32⟩ })
      ∧ (∀ p, s.codeOf x = some p → p.length ≤ k.toNat →
          exec (.rdcbit x k) s = .next { s with err := s.err ||| 0x80#32, resp := some ⟨7#8, 0#32⟩ })
      ∧ ∀ p b, s.codeOf x = some p → p[k.toNat]? = some b →
          exec (.rdcbit x k) s = .next { s with resp := some ⟨0#8, (BitVec.ofBool b).setWidth 32⟩ }

/-! ## The encoder and the bit buffer -/

/-- R150: ENC's three faults in their order, and the code appended whole. -/
def Obligations.EncAppendsTheCode : Prop :=
  ∀ (s : State) (x : Sym),
    (s.ctValid = false → exec (.enc x) s = .next { s with err := s.err ||| 0x20#32, resp := some ⟨5#8, 0#32⟩ })
      ∧ (s.ctValid = true → s.codeOf x = none →
          exec (.enc x) s = .next { s with err := s.err ||| 0x08#32, resp := some ⟨3#8, 0#32⟩ })
      ∧ (∀ p, s.ctValid = true → s.codeOf x = some p → s.params.bitCap < s.bitbuf.length + p.length →
          exec (.enc x) s = .next { s with err := s.err ||| 0x200#32, resp := some ⟨9#8, 0#32⟩ })
      ∧ ∀ p, s.ctValid = true → s.codeOf x = some p → s.bitbuf.length + p.length ≤ s.params.bitCap →
          exec (.enc x) s = .next { s with
            bitbuf := s.bitbuf ++ p, resp := some ⟨0#8, BitVec.ofNat 32 (s.bitbuf ++ p).length⟩ }

/-- R151: PUSHBIT's fault, and the bit appended. The first clause is the model's own reading (log entry 13): a term with an
operand above 1, which no word decodes to (R85), is answered as its word would be. -/
def Obligations.PushbitAppendsOneBit : Prop :=
  ∀ (s : State) (x : BitVec 24),
    (1#24 < x → exec (.pushbit x) s = .next { s with err := s.err ||| 0x40#32, resp := some ⟨6#8, 0#32⟩ })
      ∧ (x ≤ 1#24 → s.bitbuf.length = s.params.bitCap →
          exec (.pushbit x) s = .next { s with err := s.err ||| 0x200#32, resp := some ⟨9#8, 0#32⟩ })
      ∧ (x ≤ 1#24 → s.bitbuf.length ≠ s.params.bitCap →
          exec (.pushbit x) s = .next { s with
            bitbuf := s.bitbuf ++ [decide (x = 1#24)], resp := some ⟨0#8, BitVec.ofNat 32 (s.bitbuf.length + 1)⟩ })

/-- R152. -/
def Obligations.ClrbitsEmptiesTheBitBuffer : Prop :=
  ∀ s : State, exec .clrbits s = .next { s with bitbuf := [], resp := some ⟨0#8, 0#32⟩ }

/-- R153. -/
def Obligations.RdbitReadsOneBit : Prop :=
  ∀ (s : State) (k : BitVec 24),
    (s.bitbuf.length ≤ k.toNat →
        exec (.rdbit k) s = .next { s with err := s.err ||| 0x80#32, resp := some ⟨7#8, 0#32⟩ })
      ∧ ∀ b, s.bitbuf[k.toNat]? = some b →
          exec (.rdbit k) s = .next { s with resp := some ⟨0#8, (BitVec.ofBool b).setWidth 32⟩ }

/-- R154: ENC for the symbols of a sequence in order, all mapped and all fitting, appends the concatenation of their codes and
changes nothing else. -/
def Obligations.EncodingASequenceConcatenatesItsCodes : Prop :=
  ∀ (s : State) (xs : List Sym), s.ctValid = true → (∀ x ∈ xs, s.codeOf x ≠ none) →
    s.bitbuf.length + (s.codesOf xs).length ≤ s.params.bitCap →
    ∃ t, runCommands (xs.map .enc) s = some t ∧ t.bitbuf = s.bitbuf ++ s.codesOf xs
      ∧ t = { s with bitbuf := t.bitbuf, resp := t.resp }

/-! ## The decoder -/

/-- R161: the two entry checks, both InvalidInput with data 0, after the output has been emptied (R160). That such a DECODE also
leaves the cursor at the root and its scratch registers unspecified is the model's reading (log entry 8): R182 says so of every
failed DECODE, R160's pseudocode raises before it writes the cursor. -/
def Obligations.DecodeRefusesAbsentInput : Prop :=
  ∀ s : State, s.treeValid = false ∨ s.bitbuf = [] →
    ∃ t, exec .decode s = .next t
      ∧ t = { s with
          outbuf := [], decDone := false, cursor := s.root, deState := .idle, rdPtr := t.rdPtr, lenient := t.lenient,
          freeCtr := t.freeCtr, err := s.err ||| 0x02#32, resp := some ⟨1#8, 0#32⟩ }

/-- R160, R162 to R164: bits that are the codes of leaves, one after the other, decode, in strict and in lenient mode, to
those leaves' symbols in order; nothing but the output and the decoder's registers changes. -/
def Obligations.DecodeInvertsTheLeafPaths : Prop :=
  ∀ (s : State) (ps : List (NodeId × BitSeq)), s.Inv → s.treeValid = true → ps ≠ [] → (∀ p ∈ ps, s.IsCode p.1 p.2) →
    s.bitbuf = bitsAlong ps → ps.length ≤ s.params.outCap →
    ∃ t, exec .decode s = .next t
      ∧ t = { s with
          outbuf := s.symbolsAt ps, decDone := true, cursor := s.root, deState := .idle, rdPtr := t.rdPtr,
          lenient := t.lenient, freeCtr := t.freeCtr, resp := some ⟨0#8, BitVec.ofNat 32 ps.length⟩ }

/-- R163: in the degenerate tree bit 0 emits the root's symbol, in both modes; a bit 1 is MalformedBit with its index in strict
mode and ignored in lenient mode. -/
def Obligations.DegenerateTreeDecodesByBitZero : Prop :=
  ∀ s : State, s.Inv → s.treeValid = true → (s.node s.root).leaf = true →
    (∀ k rest, s.cfgLenient = false → s.bitbuf = List.replicate k false ++ true :: rest → k ≤ s.params.outCap →
      ∃ t, exec .decode s = .next t
        ∧ t = { s with
            outbuf := [], decDone := false, cursor := s.root, deState := .idle, rdPtr := t.rdPtr, lenient := t.lenient,
            freeCtr := t.freeCtr, err := s.err ||| 0x04#32, resp := some ⟨2#8, BitVec.ofNat 32 k⟩ })
      ∧ ((s.cfgLenient = true ∨ true ∉ s.bitbuf) → s.bitbuf ≠ [] → s.bitbuf.count false ≤ s.params.outCap →
          ∃ t, exec .decode s = .next t
            ∧ t = { s with
                outbuf := List.replicate (s.bitbuf.count false) (s.node s.root).sym, decDone := true, cursor := s.root,
                deState := .idle, rdPtr := t.rdPtr, lenient := t.lenient, freeCtr := t.freeCtr,
                resp := some ⟨0#8, BitVec.ofNat 32 (s.bitbuf.count false)⟩ })

/-- R164: bits that end inside a code are Truncated with data `bit_n`, in strict and in lenient mode, and nothing is
delivered. -/
def Obligations.DecodeRefusesTruncatedInput : Prop :=
  ∀ (s : State) (ps : List (NodeId × BitSeq)) (p : BitSeq) (j : NodeId), s.Inv → s.treeValid = true →
    (∀ q ∈ ps, s.IsCode q.1 q.2) → ps.length ≤ s.params.outCap → p ≠ [] → s.follow s.root p = some j →
    (s.node j).leaf = false → s.bitbuf = bitsAlong ps ++ p →
    ∃ t, exec .decode s = .next t
      ∧ t = { s with
          outbuf := [], decDone := false, cursor := s.root, deState := .idle, rdPtr := t.rdPtr, lenient := t.lenient,
          freeCtr := t.freeCtr, err := s.err ||| 0x10#32, resp := some ⟨4#8, BitVec.ofNat 32 s.bitbuf.length⟩ }

/-- R165: one emission more than the output buffer holds is OutOverflow with the index of the bit whose step wanted to
emit. -/
def Obligations.DecodeRefusesToOverfillTheOutput : Prop :=
  ∀ (s : State) (ps : List (NodeId × BitSeq)) (p : NodeId × BitSeq) (rest : BitSeq), s.Inv → s.treeValid = true →
    (∀ q ∈ ps, s.IsCode q.1 q.2) → s.IsCode p.1 p.2 → ps.length = s.params.outCap →
    s.bitbuf = bitsAlong ps ++ p.2 ++ rest →
    ∃ t, exec .decode s = .next t
      ∧ t = { s with
          outbuf := [], decDone := false, cursor := s.root, deState := .idle, rdPtr := t.rdPtr, lenient := t.lenient,
          freeCtr := t.freeCtr, err := s.err ||| 0x400#32,
          resp := some ⟨10#8, BitVec.ofNat 32 ((bitsAlong ps ++ p.2).length - 1)⟩ }

/-- R166. -/
def Obligations.RdoutReadsOneSymbol : Prop :=
  ∀ (s : State) (k : BitVec 24),
    (s.outbuf.length ≤ k.toNat →
        exec (.rdout k) s = .next { s with err := s.err ||| 0x80#32, resp := some ⟨7#8, 0#32⟩ })
      ∧ ∀ x, s.outbuf[k.toNat]? = some x →
          exec (.rdout k) s = .next { s with resp := some ⟨0#8, x.setWidth 32⟩ }

/-- R167: run from DE_IDLE to DE_IDLE the tree-walk machine performs exactly what DECODE does, up to its scratch registers,
with the bit buffer within the width of `rd_ptr`. -/
def Obligations.TreeWalkMachineRefinesDecode : Prop :=
  ∀ s u : State, s.bitbuf.length ≤ 2 ^ 24 → exec .decode s = .next u →
    ∃ k t, runMachine deBusy deVisit k (deAccept s) = .next t ∧ t.deState = .idle ∧ t.dropScratch = u.dropScratch

/-- R169: with a tree of two or more leaves a DECODE of a non-empty bit buffer ends well, with Truncated or with OutOverflow,
whatever CFG says; with the degenerate tree it ends well, with OutOverflow, or, in strict mode and only on a bit 1, with
MalformedBit. -/
def Obligations.DecodeFaultsAreThoseOfItsTree : Prop :=
  ∀ s : State, s.Inv → s.treeValid = true → s.bitbuf ≠ [] →
    ∃ t e d, exec .decode s = .next t ∧ t.Responds e d
      ∧ ((s.node s.root).leaf = false → (e = 0#8 ∨ e = 4#8 ∨ e = 10#8)
          ∧ ∀ b, ∃ u, exec .decode { s with cfgLenient := b } = .next u ∧ u.resp = t.resp ∧ SameOutput t u)
      ∧ ((s.node s.root).leaf = true → e = 0#8 ∨ e = 10#8 ∨ (e = 2#8 ∧ s.cfgLenient = false ∧ true ∈ s.bitbuf))

/-- R168: for every non-empty sequence, not all in BLANK, whose length fits the output buffer and the weight width and whose
encoding fits the bit buffer, the pseudo-command ENCODE of R91 and then DECODE succeed in every command and reproduce the
sequence, in the mode CFG has and in the mode a WRCSR between the two gives it. -/
def Obligations.RoundTripReproducesTheInput : Prop :=
  ∀ (s : State) (mode : List Instr) (xs : List Sym), (mode = [] ∨ ∃ v, mode = [.wrcsr 2#8 v]) → xs ≠ [] →
    (∃ x ∈ xs, x ∉ s.params.blank) → xs.length ≤ 0xFFFFFFFF → xs.length ≤ s.params.outCap →
    ∃ t, runCommands (.clr :: xs.map .tally ++ [.build, .gen]) s = some t
      ∧ ((t.codesOf xs).length ≤ s.params.bitCap →
          ∃ u, runCommands (Pseudo.expand (.encode xs) ++ mode ++ [.decode]) s = some u
            ∧ u.outbuf = xs ∧ u.decDone = true ∧ u.Responds 0#8 (BitVec.ofNat 32 xs.length) ∧ u.Clean)
end

