-- ==== Sys2Proof/Laws/Assembler.lean ====
section
/-! SUPPORT. Running a list of commands: what the two forms of a list do. -/

namespace Sys2Proof.Machine

/-- One command, then the rest, when it ends with error code 0. -/
theorem runCommands_cons {i : Instr} {is : List Instr} {s t : State} (h : exec i s = .next t) (ok : t.succeeded = true) :
    runCommands (i :: is) s = runCommands is t := by
  simp [runCommands, h, ok]

/-- A list run in two parts. -/
theorem runCommands_append (is js : List Instr) (s : State) :
    runCommands (is ++ js) s = (runCommands is s).bind (runCommands js) := by
  induction is generalizing s with
  | nil => rfl
  | cons i is ih =>
    simp only [List.cons_append, runCommands]
    split
    · split
      · exact ih _
      · rfl
    · rfl
    · rfl

/-- Where every command succeeds, a pseudo-command ends where the list does. -/
theorem runPseudo_of_runCommands {is : List Instr} {s t : State} (h : runCommands is s = some t) :
    runPseudo is s = .next t := by
  induction is generalizing s with
  | nil => simpa [runCommands, runPseudo] using h
  | cons i is ih =>
    simp only [runCommands] at h
    split at h
    · split at h
      · rename_i u hu ok
        simp [runPseudo, hu, ok, ih h]
      · cases h
    · cases h
    · cases h

/-- A success is a response with error code 0. -/
theorem succeeded_respond (d : Word) (s : State) : (respond d s).succeeded = true := by rfl

end Sys2Proof.Machine
end

