-- ==== Sys2Proof/Laws/State.lean ====
section
/-! SUPPORT. For every named update of State, what each field holds afterwards: one simp lemma per update, a conjunction
with one equation per field (simp takes it apart), each true by rfl, so that no later proof unfolds an update. -/

namespace Sys2Proof.Machine

/-- `respond` writes the response port alone. -/
@[simp] theorem respond_fields (d : Word) (s : State) :
    (respond d s).arena = s.arena ∧ (respond d s).nLeaf = s.nLeaf ∧ (respond d s).leafOf = s.leafOf
      ∧ (respond d s).totalW = s.totalW ∧ (respond d s).treeValid = s.treeValid ∧ (respond d s).root = s.root
      ∧ (respond d s).pq = s.pq ∧ (respond d s).seqCtr = s.seqCtr ∧ (respond d s).tbState = s.tbState
      ∧ (respond d s).seedI = s.seedI ∧ (respond d s).tbA = s.tbA ∧ (respond d s).tbB = s.tbB
      ∧ (respond d s).ct = s.ct ∧ (respond d s).ctValid = s.ctValid ∧ (respond d s).stk = s.stk
      ∧ (respond d s).cgState = s.cgState ∧ (respond d s).sI = s.sI ∧ (respond d s).count = s.count
      ∧ (respond d s).bitbuf = s.bitbuf ∧ (respond d s).outbuf = s.outbuf ∧ (respond d s).decDone = s.decDone
      ∧ (respond d s).cursor = s.cursor ∧ (respond d s).rdPtr = s.rdPtr ∧ (respond d s).deState = s.deState
      ∧ (respond d s).lenient = s.lenient ∧ (respond d s).err = s.err ∧ (respond d s).cfgLenient = s.cfgLenient
      ∧ (respond d s).resp = some ⟨0#8, d⟩ ∧ (respond d s).input = s.input ∧ (respond d s).params = s.params
      ∧ (respond d s).freeCtr = s.freeCtr := by
  repeat' constructor

/-- `raise` writes ERR and the response port alone (R181). -/
@[simp] theorem raise_fields (e : Err) (d : Word) (s : State) :
    (raise e d s).arena = s.arena ∧ (raise e d s).nLeaf = s.nLeaf ∧ (raise e d s).leafOf = s.leafOf
      ∧ (raise e d s).totalW = s.totalW ∧ (raise e d s).treeValid = s.treeValid ∧ (raise e d s).root = s.root
      ∧ (raise e d s).pq = s.pq ∧ (raise e d s).seqCtr = s.seqCtr ∧ (raise e d s).tbState = s.tbState
      ∧ (raise e d s).seedI = s.seedI ∧ (raise e d s).tbA = s.tbA ∧ (raise e d s).tbB = s.tbB
      ∧ (raise e d s).ct = s.ct ∧ (raise e d s).ctValid = s.ctValid ∧ (raise e d s).stk = s.stk
      ∧ (raise e d s).cgState = s.cgState ∧ (raise e d s).sI = s.sI ∧ (raise e d s).count = s.count
      ∧ (raise e d s).bitbuf = s.bitbuf ∧ (raise e d s).outbuf = s.outbuf ∧ (raise e d s).decDone = s.decDone
      ∧ (raise e d s).cursor = s.cursor ∧ (raise e d s).rdPtr = s.rdPtr ∧ (raise e d s).deState = s.deState
      ∧ (raise e d s).lenient = s.lenient ∧ (raise e d s).err = s.err ||| errBit e
      ∧ (raise e d s).cfgLenient = s.cfgLenient ∧ (raise e d s).resp = some ⟨errCode e, d⟩
      ∧ (raise e d s).input = s.input ∧ (raise e d s).params = s.params ∧ (raise e d s).freeCtr = s.freeCtr := by
  repeat' constructor

/-- `accept` writes the host's list and the response port alone. -/
@[simp] theorem accept_fields (r : List HostEvent) (s : State) :
    (accept r s).arena = s.arena ∧ (accept r s).nLeaf = s.nLeaf ∧ (accept r s).leafOf = s.leafOf
      ∧ (accept r s).totalW = s.totalW ∧ (accept r s).treeValid = s.treeValid ∧ (accept r s).root = s.root
      ∧ (accept r s).pq = s.pq ∧ (accept r s).seqCtr = s.seqCtr ∧ (accept r s).tbState = s.tbState
      ∧ (accept r s).seedI = s.seedI ∧ (accept r s).tbA = s.tbA ∧ (accept r s).tbB = s.tbB ∧ (accept r s).ct = s.ct
      ∧ (accept r s).ctValid = s.ctValid ∧ (accept r s).stk = s.stk ∧ (accept r s).cgState = s.cgState
      ∧ (accept r s).sI = s.sI ∧ (accept r s).count = s.count ∧ (accept r s).bitbuf = s.bitbuf
      ∧ (accept r s).outbuf = s.outbuf ∧ (accept r s).decDone = s.decDone ∧ (accept r s).cursor = s.cursor
      ∧ (accept r s).rdPtr = s.rdPtr ∧ (accept r s).deState = s.deState ∧ (accept r s).lenient = s.lenient
      ∧ (accept r s).err = s.err ∧ (accept r s).cfgLenient = s.cfgLenient ∧ (accept r s).resp = none
      ∧ (accept r s).input = r ∧ (accept r s).params = s.params ∧ (accept r s).freeCtr = s.freeCtr := by
  repeat' constructor

/-- `idle` writes the response port alone. -/
@[simp] theorem idle_fields (s : State) :
    (idle s).arena = s.arena ∧ (idle s).nLeaf = s.nLeaf ∧ (idle s).leafOf = s.leafOf ∧ (idle s).totalW = s.totalW
      ∧ (idle s).treeValid = s.treeValid ∧ (idle s).root = s.root ∧ (idle s).pq = s.pq ∧ (idle s).seqCtr = s.seqCtr
      ∧ (idle s).tbState = s.tbState ∧ (idle s).seedI = s.seedI ∧ (idle s).tbA = s.tbA ∧ (idle s).tbB = s.tbB
      ∧ (idle s).ct = s.ct ∧ (idle s).ctValid = s.ctValid ∧ (idle s).stk = s.stk ∧ (idle s).cgState = s.cgState
      ∧ (idle s).sI = s.sI ∧ (idle s).count = s.count ∧ (idle s).bitbuf = s.bitbuf ∧ (idle s).outbuf = s.outbuf
      ∧ (idle s).decDone = s.decDone ∧ (idle s).cursor = s.cursor ∧ (idle s).rdPtr = s.rdPtr
      ∧ (idle s).deState = s.deState ∧ (idle s).lenient = s.lenient ∧ (idle s).err = s.err
      ∧ (idle s).cfgLenient = s.cfgLenient ∧ (idle s).resp = none ∧ (idle s).input = s.input
      ∧ (idle s).params = s.params ∧ (idle s).freeCtr = s.freeCtr := by
  repeat' constructor

/-- `addNode` writes the arena alone. -/
@[simp] theorem addNode_fields (s : State) (n : Node) :
    (s.addNode n).arena = s.arena ++ [n] ∧ (s.addNode n).nLeaf = s.nLeaf ∧ (s.addNode n).leafOf = s.leafOf
      ∧ (s.addNode n).totalW = s.totalW ∧ (s.addNode n).treeValid = s.treeValid ∧ (s.addNode n).root = s.root
      ∧ (s.addNode n).pq = s.pq ∧ (s.addNode n).seqCtr = s.seqCtr ∧ (s.addNode n).tbState = s.tbState
      ∧ (s.addNode n).seedI = s.seedI ∧ (s.addNode n).tbA = s.tbA ∧ (s.addNode n).tbB = s.tbB
      ∧ (s.addNode n).ct = s.ct ∧ (s.addNode n).ctValid = s.ctValid ∧ (s.addNode n).stk = s.stk
      ∧ (s.addNode n).cgState = s.cgState ∧ (s.addNode n).sI = s.sI ∧ (s.addNode n).count = s.count
      ∧ (s.addNode n).bitbuf = s.bitbuf ∧ (s.addNode n).outbuf = s.outbuf ∧ (s.addNode n).decDone = s.decDone
      ∧ (s.addNode n).cursor = s.cursor ∧ (s.addNode n).rdPtr = s.rdPtr ∧ (s.addNode n).deState = s.deState
      ∧ (s.addNode n).lenient = s.lenient ∧ (s.addNode n).err = s.err ∧ (s.addNode n).cfgLenient = s.cfgLenient
      ∧ (s.addNode n).resp = s.resp ∧ (s.addNode n).input = s.input ∧ (s.addNode n).params = s.params
      ∧ (s.addNode n).freeCtr = s.freeCtr := by
  repeat' constructor

/-- `setLeafOf` writes the leaf index alone. -/
@[simp] theorem setLeafOf_fields (s : State) (x : Sym) (i : NodeId) :
    (s.setLeafOf x i).arena = s.arena ∧ (s.setLeafOf x i).nLeaf = s.nLeaf
      ∧ (s.setLeafOf x i).leafOf = s.leafOf.set x.toNat i x.isLt ∧ (s.setLeafOf x i).totalW = s.totalW
      ∧ (s.setLeafOf x i).treeValid = s.treeValid ∧ (s.setLeafOf x i).root = s.root ∧ (s.setLeafOf x i).pq = s.pq
      ∧ (s.setLeafOf x i).seqCtr = s.seqCtr ∧ (s.setLeafOf x i).tbState = s.tbState
      ∧ (s.setLeafOf x i).seedI = s.seedI ∧ (s.setLeafOf x i).tbA = s.tbA ∧ (s.setLeafOf x i).tbB = s.tbB
      ∧ (s.setLeafOf x i).ct = s.ct ∧ (s.setLeafOf x i).ctValid = s.ctValid ∧ (s.setLeafOf x i).stk = s.stk
      ∧ (s.setLeafOf x i).cgState = s.cgState ∧ (s.setLeafOf x i).sI = s.sI ∧ (s.setLeafOf x i).count = s.count
      ∧ (s.setLeafOf x i).bitbuf = s.bitbuf ∧ (s.setLeafOf x i).outbuf = s.outbuf
      ∧ (s.setLeafOf x i).decDone = s.decDone ∧ (s.setLeafOf x i).cursor = s.cursor
      ∧ (s.setLeafOf x i).rdPtr = s.rdPtr ∧ (s.setLeafOf x i).deState = s.deState
      ∧ (s.setLeafOf x i).lenient = s.lenient ∧ (s.setLeafOf x i).err = s.err
      ∧ (s.setLeafOf x i).cfgLenient = s.cfgLenient ∧ (s.setLeafOf x i).resp = s.resp
      ∧ (s.setLeafOf x i).input = s.input ∧ (s.setLeafOf x i).params = s.params
      ∧ (s.setLeafOf x i).freeCtr = s.freeCtr := by
  repeat' constructor

/-- `setCode` writes the code table alone. -/
@[simp] theorem setCode_fields (s : State) (x : Sym) (c : BitSeq) :
    (s.setCode x c).arena = s.arena ∧ (s.setCode x c).nLeaf = s.nLeaf ∧ (s.setCode x c).leafOf = s.leafOf
      ∧ (s.setCode x c).totalW = s.totalW ∧ (s.setCode x c).treeValid = s.treeValid ∧ (s.setCode x c).root = s.root
      ∧ (s.setCode x c).pq = s.pq ∧ (s.setCode x c).seqCtr = s.seqCtr ∧ (s.setCode x c).tbState = s.tbState
      ∧ (s.setCode x c).seedI = s.seedI ∧ (s.setCode x c).tbA = s.tbA ∧ (s.setCode x c).tbB = s.tbB
      ∧ (s.setCode x c).ct = s.ct.set x.toNat (some c) x.isLt ∧ (s.setCode x c).ctValid = s.ctValid
      ∧ (s.setCode x c).stk = s.stk ∧ (s.setCode x c).cgState = s.cgState ∧ (s.setCode x c).sI = s.sI
      ∧ (s.setCode x c).count = s.count ∧ (s.setCode x c).bitbuf = s.bitbuf ∧ (s.setCode x c).outbuf = s.outbuf
      ∧ (s.setCode x c).decDone = s.decDone ∧ (s.setCode x c).cursor = s.cursor ∧ (s.setCode x c).rdPtr = s.rdPtr
      ∧ (s.setCode x c).deState = s.deState ∧ (s.setCode x c).lenient = s.lenient ∧ (s.setCode x c).err = s.err
      ∧ (s.setCode x c).cfgLenient = s.cfgLenient ∧ (s.setCode x c).resp = s.resp ∧ (s.setCode x c).input = s.input
      ∧ (s.setCode x c).params = s.params ∧ (s.setCode x c).freeCtr = s.freeCtr := by
  repeat' constructor

/-- `clearTable` writes the code table alone. -/
@[simp] theorem clearTable_fields (s : State) :
    (s.clearTable).arena = s.arena ∧ (s.clearTable).nLeaf = s.nLeaf ∧ (s.clearTable).leafOf = s.leafOf
      ∧ (s.clearTable).totalW = s.totalW ∧ (s.clearTable).treeValid = s.treeValid ∧ (s.clearTable).root = s.root
      ∧ (s.clearTable).pq = s.pq ∧ (s.clearTable).seqCtr = s.seqCtr ∧ (s.clearTable).tbState = s.tbState
      ∧ (s.clearTable).seedI = s.seedI ∧ (s.clearTable).tbA = s.tbA ∧ (s.clearTable).tbB = s.tbB
      ∧ (s.clearTable).ct = Vector.replicate 256 none ∧ (s.clearTable).ctValid = s.ctValid
      ∧ (s.clearTable).stk = s.stk ∧ (s.clearTable).cgState = s.cgState ∧ (s.clearTable).sI = s.sI
      ∧ (s.clearTable).count = s.count ∧ (s.clearTable).bitbuf = s.bitbuf ∧ (s.clearTable).outbuf = s.outbuf
      ∧ (s.clearTable).decDone = s.decDone ∧ (s.clearTable).cursor = s.cursor ∧ (s.clearTable).rdPtr = s.rdPtr
      ∧ (s.clearTable).deState = s.deState ∧ (s.clearTable).lenient = s.lenient ∧ (s.clearTable).err = s.err
      ∧ (s.clearTable).cfgLenient = s.cfgLenient ∧ (s.clearTable).resp = s.resp ∧ (s.clearTable).input = s.input
      ∧ (s.clearTable).params = s.params ∧ (s.clearTable).freeCtr = s.freeCtr := by
  repeat' constructor

/-- What `addLeaf` writes (R110, R123), and that it writes nothing else. -/
@[simp] theorem addLeaf_fields (s : State) (x : Sym) (w : Word) :
    (s.addLeaf x w).arena = s.arena ++ [⟨true, x, w, nil9, nil9⟩] ∧ (s.addLeaf x w).nLeaf = s.nLeaf + 1#9
      ∧ (s.addLeaf x w).leafOf = s.leafOf.set x.toNat s.nNode x.isLt ∧ (s.addLeaf x w).totalW = s.totalW + w
      ∧ (s.addLeaf x w).treeValid = s.treeValid ∧ (s.addLeaf x w).root = s.root ∧ (s.addLeaf x w).pq = s.pq
      ∧ (s.addLeaf x w).seqCtr = s.seqCtr ∧ (s.addLeaf x w).tbState = s.tbState ∧ (s.addLeaf x w).seedI = s.seedI
      ∧ (s.addLeaf x w).tbA = s.tbA ∧ (s.addLeaf x w).tbB = s.tbB ∧ (s.addLeaf x w).ct = s.ct
      ∧ (s.addLeaf x w).ctValid = s.ctValid ∧ (s.addLeaf x w).stk = s.stk ∧ (s.addLeaf x w).cgState = s.cgState
      ∧ (s.addLeaf x w).sI = s.sI ∧ (s.addLeaf x w).count = s.count ∧ (s.addLeaf x w).bitbuf = s.bitbuf
      ∧ (s.addLeaf x w).outbuf = s.outbuf ∧ (s.addLeaf x w).decDone = s.decDone ∧ (s.addLeaf x w).cursor = s.cursor
      ∧ (s.addLeaf x w).rdPtr = s.rdPtr ∧ (s.addLeaf x w).deState = s.deState ∧ (s.addLeaf x w).lenient = s.lenient
      ∧ (s.addLeaf x w).err = s.err ∧ (s.addLeaf x w).cfgLenient = s.cfgLenient ∧ (s.addLeaf x w).resp = s.resp
      ∧ (s.addLeaf x w).input = s.input ∧ (s.addLeaf x w).params = s.params ∧ (s.addLeaf x w).freeCtr = s.freeCtr := by
  repeat' constructor

/-- `bumpLeaf` writes the arena and the total alone. -/
@[simp] theorem bumpLeaf_fields (s : State) (i : NodeId) :
    (s.bumpLeaf i).arena = s.arena.modify i.toNat (fun n => { n with weight := n.weight + 1#32 })
      ∧ (s.bumpLeaf i).nLeaf = s.nLeaf ∧ (s.bumpLeaf i).leafOf = s.leafOf ∧ (s.bumpLeaf i).totalW = s.totalW + 1#32
      ∧ (s.bumpLeaf i).treeValid = s.treeValid ∧ (s.bumpLeaf i).root = s.root ∧ (s.bumpLeaf i).pq = s.pq
      ∧ (s.bumpLeaf i).seqCtr = s.seqCtr ∧ (s.bumpLeaf i).tbState = s.tbState ∧ (s.bumpLeaf i).seedI = s.seedI
      ∧ (s.bumpLeaf i).tbA = s.tbA ∧ (s.bumpLeaf i).tbB = s.tbB ∧ (s.bumpLeaf i).ct = s.ct
      ∧ (s.bumpLeaf i).ctValid = s.ctValid ∧ (s.bumpLeaf i).stk = s.stk ∧ (s.bumpLeaf i).cgState = s.cgState
      ∧ (s.bumpLeaf i).sI = s.sI ∧ (s.bumpLeaf i).count = s.count ∧ (s.bumpLeaf i).bitbuf = s.bitbuf
      ∧ (s.bumpLeaf i).outbuf = s.outbuf ∧ (s.bumpLeaf i).decDone = s.decDone ∧ (s.bumpLeaf i).cursor = s.cursor
      ∧ (s.bumpLeaf i).rdPtr = s.rdPtr ∧ (s.bumpLeaf i).deState = s.deState ∧ (s.bumpLeaf i).lenient = s.lenient
      ∧ (s.bumpLeaf i).err = s.err ∧ (s.bumpLeaf i).cfgLenient = s.cfgLenient ∧ (s.bumpLeaf i).resp = s.resp
      ∧ (s.bumpLeaf i).input = s.input ∧ (s.bumpLeaf i).params = s.params ∧ (s.bumpLeaf i).freeCtr = s.freeCtr := by
  repeat' constructor

/-- `forgetBuilder` leaves all but the merge machine's scratch registers (U10). -/
@[simp] theorem forgetBuilder_fields (s : State) :
    (s.forgetBuilder).arena = s.arena ∧ (s.forgetBuilder).nLeaf = s.nLeaf ∧ (s.forgetBuilder).leafOf = s.leafOf
      ∧ (s.forgetBuilder).totalW = s.totalW ∧ (s.forgetBuilder).treeValid = s.treeValid
      ∧ (s.forgetBuilder).root = s.root ∧ (s.forgetBuilder).pq = s.pq ∧ (s.forgetBuilder).seqCtr = s.seqCtr
      ∧ (s.forgetBuilder).tbState = s.tbState ∧ (s.forgetBuilder).ct = s.ct ∧ (s.forgetBuilder).ctValid = s.ctValid
      ∧ (s.forgetBuilder).stk = s.stk ∧ (s.forgetBuilder).cgState = s.cgState ∧ (s.forgetBuilder).sI = s.sI
      ∧ (s.forgetBuilder).count = s.count ∧ (s.forgetBuilder).bitbuf = s.bitbuf ∧ (s.forgetBuilder).outbuf = s.outbuf
      ∧ (s.forgetBuilder).decDone = s.decDone ∧ (s.forgetBuilder).cursor = s.cursor
      ∧ (s.forgetBuilder).rdPtr = s.rdPtr ∧ (s.forgetBuilder).deState = s.deState
      ∧ (s.forgetBuilder).lenient = s.lenient ∧ (s.forgetBuilder).err = s.err
      ∧ (s.forgetBuilder).cfgLenient = s.cfgLenient ∧ (s.forgetBuilder).resp = s.resp
      ∧ (s.forgetBuilder).input = s.input ∧ (s.forgetBuilder).params = s.params
      ∧ (s.forgetBuilder).freeCtr = s.freeCtr + 7 := by
  repeat' constructor

/-- `forgetWalker` leaves all but the traversal machine's scratch registers (U10). -/
@[simp] theorem forgetWalker_fields (s : State) :
    (s.forgetWalker).arena = s.arena ∧ (s.forgetWalker).nLeaf = s.nLeaf ∧ (s.forgetWalker).leafOf = s.leafOf
      ∧ (s.forgetWalker).totalW = s.totalW ∧ (s.forgetWalker).treeValid = s.treeValid
      ∧ (s.forgetWalker).root = s.root ∧ (s.forgetWalker).pq = s.pq ∧ (s.forgetWalker).seqCtr = s.seqCtr
      ∧ (s.forgetWalker).tbState = s.tbState ∧ (s.forgetWalker).seedI = s.seedI ∧ (s.forgetWalker).tbA = s.tbA
      ∧ (s.forgetWalker).tbB = s.tbB ∧ (s.forgetWalker).ct = s.ct ∧ (s.forgetWalker).ctValid = s.ctValid
      ∧ (s.forgetWalker).stk = s.stk ∧ (s.forgetWalker).cgState = s.cgState ∧ (s.forgetWalker).bitbuf = s.bitbuf
      ∧ (s.forgetWalker).outbuf = s.outbuf ∧ (s.forgetWalker).decDone = s.decDone
      ∧ (s.forgetWalker).cursor = s.cursor ∧ (s.forgetWalker).rdPtr = s.rdPtr ∧ (s.forgetWalker).deState = s.deState
      ∧ (s.forgetWalker).lenient = s.lenient ∧ (s.forgetWalker).err = s.err
      ∧ (s.forgetWalker).cfgLenient = s.cfgLenient ∧ (s.forgetWalker).resp = s.resp
      ∧ (s.forgetWalker).input = s.input ∧ (s.forgetWalker).params = s.params
      ∧ (s.forgetWalker).freeCtr = s.freeCtr + 2 := by
  repeat' constructor

/-- `forgetDecoder` leaves all but the tree-walk machine's scratch registers (U10). -/
@[simp] theorem forgetDecoder_fields (s : State) :
    (s.forgetDecoder).arena = s.arena ∧ (s.forgetDecoder).nLeaf = s.nLeaf ∧ (s.forgetDecoder).leafOf = s.leafOf
      ∧ (s.forgetDecoder).totalW = s.totalW ∧ (s.forgetDecoder).treeValid = s.treeValid
      ∧ (s.forgetDecoder).root = s.root ∧ (s.forgetDecoder).pq = s.pq ∧ (s.forgetDecoder).seqCtr = s.seqCtr
      ∧ (s.forgetDecoder).tbState = s.tbState ∧ (s.forgetDecoder).seedI = s.seedI ∧ (s.forgetDecoder).tbA = s.tbA
      ∧ (s.forgetDecoder).tbB = s.tbB ∧ (s.forgetDecoder).ct = s.ct ∧ (s.forgetDecoder).ctValid = s.ctValid
      ∧ (s.forgetDecoder).stk = s.stk ∧ (s.forgetDecoder).cgState = s.cgState ∧ (s.forgetDecoder).sI = s.sI
      ∧ (s.forgetDecoder).count = s.count ∧ (s.forgetDecoder).bitbuf = s.bitbuf ∧ (s.forgetDecoder).outbuf = s.outbuf
      ∧ (s.forgetDecoder).decDone = s.decDone ∧ (s.forgetDecoder).cursor = s.cursor
      ∧ (s.forgetDecoder).deState = s.deState ∧ (s.forgetDecoder).err = s.err
      ∧ (s.forgetDecoder).cfgLenient = s.cfgLenient ∧ (s.forgetDecoder).resp = s.resp
      ∧ (s.forgetDecoder).input = s.input ∧ (s.forgetDecoder).params = s.params
      ∧ (s.forgetDecoder).freeCtr = s.freeCtr + 2 := by
  repeat' constructor

/-- `emptyQueue` writes the queue and the insertion counter alone. -/
@[simp] theorem emptyQueue_fields (s : State) :
    (s.emptyQueue).arena = s.arena ∧ (s.emptyQueue).nLeaf = s.nLeaf ∧ (s.emptyQueue).leafOf = s.leafOf
      ∧ (s.emptyQueue).totalW = s.totalW ∧ (s.emptyQueue).treeValid = s.treeValid ∧ (s.emptyQueue).root = s.root
      ∧ (s.emptyQueue).pq = [] ∧ (s.emptyQueue).seqCtr = 0#9 ∧ (s.emptyQueue).tbState = s.tbState
      ∧ (s.emptyQueue).seedI = s.seedI ∧ (s.emptyQueue).tbA = s.tbA ∧ (s.emptyQueue).tbB = s.tbB
      ∧ (s.emptyQueue).ct = s.ct ∧ (s.emptyQueue).ctValid = s.ctValid ∧ (s.emptyQueue).stk = s.stk
      ∧ (s.emptyQueue).cgState = s.cgState ∧ (s.emptyQueue).sI = s.sI ∧ (s.emptyQueue).count = s.count
      ∧ (s.emptyQueue).bitbuf = s.bitbuf ∧ (s.emptyQueue).outbuf = s.outbuf ∧ (s.emptyQueue).decDone = s.decDone
      ∧ (s.emptyQueue).cursor = s.cursor ∧ (s.emptyQueue).rdPtr = s.rdPtr ∧ (s.emptyQueue).deState = s.deState
      ∧ (s.emptyQueue).lenient = s.lenient ∧ (s.emptyQueue).err = s.err ∧ (s.emptyQueue).cfgLenient = s.cfgLenient
      ∧ (s.emptyQueue).resp = s.resp ∧ (s.emptyQueue).input = s.input ∧ (s.emptyQueue).params = s.params
      ∧ (s.emptyQueue).freeCtr = s.freeCtr := by
  repeat' constructor

/-- `enqueue` writes the queue and the insertion counter alone. -/
@[simp] theorem enqueue_fields (s : State) (w : Weight) (i : NodeId) :
    (s.enqueue w i).arena = s.arena ∧ (s.enqueue w i).nLeaf = s.nLeaf ∧ (s.enqueue w i).leafOf = s.leafOf
      ∧ (s.enqueue w i).totalW = s.totalW ∧ (s.enqueue w i).treeValid = s.treeValid ∧ (s.enqueue w i).root = s.root
      ∧ (s.enqueue w i).pq = pqInsert ⟨w, s.seqCtr, i⟩ s.pq ∧ (s.enqueue w i).seqCtr = s.seqCtr + 1#9
      ∧ (s.enqueue w i).tbState = s.tbState ∧ (s.enqueue w i).seedI = s.seedI ∧ (s.enqueue w i).tbA = s.tbA
      ∧ (s.enqueue w i).tbB = s.tbB ∧ (s.enqueue w i).ct = s.ct ∧ (s.enqueue w i).ctValid = s.ctValid
      ∧ (s.enqueue w i).stk = s.stk ∧ (s.enqueue w i).cgState = s.cgState ∧ (s.enqueue w i).sI = s.sI
      ∧ (s.enqueue w i).count = s.count ∧ (s.enqueue w i).bitbuf = s.bitbuf ∧ (s.enqueue w i).outbuf = s.outbuf
      ∧ (s.enqueue w i).decDone = s.decDone ∧ (s.enqueue w i).cursor = s.cursor ∧ (s.enqueue w i).rdPtr = s.rdPtr
      ∧ (s.enqueue w i).deState = s.deState ∧ (s.enqueue w i).lenient = s.lenient ∧ (s.enqueue w i).err = s.err
      ∧ (s.enqueue w i).cfgLenient = s.cfgLenient ∧ (s.enqueue w i).resp = s.resp ∧ (s.enqueue w i).input = s.input
      ∧ (s.enqueue w i).params = s.params ∧ (s.enqueue w i).freeCtr = s.freeCtr := by
  repeat' constructor

/-- `plantRoot` writes the tree registers and the cursor alone. -/
@[simp] theorem plantRoot_fields (s : State) (r : NodeId) :
    (s.plantRoot r).arena = s.arena ∧ (s.plantRoot r).nLeaf = s.nLeaf ∧ (s.plantRoot r).leafOf = s.leafOf
      ∧ (s.plantRoot r).totalW = s.totalW ∧ (s.plantRoot r).treeValid = true ∧ (s.plantRoot r).root = r
      ∧ (s.plantRoot r).pq = s.pq ∧ (s.plantRoot r).seqCtr = s.seqCtr ∧ (s.plantRoot r).tbState = s.tbState
      ∧ (s.plantRoot r).seedI = s.seedI ∧ (s.plantRoot r).tbA = s.tbA ∧ (s.plantRoot r).tbB = s.tbB
      ∧ (s.plantRoot r).ct = s.ct ∧ (s.plantRoot r).ctValid = s.ctValid ∧ (s.plantRoot r).stk = s.stk
      ∧ (s.plantRoot r).cgState = s.cgState ∧ (s.plantRoot r).sI = s.sI ∧ (s.plantRoot r).count = s.count
      ∧ (s.plantRoot r).bitbuf = s.bitbuf ∧ (s.plantRoot r).outbuf = s.outbuf ∧ (s.plantRoot r).decDone = s.decDone
      ∧ (s.plantRoot r).cursor = r ∧ (s.plantRoot r).rdPtr = s.rdPtr ∧ (s.plantRoot r).deState = s.deState
      ∧ (s.plantRoot r).lenient = s.lenient ∧ (s.plantRoot r).err = s.err ∧ (s.plantRoot r).cfgLenient = s.cfgLenient
      ∧ (s.plantRoot r).resp = s.resp ∧ (s.plantRoot r).input = s.input ∧ (s.plantRoot r).params = s.params
      ∧ (s.plantRoot r).freeCtr = s.freeCtr := by
  repeat' constructor

/-- `appendBits` writes the bit buffer alone. -/
@[simp] theorem appendBits_fields (s : State) (c : BitSeq) :
    (s.appendBits c).arena = s.arena ∧ (s.appendBits c).nLeaf = s.nLeaf ∧ (s.appendBits c).leafOf = s.leafOf
      ∧ (s.appendBits c).totalW = s.totalW ∧ (s.appendBits c).treeValid = s.treeValid
      ∧ (s.appendBits c).root = s.root ∧ (s.appendBits c).pq = s.pq ∧ (s.appendBits c).seqCtr = s.seqCtr
      ∧ (s.appendBits c).tbState = s.tbState ∧ (s.appendBits c).seedI = s.seedI ∧ (s.appendBits c).tbA = s.tbA
      ∧ (s.appendBits c).tbB = s.tbB ∧ (s.appendBits c).ct = s.ct ∧ (s.appendBits c).ctValid = s.ctValid
      ∧ (s.appendBits c).stk = s.stk ∧ (s.appendBits c).cgState = s.cgState ∧ (s.appendBits c).sI = s.sI
      ∧ (s.appendBits c).count = s.count ∧ (s.appendBits c).bitbuf = s.bitbuf ++ c
      ∧ (s.appendBits c).outbuf = s.outbuf ∧ (s.appendBits c).decDone = s.decDone
      ∧ (s.appendBits c).cursor = s.cursor ∧ (s.appendBits c).rdPtr = s.rdPtr ∧ (s.appendBits c).deState = s.deState
      ∧ (s.appendBits c).lenient = s.lenient ∧ (s.appendBits c).err = s.err
      ∧ (s.appendBits c).cfgLenient = s.cfgLenient ∧ (s.appendBits c).resp = s.resp
      ∧ (s.appendBits c).input = s.input ∧ (s.appendBits c).params = s.params ∧ (s.appendBits c).freeCtr = s.freeCtr := by
  repeat' constructor

/-- `emptyOutput` writes the output buffer alone. -/
@[simp] theorem emptyOutput_fields (s : State) :
    (s.emptyOutput).arena = s.arena ∧ (s.emptyOutput).nLeaf = s.nLeaf ∧ (s.emptyOutput).leafOf = s.leafOf
      ∧ (s.emptyOutput).totalW = s.totalW ∧ (s.emptyOutput).treeValid = s.treeValid ∧ (s.emptyOutput).root = s.root
      ∧ (s.emptyOutput).pq = s.pq ∧ (s.emptyOutput).seqCtr = s.seqCtr ∧ (s.emptyOutput).tbState = s.tbState
      ∧ (s.emptyOutput).seedI = s.seedI ∧ (s.emptyOutput).tbA = s.tbA ∧ (s.emptyOutput).tbB = s.tbB
      ∧ (s.emptyOutput).ct = s.ct ∧ (s.emptyOutput).ctValid = s.ctValid ∧ (s.emptyOutput).stk = s.stk
      ∧ (s.emptyOutput).cgState = s.cgState ∧ (s.emptyOutput).sI = s.sI ∧ (s.emptyOutput).count = s.count
      ∧ (s.emptyOutput).bitbuf = s.bitbuf ∧ (s.emptyOutput).outbuf = [] ∧ (s.emptyOutput).decDone = false
      ∧ (s.emptyOutput).cursor = s.cursor ∧ (s.emptyOutput).rdPtr = s.rdPtr ∧ (s.emptyOutput).deState = s.deState
      ∧ (s.emptyOutput).lenient = s.lenient ∧ (s.emptyOutput).err = s.err ∧ (s.emptyOutput).cfgLenient = s.cfgLenient
      ∧ (s.emptyOutput).resp = s.resp ∧ (s.emptyOutput).input = s.input ∧ (s.emptyOutput).params = s.params
      ∧ (s.emptyOutput).freeCtr = s.freeCtr := by
  repeat' constructor

end Sys2Proof.Machine
end

