-- ==== Sys2Proof/Laws/Ops.lean ====
section
/-! SUPPORT. What each shared operation does, said once: the indexed spaces read after a write, the queue, the error codes,
and reset. -/

namespace Sys2Proof.Machine

/-! ## Error codes (R180) -/

theorem errCode_bounds (e : Err) : 1 ≤ (errCode e).toNat ∧ (errCode e).toNat ≤ 12 := by cases e <;> decide

theorem errCode_ne_zero (e : Err) : errCode e ≠ 0#8 := by cases e <;> decide

theorem errCode_injective {e f : Err} (h : errCode e = errCode f) : e = f := by
  revert h; cases e <;> cases f <;> decide

/-- The ERR bit of an error is none of the reserved bits (R42). -/
theorem errBit_not_reserved (e : Err) : errBit e &&& 0xFFFFE001#32 = 0#32 := by cases e <;> decide

/-- The twelve ERR bits (R42, R180). -/
theorem errBit_values :
    errBit .invalidInput = 0x002#32 ∧ errBit .malformedBit = 0x004#32 ∧ errBit .unmappedSymbol = 0x008#32
      ∧ errBit .truncated = 0x010#32 ∧ errBit .badState = 0x020#32 ∧ errBit .illegalCommand = 0x040#32
      ∧ errBit .badIndex = 0x080#32 ∧ errBit .weightOverflow = 0x100#32 ∧ errBit .bufferOverflow = 0x200#32
      ∧ errBit .outOverflow = 0x400#32 ∧ errBit .duplicateSymbol = 0x800#32 ∧ errBit .invalidWeight = 0x1000#32 :=
  ⟨rfl, rfl, rfl, rfl, rfl, rfl, rfl, rfl, rfl, rfl, rfl, rfl⟩

/-! ## The arena (R21, R22) -/

theorem nodeAt_of_lt {a : List Node} {i : NodeId} (h : i.toNat < a.length) : nodeAt a i = a[i.toNat] := by
  simp [nodeAt, List.getD, h]

/-- An append leaves every record that was there. -/
theorem nodeAt_append_of_lt {a : List Node} {i : NodeId} (n : Node) (h : i.toNat < a.length) :
    nodeAt (a ++ [n]) i = nodeAt a i := by
  rw [nodeAt_of_lt h, nodeAt_of_lt (by simp; omega), List.getElem_append_left h]

/-- The appended record has the identifier `n_node` had. -/
theorem nodeAt_append_self {a : List Node} {i : NodeId} (n : Node) (h : i.toNat = a.length) :
    nodeAt (a ++ [n]) i = n := by
  rw [nodeAt_of_lt (by simp; omega)]
  simp [h]

theorem node_addNode_of_lt (s : State) (n : Node) {i : NodeId} (h : i.toNat < s.arena.length) :
    (s.addNode n).node i = s.node i := nodeAt_append_of_lt n h

theorem node_addNode_self (s : State) (n : Node) (h : s.arena.length < 512) : (s.addNode n).node s.nNode = n :=
  nodeAt_append_self n (by simp [State.nNode]; omega)

/-- `bumpLeaf` adds 1 to the weight of one record (R110). -/
theorem node_bumpLeaf_self (s : State) {i : NodeId} (h : i.toNat < s.arena.length) :
    (s.bumpLeaf i).node i = { s.node i with weight := (s.node i).weight + 1#32 } := by
  have h' : i.toNat < (s.bumpLeaf i).arena.length := by simpa using h
  rw [State.node, State.node, nodeAt_of_lt h', nodeAt_of_lt h]
  simp

/-- `bumpLeaf` leaves every other record. -/
theorem node_bumpLeaf_of_ne (s : State) {i j : NodeId} (h : j ≠ i) : (s.bumpLeaf i).node j = s.node j := by
  have hne : i.toNat ≠ j.toNat := fun hc => h (BitVec.eq_of_toNat_eq hc.symm)
  simp [State.node, nodeAt, List.getD, hne]

/-! ## The leaf index and the code table (R23, R30) -/

@[simp] theorem leafOfSym_setLeafOf_self (s : State) (x : Sym) (i : NodeId) : (s.setLeafOf x i).leafOfSym x = i := by
  simp [State.leafOfSym, State.setLeafOf]

theorem leafOfSym_setLeafOf_of_ne (s : State) {x y : Sym} (i : NodeId) (h : y ≠ x) :
    (s.setLeafOf x i).leafOfSym y = s.leafOfSym y := by
  have hne : x.toNat ≠ y.toNat := fun hc => h (BitVec.eq_of_toNat_eq hc.symm)
  simp [State.leafOfSym, State.setLeafOf, hne]

@[simp] theorem codeOf_setCode_self (s : State) (x : Sym) (c : BitSeq) : (s.setCode x c).codeOf x = some c := by
  simp [State.codeOf, State.setCode]

theorem codeOf_setCode_of_ne (s : State) {x y : Sym} (c : BitSeq) (h : y ≠ x) :
    (s.setCode x c).codeOf y = s.codeOf y := by
  have hne : x.toNat ≠ y.toNat := fun hc => h (BitVec.eq_of_toNat_eq hc.symm)
  simp [State.codeOf, State.setCode, hne]

theorem leafOfSym_setLeafOf (s : State) (x y : Sym) (i : NodeId) :
    (s.setLeafOf x i).leafOfSym y = if y = x then i else s.leafOfSym y := by
  split
  · subst y; exact leafOfSym_setLeafOf_self s x i
  · exact leafOfSym_setLeafOf_of_ne s i ‹_›

theorem codeOf_setCode (s : State) (x y : Sym) (c : BitSeq) :
    (s.setCode x c).codeOf y = if y = x then some c else s.codeOf y := by
  split
  · subst y; exact codeOf_setCode_self s x c
  · exact codeOf_setCode_of_ne s c ‹_›

@[simp] theorem codeOf_clearTable (s : State) (x : Sym) : s.clearTable.codeOf x = none := by
  simp [State.codeOf, State.clearTable]

/-! ## The queue (R121, R122) -/

@[simp] theorem pqInsert_length (e : PqEntry) (q : List PqEntry) : (pqInsert e q).length = q.length + 1 := by
  have h : q.countP (fun f => entryBefore f e) ≤ q.length := List.countP_le_length
  simp [pqInsert]
  omega

theorem mem_pqInsert {e f : PqEntry} {q : List PqEntry} : f ∈ pqInsert e q ↔ f = e ∨ f ∈ q := by
  have h : f ∈ q ↔ f ∈ q.take (q.countP (fun f => entryBefore f e)) ∨ f ∈ q.drop (q.countP (fun f => entryBefore f e)) := by
    rw [← List.mem_append, List.take_append_drop]
  rw [h, pqInsert]
  simp only [List.mem_append, List.mem_cons]
  tauto

theorem pqPopMin_eq_some {q r : List PqEntry} {e : PqEntry} : pqPopMin q = some (e, r) ↔ q = e :: r := by
  cases q <;> simp [pqPopMin]

theorem pqPopMin_eq_none {q : List PqEntry} : pqPopMin q = none ↔ q = [] := by
  cases q <;> simp [pqPopMin]

/-! ## Reset (R50, R200) -/

@[simp] theorem leafOfSym_reset (x : Sym) : State.reset.leafOfSym x = nil9 := by
  simp [State.leafOfSym, State.reset]

@[simp] theorem codeOf_reset (x : Sym) : State.reset.codeOf x = none := by
  simp [State.codeOf, State.reset]

@[simp] theorem leafOfSym_hardReset (s : State) (x : Sym) : (hardReset s).leafOfSym x = nil9 := leafOfSym_reset x

@[simp] theorem codeOf_hardReset (s : State) (x : Sym) : (hardReset s).codeOf x = none := codeOf_reset x

end Sys2Proof.Machine
end

