-- ==== Sys2Proof/Laws/Builder.lean ====
section
/-! SUPPORT. What seeding and merging can change, and how long the queue and the arena are after them (R124). -/

namespace Sys2Proof.Machine

/-- Seeding changes the queue and the insertion counter alone. -/
theorem seedLeaves_frame (k i : Nat) (s : State) :
    seedLeaves k i s = { s with pq := (seedLeaves k i s).pq, seqCtr := (seedLeaves k i s).seqCtr } := by
  induction k generalizing i s with
  | zero => rfl
  | succ k ih =>
    rw [seedLeaves]
    generalize hu : seedLeaf (BitVec.ofNat 9 i) s = u
    rw [ih (i + 1) u]
    subst hu
    rfl

/-- Seeding `k` leaves puts `k` entries into the queue. -/
theorem seedLeaves_pq_length (k i : Nat) (s : State) : (seedLeaves k i s).pq.length = s.pq.length + k := by
  induction k generalizing i s with
  | zero => rfl
  | succ k ih => simp [seedLeaves, ih, seedLeaf]; omega

/-- One merge appends one record and puts one entry back. -/
theorem mergeNodes_fields (a b : PqEntry) (s : State) :
    (mergeNodes a b s).arena = s.arena ++ [⟨false, 0#8, a.weight + b.weight, a.id, b.id⟩]
      ∧ (mergeNodes a b s).pq = pqInsert ⟨a.weight + b.weight, s.seqCtr, s.nNode⟩ s.pq
      ∧ (mergeNodes a b s).seqCtr = s.seqCtr + 1#9 := by
  simp [mergeNodes]

/-- Merging changes the arena, the queue and the insertion counter alone. -/
theorem mergeLoop_frame (k : Nat) (s : State) :
    mergeLoop k s = { s with
      arena := (mergeLoop k s).arena, pq := (mergeLoop k s).pq, seqCtr := (mergeLoop k s).seqCtr } := by
  induction k generalizing s with
  | zero => rfl
  | succ k ih =>
    rw [mergeLoop]
    split
    · rename_i a b q _
      generalize hu : mergeNodes a b { s with pq := q } = u
      rw [ih u]
      subst hu
      rfl
    · rfl

/-- With as many rounds as the queue is long, merging a queue of `n + 1` entries ends with one entry, `n` records later; the
records that were there stay first. -/
theorem mergeLoop_pq_length (k : Nat) (s : State) (n : Nat) (h : s.pq.length = n + 1) (hk : n ≤ k) :
    (mergeLoop k s).pq.length = 1 ∧ (mergeLoop k s).arena.length = s.arena.length + n
      ∧ s.arena <+: (mergeLoop k s).arena := by
  induction k generalizing s n with
  | zero => exact ⟨by simp [mergeLoop]; omega, by simp [mergeLoop]; omega, List.prefix_refl _⟩
  | succ k ih =>
    rw [mergeLoop]
    split
    · rename_i a b q hq
      obtain ⟨n, rfl⟩ : ∃ m, n = m + 1 := ⟨n - 1, by rw [hq] at h; simp at h; omega⟩
      have hl : (mergeNodes a b { s with pq := q }).pq.length = n + 1 := by
        rw [hq] at h; simpa [(mergeNodes_fields _ _ _).2.1] using h
      obtain ⟨h1, h2, h3⟩ := ih _ n hl (by omega)
      rw [(mergeNodes_fields _ _ _).1] at h2 h3
      exact ⟨h1, by rw [h2]; simp; omega, (List.prefix_append _ _).trans h3⟩
    · rename_i hne
      have : n = 0 := by
        match hq : s.pq with
        | [] => rw [hq] at h; simp at h
        | [e] => rw [hq] at h; simpa using h.symm
        | a :: b :: q => exact absurd hq (hne a b q)
      subst this
      exact ⟨h, by simp, List.prefix_refl _⟩

/-- Seeding and merging change the arena, the queue and the insertion counter alone. -/
theorem growTree_frame (s : State) :
    growTree s = { s with arena := (growTree s).arena, pq := (growTree s).pq, seqCtr := (growTree s).seqCtr } := by
  rw [growTree, mergeLoop_frame, seedLeaves_frame]
  rfl

/-- With at least one leaf the queue ends with one entry, so BUILD never pops from an empty queue (R207). -/
theorem growTree_pq_length (s : State) (h : s.nLeaf ≠ 0#9) :
    (growTree s).pq.length = 1 ∧ (growTree s).arena.length + 1 = s.arena.length + s.nLeaf.toNat
      ∧ s.arena <+: (growTree s).arena := by
  have hpos : s.nLeaf.toNat ≠ 0 := fun hc => h (BitVec.eq_of_toNat_eq (by simpa using hc))
  have ha : (seedLeaves s.nLeaf.toNat 0 s.emptyQueue).arena = s.arena := by rw [seedLeaves_frame]; rfl
  have hl := seedLeaves_pq_length s.nLeaf.toNat 0 s.emptyQueue
  obtain ⟨h1, h2, h3⟩ := mergeLoop_pq_length s.nLeaf.toNat (seedLeaves s.nLeaf.toNat 0 s.emptyQueue)
    (s.nLeaf.toNat - 1) (by rw [hl]; simp; omega) (by omega)
  rw [ha] at h2 h3
  exact ⟨h1, by rw [growTree, h2]; omega, h3⟩

end Sys2Proof.Machine
end

