-- ==== Sys2Proof/Laws/CodeGen.lean ====
section
/-! SUPPORT. What the traversal can change (R140). -/

namespace Sys2Proof.Machine

/-- A visit changes the table, the stack and the count alone. -/
theorem visitNode_frame (e : StkEntry) (rest : List StkEntry) (s : State) :
    visitNode e rest s = { s with
      ct := (visitNode e rest s).ct, stk := (visitNode e rest s).stk, count := (visitNode e rest s).count } := by
  unfold visitNode
  dsimp only
  split <;> rfl

theorem visitNode_leaf {e : StkEntry} {rest : List StkEntry} {s : State} (h : (s.node e.id).leaf = true) :
    visitNode e rest s = { s.setCode (s.node e.id).sym e.path with stk := rest, count := s.count + 1#9 } := by
  simp [visitNode, h]

theorem visitNode_internal {e : StkEntry} {rest : List StkEntry} {s : State} (h : (s.node e.id).leaf = false) :
    visitNode e rest s = { s with
      stk := ⟨(s.node e.id).left, e.path ++ [false]⟩ :: ⟨(s.node e.id).right, e.path ++ [true]⟩ :: rest } := by
  simp [visitNode, h]

theorem walkTree_nil {k : Nat} {s : State} (h : s.stk = []) : walkTree k s = some s := by
  unfold walkTree
  split
  · rfl
  · simp_all

theorem walkTree_cons {k : Nat} {s : State} {e : StkEntry} {rest : List StkEntry} (h : s.stk = e :: rest) :
    walkTree (k + 1) s = walkTree k (visitNode e rest s) := by
  rw [walkTree.eq_def]
  simp [h]

/-- A walk that ends has emptied the stack and changed the table, the stack and the count alone. -/
theorem walkTree_frame {k : Nat} {s t : State} (h : walkTree k s = some t) :
    t = { s with ct := t.ct, stk := [], count := t.count } := by
  induction k generalizing s with
  | zero =>
    match hs : s.stk with
    | [] =>
      rw [walkTree_nil hs] at h
      cases h
      rw [← hs]
    | e :: rest =>
      rw [walkTree.eq_def] at h
      simp [hs] at h
  | succ k ih =>
    match hs : s.stk with
    | [] =>
      rw [walkTree_nil hs] at h
      cases h
      rw [← hs]
    | e :: rest =>
      rw [walkTree_cons hs] at h
      rw [ih h, visitNode_frame]

end Sys2Proof.Machine
end

