-- ==== Sys2Proof/Laws/Decode.lean ====
section
/-! SUPPORT. The bits and the fields of an assembled word (R81, R82). -/

namespace Sys2Proof

/-- The bits of a word of formats Z, A, AB. -/
theorem wordAB_bit (op a : BitVec 8) (b : BitVec 16) (i : Nat) : (wordAB op a b).getLsbD i =
    if i < 16 then b.getLsbD i else if i - 16 < 8 then a.getLsbD (i - 16) else op.getLsbD (i - 16 - 8) := by
  have h : (wordAB op a b).getLsbD i = ((op ++ a) ++ b).getLsbD i := rfl
  rw [h, BitVec.getLsbD_append, BitVec.getLsbD_append]

/-- The bits of a word of format X. -/
theorem wordX_bit (op : BitVec 8) (x : BitVec 24) (i : Nat) : (wordX op x).getLsbD i =
    if i < 24 then x.getLsbD i else op.getLsbD (i - 24) := by
  have h : (wordX op x).getLsbD i = (op ++ x).getLsbD i := rfl
  rw [h, BitVec.getLsbD_append]

theorem opField_bit (w : Word) (i : Nat) : (opField w).getLsbD i = (decide (i < 8) && w.getLsbD (24 + i)) := by
  simp [opField]

theorem aField_bit (w : Word) (i : Nat) : (aField w).getLsbD i = (decide (i < 8) && w.getLsbD (16 + i)) := by
  simp [aField]

theorem bField_bit (w : Word) (i : Nat) : (bField w).getLsbD i = (decide (i < 16) && w.getLsbD i) := by
  simp [bField]

theorem xField_bit (w : Word) (i : Nat) : (xField w).getLsbD i = (decide (i < 24) && w.getLsbD i) := by
  simp [xField]

@[simp] theorem opField_wordAB (op a : BitVec 8) (b : BitVec 16) : opField (wordAB op a b) = op := by
  apply BitVec.eq_of_getLsbD_eq
  intro i h
  rw [opField_bit, wordAB_bit, if_neg (by omega), if_neg (by omega), show 24 + i - 16 - 8 = i by omega]
  simp only [h, decide_true, Bool.true_and]

@[simp] theorem aField_wordAB (op a : BitVec 8) (b : BitVec 16) : aField (wordAB op a b) = a := by
  apply BitVec.eq_of_getLsbD_eq
  intro i h
  rw [aField_bit, wordAB_bit, if_neg (by omega), if_pos (by omega), show 16 + i - 16 = i by omega]
  simp only [h, decide_true, Bool.true_and]

@[simp] theorem bField_wordAB (op a : BitVec 8) (b : BitVec 16) : bField (wordAB op a b) = b := by
  apply BitVec.eq_of_getLsbD_eq
  intro i h
  rw [bField_bit, wordAB_bit, if_pos h]
  simp only [h, decide_true, Bool.true_and]

@[simp] theorem xField_wordAB_zero (op : BitVec 8) : xField (wordAB op 0#8 0#16) = 0#24 := by
  apply BitVec.eq_of_getLsbD_eq
  intro i h
  rw [xField_bit, wordAB_bit]
  by_cases h16 : i < 16
  · simp [h16]
  · simp [h16, show i - 16 < 8 by omega]

@[simp] theorem opField_wordX (op : BitVec 8) (x : BitVec 24) : opField (wordX op x) = op := by
  apply BitVec.eq_of_getLsbD_eq
  intro i h
  rw [opField_bit, wordX_bit, if_neg (by omega), show 24 + i - 24 = i by omega]
  simp only [h, decide_true, Bool.true_and]

@[simp] theorem xField_wordX (op : BitVec 8) (x : BitVec 24) : xField (wordX op x) = x := by
  apply BitVec.eq_of_getLsbD_eq
  intro i h
  rw [xField_bit, wordX_bit, if_pos h]
  simp only [h, decide_true, Bool.true_and]

/-- A word is put together from its opcode and its 24 operand bits (R81). -/
theorem wordX_opField_xField (w : Word) : wordX (opField w) (xField w) = w := by
  apply BitVec.eq_of_getLsbD_eq
  intro i h
  rw [wordX_bit, xField_bit, opField_bit]
  by_cases h24 : i < 24
  · simp only [h24, if_true, decide_true, Bool.true_and]
  · simp only [h24, if_false, show i - 24 < 8 by omega, show 24 + (i - 24) = i by omega, decide_true, Bool.true_and]

/-- A word is put together from its opcode and its two operand fields (R81). -/
theorem wordAB_fields (w : Word) : wordAB (opField w) (aField w) (bField w) = w := by
  apply BitVec.eq_of_getLsbD_eq
  intro i h
  rw [wordAB_bit, bField_bit, aField_bit, opField_bit]
  by_cases h16 : i < 16
  · simp only [h16, if_true, decide_true, Bool.true_and]
  · by_cases h24 : i - 16 < 8
    · simp only [h16, h24, if_true, if_false, show 16 + (i - 16) = i by omega, decide_true, Bool.true_and]
    · simp only [h16, h24, if_false, show i - 16 - 8 < 8 by omega, show 24 + (i - 16 - 8) = i by omega, decide_true,
        Bool.true_and]

end Sys2Proof
end

