-- ==== Sys2Proof/Laws/Decoder.lean ====
section
/-! SUPPORT. What the walk over the bits can change (R160 to R165). -/

namespace Sys2Proof.Machine

/-- What a step may write before the read pointer moves: the output buffer and the cursor. -/
def WalkFrame (s t : State) : Prop := t = { s with outbuf := t.outbuf, cursor := t.cursor }

theorem emit_ok {x : Sym} {s t : State} (h : emit x s = .ok t) :
    s.outbuf.length ≠ s.params.outCap ∧ t = { s with outbuf := s.outbuf ++ [x] } := by
  unfold emit at h
  split at h
  · cases h
  · exact ⟨‹_›, by cases h; rfl⟩

theorem emit_error {x : Sym} {s : State} {e : Err} (h : emit x s = .error e) :
    s.outbuf.length = s.params.outCap ∧ e = .outOverflow := by
  unfold emit at h
  split at h
  · exact ⟨‹_›, by cases h; rfl⟩
  · cases h

theorem missingChild_ok {s t : State} (h : missingChild s = .ok t) : s.lenient = true ∧ t = s := by
  unfold missingChild at h
  split at h
  · exact ⟨‹_›, by cases h; rfl⟩
  · cases h

theorem missingChild_error {s : State} {e : Err} (h : missingChild s = .error e) :
    s.lenient = false ∧ e = .malformedBit := by
  unfold missingChild at h
  split at h
  · cases h
  · rename_i hs
    exact ⟨by simpa using hs, by cases h; rfl⟩

theorem moveTo_ok {c : NodeId} {s t : State} (h : moveTo c s = .ok t) : WalkFrame s t := by
  unfold moveTo at h
  split at h
  · split at h
    · rename_i u hu
      cases h
      rw [(emit_ok hu).2]
      rfl
    · cases h
  · cases h
    rfl

/-- One step of the walk: it ends with the read pointer moved and, besides, only the output buffer and the cursor
written; or it fails with MalformedBit (strict mode) or OutOverflow. -/
theorem stepBit_ok {v : Bool} {s t : State} (h : stepBit v s = .ok t) :
    t = { s with outbuf := t.outbuf, cursor := t.cursor, rdPtr := s.rdPtr + 1#25 } := by
  unfold stepBit at h
  split at h
  · rename_i u hu
    cases h
    have hf : WalkFrame s u := by
      split at hu
      · unfold stepLeaf at hu
        split at hu
        · rw [(missingChild_ok hu).2]; rfl
        · rw [(emit_ok hu).2]; rfl
      · unfold stepInternal at hu
        split at hu
        · rw [(missingChild_ok hu).2]; rfl
        · exact moveTo_ok hu
    rw [WalkFrame] at hf
    rw [hf]
  · cases h

theorem stepBit_error {v : Bool} {s : State} {e : Err} (h : stepBit v s = .error e) :
    (e = .malformedBit ∧ s.lenient = false) ∨ e = .outOverflow := by
  unfold stepBit at h
  split at h
  · cases h
  · rename_i f hf
    cases h
    split at hf
    · unfold stepLeaf at hf
      split at hf
      · exact .inl ⟨(missingChild_error hf).2, (missingChild_error hf).1⟩
      · exact .inr (emit_error hf).2
    · unfold stepInternal at hf
      split at hf
      · exact .inl ⟨(missingChild_error hf).2, (missingChild_error hf).1⟩
      · unfold moveTo at hf
        split at hf
        · split at hf
          · cases hf
          · rename_i g hg
            cases hf
            exact .inr (emit_error hg).2
        · cases hf

/-- A walk that ends has written the output buffer, the cursor and the read pointer alone. -/
theorem walkBits_ok {vs : BitSeq} {s t : State} (h : walkBits vs s = .ok t) :
    t = { s with outbuf := t.outbuf, cursor := t.cursor, rdPtr := t.rdPtr } := by
  induction vs generalizing s with
  | nil => cases h; rfl
  | cons v vs ih =>
    rw [walkBits] at h
    split at h
    · rename_i u hu
      rw [ih h, stepBit_ok hu]
    · cases h

/-- A walk that fails fails with MalformedBit or OutOverflow. -/
theorem walkBits_error {vs : BitSeq} {s : State} {e : Err} {d : Word} (h : walkBits vs s = .error (e, d)) :
    e = .malformedBit ∨ e = .outOverflow := by
  induction vs generalizing s with
  | nil => cases h
  | cons v vs ih =>
    rw [walkBits] at h
    split at h
    · exact ih h
    · rename_i f hf
      cases h
      exact (stepBit_error hf).imp (·.1) id

/-- The walk over two pieces is the walk over the first and then over the second. -/
theorem walkBits_append (us vs : BitSeq) (s : State) :
    walkBits (us ++ vs) s = (match walkBits us s with
      | .ok t => walkBits vs t
      | .error p => .error p) := by
  induction us generalizing s with
  | nil => rfl
  | cons u us ih =>
    rw [List.cons_append, walkBits, walkBits]
    split
    · exact ih _
    · rfl

end Sys2Proof.Machine
end

