-- ==== Sys2Proof/Laws/PerInstr.lean ====
section
/-! SUPPORT. Facts about every command as a term, one lemma per constructor. -/

namespace Sys2Proof.Laws

/-- The family EncodeMatchesRow (R87): the word of a well-formed command satisfies its row's mask and match. -/
def EncodeMatchesRow.Statement (i : Instr) : Prop := i.WellFormed = true → i.row.accepts (encode i) = true

/-- A word of formats Z, A and AB under a mask, field by field. -/
theorem wordAB_and (op a mop ma : BitVec 8) (b mb : BitVec 16) :
    wordAB op a b &&& wordAB mop ma mb = wordAB (op &&& mop) (a &&& ma) (b &&& mb) := by
  apply BitVec.eq_of_getLsbD_eq
  intro i _
  simp only [BitVec.getLsbD_and, wordAB_bit]
  split
  · rfl
  · split <;> rfl

/-- A word of format X under a mask, field by field. -/
theorem wordX_and (op mop : BitVec 8) (x mx : BitVec 24) :
    wordX op x &&& wordX mop mx = wordX (op &&& mop) (x &&& mx) := by
  apply BitVec.eq_of_getLsbD_eq
  intro i _
  simp only [BitVec.getLsbD_and, wordX_bit]
  split <;> rfl

theorem and_ones (op : BitVec 8) : op &&& 0xFF#8 = op := BitVec.and_allOnes

/-- A field used whole, under the mask that ignores it. -/
theorem accepts_AB (m : String) (op : BitVec 8) (a : BitVec 8) (b : BitVec 16) :
    OpcodeRow.accepts ⟨m, wordAB op 0#8 0#16, wordAB 0xFF#8 0#8 0#16⟩ (wordAB op a b) = true := by
  simp [OpcodeRow.accepts, wordAB_and, and_ones]

/-- Format A: `a` ignored, `b` zero. -/
theorem accepts_A (m : String) (op : BitVec 8) (a : BitVec 8) :
    OpcodeRow.accepts ⟨m, wordAB op 0#8 0#16, wordAB 0xFF#8 0#8 0xFFFF#16⟩ (wordAB op a 0#16) = true := by
  simp [OpcodeRow.accepts, wordAB_and, and_ones]

/-- Format X: `x` ignored. -/
theorem accepts_X (m : String) (op : BitVec 8) (x : BitVec 24) :
    OpcodeRow.accepts ⟨m, wordX op 0#24, wordX 0xFF#8 0#24⟩ (wordX op x) = true := by
  simp [OpcodeRow.accepts, wordX_and, and_ones]

theorem EncodeMatchesRow.nop : EncodeMatchesRow.Statement .nop := fun _ => by decide
theorem EncodeMatchesRow.clr : EncodeMatchesRow.Statement .clr := fun _ => by decide
theorem EncodeMatchesRow.rdcsr (n : BitVec 8) : EncodeMatchesRow.Statement (.rdcsr n) := fun _ => accepts_A _ 0x02#8 n
theorem EncodeMatchesRow.wrcsr (n : BitVec 8) (v : BitVec 16) : EncodeMatchesRow.Statement (.wrcsr n v) :=
  fun _ => accepts_AB _ 0x03#8 n v
theorem EncodeMatchesRow.tally (x : Sym) : EncodeMatchesRow.Statement (.tally x) := fun _ => accepts_A _ 0x10#8 x
theorem EncodeMatchesRow.leaf (x : Sym) (w : BitVec 16) : EncodeMatchesRow.Statement (.leaf x w) :=
  fun _ => accepts_AB _ 0x11#8 x w
theorem EncodeMatchesRow.build : EncodeMatchesRow.Statement .build := fun _ => by decide
theorem EncodeMatchesRow.rdnode (f : BitVec 8) (k : BitVec 16) : EncodeMatchesRow.Statement (.rdnode f k) := by
  intro h
  have hf : f ≤ 3#8 := by simpa [Instr.WellFormed] using h
  have hm : ∀ g : BitVec 8, g ≤ 3#8 → g &&& 0xFC#8 = 0#8 := by decide
  have key : wordAB 0x13#8 f k &&& wordAB 0xFF#8 0xFC#8 0#16 = wordAB 0x13#8 0#8 0#16 := by
    rw [wordAB_and, hm f hf]; simp
  exact decide_eq_true key
theorem EncodeMatchesRow.gen : EncodeMatchesRow.Statement .gen := fun _ => by decide
theorem EncodeMatchesRow.rdlen (x : Sym) : EncodeMatchesRow.Statement (.rdlen x) := fun _ => accepts_A _ 0x21#8 x
theorem EncodeMatchesRow.rdcbit (x : Sym) (k : BitVec 16) : EncodeMatchesRow.Statement (.rdcbit x k) :=
  fun _ => accepts_AB _ 0x22#8 x k
theorem EncodeMatchesRow.enc (x : Sym) : EncodeMatchesRow.Statement (.enc x) := fun _ => accepts_A _ 0x30#8 x
theorem EncodeMatchesRow.pushbit (x : BitVec 24) : EncodeMatchesRow.Statement (.pushbit x) := by
  intro h
  have hx : x ≤ 1#24 := by simpa [Instr.WellFormed] using h
  have hc : x = 0#24 ∨ x = 1#24 := by bv_omega
  rcases hc with rfl | rfl <;> decide
theorem EncodeMatchesRow.clrbits : EncodeMatchesRow.Statement .clrbits := fun _ => by decide
theorem EncodeMatchesRow.rdbit (k : BitVec 24) : EncodeMatchesRow.Statement (.rdbit k) := fun _ => accepts_X _ 0x33#8 k
theorem EncodeMatchesRow.decode : EncodeMatchesRow.Statement .decode := fun _ => by decide
theorem EncodeMatchesRow.rdout (k : BitVec 24) : EncodeMatchesRow.Statement (.rdout k) := fun _ => accepts_X _ 0x41#8 k

end Sys2Proof.Laws
end

