-- ==== Sys2Proof/Laws/Safety.lean ====
section
/-! SUPPORT. What paths, codes and the invariant depend on: a state with the same tree has the same paths. -/

namespace Sys2Proof.Machine

theorem node_congr {s t : State} (h : t.arena = s.arena) (i : NodeId) : t.node i = s.node i := by
  simp [State.node, h]

/-- Paths depend on the arena alone. -/
theorem follow_congr {s t : State} (h : t.arena = s.arena) (i : NodeId) (p : BitSeq) : t.follow i p = s.follow i p := by
  induction p generalizing i with
  | nil => rfl
  | cons v p ih => simp [State.follow, node_congr h, ih]

/-- A path in two parts. -/
theorem follow_append (s : State) (i : NodeId) (p q : BitSeq) :
    s.follow i (p ++ q) = (s.follow i p).bind (fun j => s.follow j q) := by
  induction p generalizing i with
  | nil => rfl
  | cons v p ih =>
    simp only [List.cons_append, State.follow]
    split
    · rfl
    · exact ih _

theorem isCode_congr {s t : State} (h : t.arena = s.arena) (hr : t.root = s.root) (i : NodeId) (c : BitSeq) :
    t.IsCode i c ↔ s.IsCode i c := by
  simp [State.IsCode, node_congr h, follow_congr h, h, hr]

theorem codeOf_congr {s t : State} (h : t.ct = s.ct) (x : Sym) : t.codeOf x = s.codeOf x := by
  simp [State.codeOf, h]

theorem leafOfSym_congr {s t : State} (h : t.leafOf = s.leafOf) (x : Sym) : t.leafOfSym x = s.leafOfSym x := by
  simp [State.leafOfSym, h]

/-- The invariant speaks of the tree, the table, the buffers and the control registers only. -/
theorem inv_congr {s t : State} (h : s.Inv) (tree : SameTree s t) (table : SameTable s t) (builder : SameBuilder s t)
    (walker : SameWalker s t) (decoder : SameDecoder s t) (err : t.ErrReserved) (fit : t.BuffersFit) : t.Inv := by
  obtain ⟨ha, hn, hl, hw, hv, hr⟩ := tree
  obtain ⟨hc, hcv⟩ := table
  obtain ⟨hq, hs, htb, -, -, -⟩ := builder
  obtain ⟨hst, hcg, -, -⟩ := walker
  obtain ⟨hcu, -, hde, -⟩ := decoder
  have hnode := node_congr ha
  have hleaf := leafOfSym_congr hl
  have hcode := codeOf_congr hc
  have hfollow := follow_congr ha
  obtain ⟨h1, -, -, h4, h5, h6, h7⟩ := h
  refine ⟨?_, err, fit, ?_, ?_, ?_, ?_⟩
  · simpa [State.MachinesIdle, htb, hcg, hde, hq, hst, hcu, hr] using h1
  · simpa [State.LeavesFirst, hn, ha, hw] using h4
  · simpa [State.LeafIndexed, hn, hleaf, hnode] using h5
  · simpa [State.TreeShape, State.InternalAt, State.InternalRecord, State.parentCount, State.nNode, hn, ha, hv, hr, hs, hw,
      hnode] using h6
  · simpa [State.TableHolds, State.EntryFor, hv, hcv, hleaf, hcode, hnode, hr, hfollow] using h7

end Sys2Proof.Machine
end

