-- ==== Sys2Proof/Tests/Slice0.lean ====
section
/-! SUPPORT. Tests: expected values come from spec/95_test_vectors.md (V<n>, P<n>) or from the encoding tables of
spec/30_encoding.md. Witnesses: for each statement with hypotheses, states and operands that meet them. -/

namespace Sys2Proof.Tests

open Sys2Proof Sys2Proof.Machine

-- One theorem after the other: many kernel evaluations at once would each take a thread of its own.
set_option Elab.async false

/-! ## Helpers -/

/-- The outcome is a next state with property `p`. -/
def after (o : Host.Outcome State Fault Refusal) (p : State → Bool) : Bool :=
  match o with
  | .next t => p t
  | .fault _ => false
  | .refused _ => false

theorem after_next {o : Host.Outcome State Fault Refusal} {p : State → Bool} (h : after o p = true) :
    ∃ t, o = .next t ∧ p t = true := by
  cases o with
  | next t => exact ⟨t, rfl, h⟩
  | fault f => cases h
  | refused r => cases h

/-- The outcome is a next state with response (`e`, `d`). -/
def answers (o : Host.Outcome State Fault Refusal) (e : BitVec 8) (d : Word) : Bool :=
  after o (fun t => t.resp == some ⟨e, d⟩)

def leafNode (x : Sym) (w : Weight) : Node := ⟨true, x, w, nil9, nil9⟩

def innerNode (w : Weight) (l r : NodeId) : Node := ⟨false, 0#8, w, l, r⟩

/-- Bits as the spec writes them, the first one leftmost (R10). -/
def bits (t : String) : BitSeq := t.toList.map (fun ch => ch == '1')

/-- The state after V6: A 7, B 3, C 7, D 2, E 6. -/
def leaves5 : State :=
  { State.reset with
    arena := [leafNode 0x41#8 7#32, leafNode 0x42#8 3#32, leafNode 0x43#8 7#32, leafNode 0x44#8 2#32, leafNode 0x45#8 6#32]
    nLeaf := 5#9
    leafOf := (((((State.reset.setLeafOf 0x41#8 0#9).setLeafOf 0x42#8 1#9).setLeafOf 0x43#8 2#9).setLeafOf 0x44#8 3#9).setLeafOf
      0x45#8 4#9).leafOf
    totalW := 25#32 }

/-- The state after V10. -/
def tree5 : State :=
  { leaves5 with
    arena := leaves5.arena ++ [innerNode 5#32 3#9 1#9, innerNode 11#32 5#9 4#9, innerNode 14#32 0#9 2#9, innerNode 25#32 6#9 7#9]
    treeValid := true
    root := 8#9
    cursor := 8#9
    seqCtr := 9#9 }

/-- The state after the first line of V15. -/
def table5 : State :=
  { tree5 with
    ct := (((((State.reset.setCode 0x41#8 (bits "10")).setCode 0x42#8 (bits "001")).setCode 0x43#8 (bits "11")).setCode 0x44#8
      (bits "000")).setCode 0x45#8 (bits "01")).ct
    ctValid := true }

/-- The tree of "AAAA" (V13). -/
def tree1 : State :=
  { State.reset with
    arena := [leafNode 0x41#8 4#32]
    nLeaf := 1#9
    leafOf := (State.reset.setLeafOf 0x41#8 0#9).leafOf
    totalW := 4#32
    treeValid := true
    root := 0#9
    cursor := 0#9
    seqCtr := 1#9 }

/-- The same with its table (V15). -/
def table1 : State := { tree1 with ct := (State.reset.setCode 0x41#8 (bits "0")).ct, ctValid := true }

/-- Four bits and two symbols of buffer (V24). -/
def small (s : State) : State := { s with params := ⟨4, 2, []⟩ }

/-- A total of `w` in one leaf for 0x42, no tree (V7, V9). -/
def heavy (w : Weight) : State :=
  { State.reset with
    arena := [leafNode 0x42#8 w], nLeaf := 1#9, leafOf := (State.reset.setLeafOf 0x42#8 0#9).leafOf, totalW := w }

def sent (w : Word) (s : State) : State := { s with input := [.command w] }

/-! ## Well-formedness and decoding -/

/-- R83, R85: the field selector is at most 3. -/
theorem test_rdnode_selector_4_is_refused : (Instr.rdnode 4#8 0#16).WellFormed = false := by decide

theorem test_rdnode_selector_255_is_refused : (Instr.rdnode 0xFF#8 0#16).WellFormed = false := by decide

/-- R83, R85: PUSHBIT's operand is 0 or 1. -/
theorem test_pushbit_2_is_refused : (Instr.pushbit 2#24).WellFormed = false := by decide

theorem test_pushbit_high_bit_is_refused : (Instr.pushbit 0x800000#24).WellFormed = false := by decide

/-- Format Z: opcode in bits 31 to 24, the rest 0 (R82, R87). -/
theorem test_decode_format_z :
    decode 0b00000000_00000000_0000000000000000#32 = .ok .nop ∧ decode 0b00000001_00000000_0000000000000000#32 = .ok .clr
      ∧ decode 0b00010010_00000000_0000000000000000#32 = .ok .build
      ∧ decode 0b00100000_00000000_0000000000000000#32 = .ok .gen
      ∧ decode 0b00110010_00000000_0000000000000000#32 = .ok .clrbits
      ∧ decode 0b01000000_00000000_0000000000000000#32 = .ok .decode := by decide

/-- Format A: `a` in bits 23 to 16 (R82, R87). -/
theorem test_decode_format_a :
    decode 0b00000010_00000101_0000000000000000#32 = .ok (.rdcsr 5#8)
      ∧ decode 0b00010000_01000001_0000000000000000#32 = .ok (.tally 0x41#8)
      ∧ decode 0b00100001_01000010_0000000000000000#32 = .ok (.rdlen 0x42#8)
      ∧ decode 0b00110000_01011010_0000000000000000#32 = .ok (.enc 0x5A#8) := by decide

/-- Format AB: `a` in bits 23 to 16, `b` in bits 15 to 0 (R82, R87). -/
theorem test_decode_format_ab :
    decode 0b00000011_00000010_1111111111111110#32 = .ok (.wrcsr 2#8 0xFFFE#16)
      ∧ decode 0b00010001_01011010_1111111111111111#32 = .ok (.leaf 0x5A#8 0xFFFF#16)
      ∧ decode 0b00010011_00000011_1000000000000001#32 = .ok (.rdnode 3#8 0x8001#16)
      ∧ decode 0b00100010_01000001_0000000000000010#32 = .ok (.rdcbit 0x41#8 2#16) := by decide

/-- Format X: `x` in bits 23 to 0 (R82, R87). -/
theorem test_decode_format_x :
    decode 0b00110001_000000000000000000000001#32 = .ok (.pushbit 1#24)
      ∧ decode 0b00110011_100000000000000000000001#32 = .ok (.rdbit 0x800001#24)
      ∧ decode 0b01000001_000000010000000000000010#32 = .ok (.rdout 0x010002#24) := by decide

/-- The illegal words of V5. -/
theorem test_illegal_words_of_v5 :
    [0x01000001#32, 0x04000000#32, 0x0F000000#32, 0x10410001#32, 0x12010000#32, 0x13040000#32, 0x14000000#32, 0x1F000000#32,
      0x21420001#32, 0x23000000#32, 0x31000002#32, 0x31000003#32, 0x31010000#32, 0x31800000#32, 0x34000000#32, 0x40000001#32,
      0x42000000#32, 0x80000000#32, 0xFFFFFFFF#32].all (fun w => (decodeTableWord 32 w.toNat).isNone) = true := by decide

/-- Words of P1 to P5, encoded. -/
theorem test_encode_words :
    encode (.leaf 0x43#8 2#16) = 0x11430002#32 ∧ encode (.rdnode 2#8 4#16) = 0x13020004#32
      ∧ encode (.wrcsr 2#8 1#16) = 0x03020001#32 ∧ encode (.pushbit 1#24) = 0x31000001#32
      ∧ encode (.rdout 25#24) = 0x41000019#32 := by decide

/-! ## One step per command -/

/-- V26: NOP leaves ERR, CLR clears it. -/
theorem test_nop_keeps_err :
    after (step (sent 0x00000000#32 { State.reset with err := 0x062#32 }))
      (fun t => t.resp == some ⟨0#8, 0#32⟩ && t.err == 0x062#32) = true := by decide +kernel

theorem test_clr_clears :
    after (step (sent 0x01000000#32 { table5 with err := 0x062#32, cfgLenient := true, bitbuf := bits "110" }))
      (fun t => t.resp == some ⟨0#8, 0#32⟩ && t.err == 0#32 && t.root == 0x1FF#9 && t.arena.isEmpty && t.bitbuf.isEmpty
        && !t.cfgLenient && t.codeOf 0x41#8 == none && t.leafOfSym 0x41#8 == 0x1FF#9) = true := by decide +kernel

/-- V20: STATUS = 0x07 after BUILD, GEN and a successful DECODE. -/
theorem test_rdcsr_status : answers (exec (.rdcsr 0#8) { table5 with decDone := true }) 0#8 0x07#32 = true := by decide +kernel

/-- V3: ROOT reads NIL after reset, CSR 9 is reserved. -/
theorem test_rdcsr_root_and_reserved :
    answers (exec (.rdcsr 5#8) State.reset) 0#8 0x1FF#32 = true
      ∧ after (exec (.rdcsr 9#8) State.reset) (fun t => t.resp == some ⟨6#8, 0#32⟩ && t.err == 0x40#32) = true := by
  decide +kernel

/-- V4. -/
theorem test_wrcsr_cfg_takes_bit_0 :
    after (exec (.wrcsr 2#8 0xFFFE#16) { State.reset with cfgLenient := true }) (fun t => !t.cfgLenient) = true
      ∧ after (exec (.wrcsr 2#8 0xFFFF#16) State.reset) (fun t => t.cfgLenient) = true := by decide +kernel

theorem test_wrcsr_err_sets_bit_6 :
    after (exec (.wrcsr 1#8 0#16) State.reset) (fun t => t.resp == some ⟨6#8, 0#32⟩ && t.err == 0x40#32) = true := by
  decide +kernel

/-- V6: the seventh 'A' and the first 'B'. -/
theorem test_tally_counts_and_allocates :
    after (exec (.tally 0x42#8) leaves5)
        (fun t => t.resp == some ⟨0#8, 1#32⟩ && (t.node 1#9).weight == 4#32 && t.totalW == 26#32 && t.arena.length == 5) = true
      ∧ after (exec (.tally 0x5A#8) leaves5)
        (fun t => t.resp == some ⟨0#8, 5#32⟩ && t.node 5#9 == leafNode 0x5A#8 1#32 && t.nLeaf == 6#9) = true := by
  decide +kernel

/-- V7: the weight limit. -/
theorem test_tally_at_the_weight_limit :
    after (exec (.tally 0x41#8) (heavy 0xFFFFFFFE#32)) (fun t => t.totalW == 0xFFFFFFFF#32) = true
      ∧ after (exec (.tally 0x42#8) (heavy 0xFFFFFFFF#32)) (fun t => t.resp == some ⟨8#8, 0#32⟩ && t.err == 0x100#32) = true := by
  decide +kernel

/-- V9: the sum 0x100000000 is refused, 0xFFFFFFFF is not. -/
theorem test_leaf_at_the_weight_limit :
    answers (exec (.leaf 0x41#8 0xFFFF#16) (heavy 0xFFFF0001#32)) 8#8 0#32 = true
      ∧ after (exec (.leaf 0x41#8 0xFFFE#16) (heavy 0xFFFF0001#32)) (fun t => t.totalW == 0xFFFFFFFF#32) = true := by
  decide +kernel

/-- V9: InvalidWeight before DuplicateSymbol, BadState first. -/
theorem test_leaf_check_order :
    answers (exec (.leaf 0x41#8 0#16) leaves5) 12#8 0#32 = true ∧ answers (exec (.leaf 0x41#8 4#16) leaves5) 11#8 0#32 = true
      ∧ answers (exec (.leaf 0x42#8 0#16) tree5) 5#8 0#32 = true := by decide +kernel

/-- V10. -/
theorem test_build_scenario :
    after (exec .build leaves5) (fun t => t.resp == some ⟨0#8, 8#32⟩ && t.arena == tree5.arena && t.root == 8#9 && t.pq.isEmpty)
      = true := by decide +kernel

/-- V12, the second instance (AABBC): a leaf leaves before an internal node of the same weight. -/
theorem test_build_tie :
    after (exec .build { State.reset with
        arena := [leafNode 0x41#8 2#32, leafNode 0x42#8 2#32, leafNode 0x43#8 1#32], nLeaf := 3#9, totalW := 5#32 })
      (fun t => t.node 3#9 == innerNode 3#32 2#9 0#9 && t.node 4#9 == innerNode 5#32 1#9 3#9) = true := by decide +kernel

/-- V14. -/
theorem test_rdnode_fields :
    answers (exec (.rdnode 0#8 3#16) tree5) 0#8 0x144#32 = true ∧ answers (exec (.rdnode 1#8 8#16) tree5) 0#8 25#32 = true
      ∧ answers (exec (.rdnode 2#8 8#16) tree5) 0#8 6#32 = true ∧ answers (exec (.rdnode 3#8 8#16) tree5) 0#8 7#32 = true
      ∧ answers (exec (.rdnode 2#8 0#16) tree5) 0#8 0x1FF#32 = true := by decide +kernel

theorem test_rdnode_bounds :
    answers (exec (.rdnode 1#8 9#16) tree5) 7#8 0#32 = true ∧ answers (exec (.rdnode 0#8 0x208#16) tree5) 7#8 0#32 = true := by
  decide +kernel

/-- V15. -/
theorem test_gen_scenario :
    after (exec .gen tree5) (fun t => t.resp == some ⟨0#8, 5#32⟩ && t.ctValid
      && [0x41#8, 0x42#8, 0x43#8, 0x44#8, 0x45#8, 0x46#8].map t.codeOf
        == [some (bits "10"), some (bits "001"), some (bits "11"), some (bits "000"), some (bits "01"), none]) = true := by
  decide +kernel

theorem test_gen_degenerate :
    after (exec .gen tree1) (fun t => t.resp == some ⟨0#8, 1#32⟩ && t.codeOf 0x41#8 == some (bits "0")) = true := by
  decide +kernel

/-- V17. -/
theorem test_rdlen :
    answers (exec (.rdlen 0x44#8) table5) 0#8 3#32 = true ∧ answers (exec (.rdlen 0x5A#8) table5) 0#8 0#32 = true := by
  decide +kernel

theorem test_rdcbit :
    answers (exec (.rdcbit 0x42#8 2#16) table5) 0#8 1#32 = true ∧ answers (exec (.rdcbit 0x41#8 2#16) table5) 7#8 0#32 = true
      ∧ answers (exec (.rdcbit 0x5A#8 999#16) table5) 3#8 0#32 = true := by decide +kernel

/-- R150's example. -/
theorem test_enc_appends :
    after (exec (.enc 0x42#8) { table5 with bitbuf := bits "10" })
      (fun t => t.resp == some ⟨0#8, 5#32⟩ && t.bitbuf == bits "10001") = true := by decide +kernel

/-- R150 with BIT_CAP = 4: a code that does not fit is not appended in part. -/
theorem test_enc_full :
    after (exec (.enc 0x42#8) (small { table5 with bitbuf := bits "10" }))
      (fun t => t.resp == some ⟨9#8, 0#32⟩ && t.bitbuf == bits "10") = true := by decide +kernel

/-- V19, V24. -/
theorem test_pushbit :
    after (exec (.pushbit 0#24) { State.reset with bitbuf := bits "1" })
        (fun t => t.resp == some ⟨0#8, 2#32⟩ && t.bitbuf == bits "10") = true
      ∧ answers (exec (.pushbit 0#24) (small { State.reset with bitbuf := bits "0000" })) 9#8 0#32 = true := by decide +kernel

theorem test_clrbits :
    after (exec .clrbits { table5 with bitbuf := bits "10", outbuf := [0x41#8] })
      (fun t => t.resp == some ⟨0#8, 0#32⟩ && t.bitbuf.isEmpty && t.outbuf == [0x41#8]) = true := by decide +kernel

theorem test_rdbit :
    answers (exec (.rdbit 0#24) { State.reset with bitbuf := bits "10" }) 0#8 1#32 = true
      ∧ answers (exec (.rdbit 1#24) { State.reset with bitbuf := bits "10" }) 0#8 0#32 = true
      ∧ answers (exec (.rdbit 2#24) { State.reset with bitbuf := bits "10" }) 7#8 0#32 = true := by decide +kernel

/-- V20 ("0001011" is D, A, C) and V22 ("1000" stops at node 5). -/
theorem test_decode_tree :
    after (exec .decode { tree5 with bitbuf := bits "0001011" })
        (fun t => t.resp == some ⟨0#8, 3#32⟩ && t.outbuf == [0x44#8, 0x41#8, 0x43#8] && t.decDone && t.cursor == 8#9) = true
      ∧ after (exec .decode { tree5 with bitbuf := bits "1000" })
        (fun t => t.resp == some ⟨4#8, 4#32⟩ && t.outbuf.isEmpty && !t.decDone && t.cursor == 8#9) = true := by decide +kernel

/-- V21 ("010" in both modes). -/
theorem test_decode_degenerate :
    answers (exec .decode { tree1 with bitbuf := bits "010" }) 2#8 1#32 = true
      ∧ after (exec .decode { tree1 with bitbuf := bits "010", cfgLenient := true })
        (fun t => t.resp == some ⟨0#8, 2#32⟩ && t.outbuf == [0x41#8, 0x41#8]) = true := by decide +kernel

/-- R166's example. -/
theorem test_rdout :
    answers (exec (.rdout 1#24) { tree5 with outbuf := [0x41#8, 0x42#8] }) 0#8 0x42#32 = true
      ∧ answers (exec (.rdout 2#24) { tree5 with outbuf := [0x41#8, 0x42#8] }) 7#8 0#32 = true := by decide +kernel

/-- V10: the queue of the merge machine after seeding (five leaves, six visits). -/
theorem test_merge_machine_seeds :
    after (runMachine tbBusy tbVisit 6 (tbAccept leaves5))
      (fun t => t.tbState == .pop1
        && t.pq == [⟨2#32, 3#9, 3#9⟩, ⟨3#32, 1#9, 1#9⟩, ⟨6#32, 4#9, 4#9⟩, ⟨7#32, 0#9, 0#9⟩, ⟨7#32, 2#9, 2#9⟩]) = true := by
  decide +kernel

/-- V16: the second visit of the traversal pushes the right child first. -/
theorem test_walk_machine_pushes :
    after (cgVisit { tree5 with cgState := .walk, stk := [⟨8#9, []⟩] })
      (fun t => t.stk == [⟨6#9, bits "0"⟩, ⟨7#9, bits "1"⟩]) = true := by decide +kernel

/-! ## Text (R90, R91) -/

theorem test_assemble_lines :
    assembleLine "WRCSR CFG, 1 ; lenient".toList = some [.wrcsr 2#8 1#16]
      ∧ assembleLine "LEAF 'A', 0x10".toList = some [.leaf 0x41#8 16#16]
      ∧ assembleLine "RDNODE RIGHT, 4".toList = some [.rdnode 3#8 4#16]
      ∧ assembleLine "TALLY 65".toList = some [.tally 0x41#8] ∧ assembleLine "; nothing".toList = some [] := by decide +kernel

theorem test_assemble_pseudo_commands :
    assembleLine "ENCODE \"AB\"".toList
        = some [.clr, .tally 0x41#8, .tally 0x42#8, .build, .gen, .enc 0x41#8, .enc 0x42#8]
      ∧ assemble "PUSHBITS \"10\"\nDECODEBITS \"0\"".toList
        = some [.pushbit 1#24, .pushbit 0#24, .clrbits, .pushbit 0#24, .decode] := by decide +kernel

/-! ## Witnesses: the invariant in five states -/

theorem leaf_index5 (x : Sym) : leaves5.leafOfSym x = if x = 0x45#8 then 4#9 else if x = 0x44#8 then 3#9 else
    if x = 0x43#8 then 2#9 else if x = 0x42#8 then 1#9 else if x = 0x41#8 then 0#9 else nil9 := by
  show State.leafOfSym (State.setLeafOf _ _ _) x = _
  simp only [leafOfSym_setLeafOf, leafOfSym_reset]

theorem code_table5 (x : Sym) : table5.codeOf x = if x = 0x45#8 then some (bits "01") else
    if x = 0x44#8 then some (bits "000") else if x = 0x43#8 then some (bits "11") else
    if x = 0x42#8 then some (bits "001") else if x = 0x41#8 then some (bits "10") else none := by
  show State.codeOf (State.setCode _ _ _) x = _
  simp only [codeOf_setCode, codeOf_reset]

theorem inv_leaves5 : leaves5.Inv := by
  refine ⟨by decide, by decide, by decide, by decide, ⟨?_, fun x => ?_⟩, by decide +kernel, nofun, fun x => ⟨nofun, ?_⟩⟩
  · simp only [leaf_index5]; decide
  · rw [leaf_index5]; split_ifs with h <;> first | exact .inl rfl | (subst x; decide)
  · rw [show leaves5.codeOf x = none from codeOf_reset x]; simp

theorem inv_table5 : table5.Inv := by
  have hl : table5.leafOfSym = leaves5.leafOfSym := rfl
  refine ⟨by decide, by decide, by decide, by decide, ⟨?_, fun x => ?_⟩, by decide +kernel, fun _ => rfl, fun x => ?_⟩
  · simp only [hl, leaf_index5]; decide
  · rw [hl, leaf_index5]; split_ifs with h <;> first | exact .inl rfl | (subst x; decide)
  · simp only [State.EntryFor, hl]; rw [leaf_index5, code_table5]; split_ifs with h <;> (try subst x) <;> decide +kernel

/-- Without its table the tree still meets the invariant. -/
theorem inv_tree5 : tree5.Inv := by
  obtain ⟨h1, h2, h3, h4, h5, h6, -⟩ := inv_table5
  refine ⟨h1, h2, h3, h4, h5, h6, nofun, fun x => ⟨nofun, ?_⟩⟩
  rw [show tree5.codeOf x = none from codeOf_reset x]; simp

theorem leaf_index1 (x : Sym) : table1.leafOfSym x = if x = 0x41#8 then 0#9 else nil9 := by
  show State.leafOfSym (State.setLeafOf _ _ _) x = _
  simp only [leafOfSym_setLeafOf, leafOfSym_reset]

theorem code_table1 (x : Sym) : table1.codeOf x = if x = 0x41#8 then some (bits "0") else none := by
  show State.codeOf (State.setCode _ _ _) x = _
  simp only [codeOf_setCode, codeOf_reset]

theorem inv_table1 : table1.Inv := by
  refine ⟨by decide, by decide, by decide, by decide, ⟨?_, fun x => ?_⟩, by decide +kernel, fun _ => rfl, fun x => ?_⟩
  · simp only [leaf_index1]; decide
  · rw [leaf_index1]; split_ifs with h <;> first | exact .inl rfl | (subst x; decide)
  · simp only [State.EntryFor]; rw [leaf_index1, code_table1]; split_ifs with h <;> (try subst x) <;> decide +kernel

theorem inv_tree1 : tree1.Inv := by
  obtain ⟨h1, h2, h3, h4, h5, h6, -⟩ := inv_table1
  refine ⟨h1, h2, h3, h4, h5, h6, nofun, fun x => ⟨nofun, ?_⟩⟩
  rw [show tree1.codeOf x = none from codeOf_reset x]; simp

/-- The invariant says nothing of the bit buffer beyond its length. -/
theorem inv_bits {s : State} (h : s.Inv) (b : BitSeq) (hb : b.length ≤ s.params.bitCap) : { s with bitbuf := b }.Inv :=
  inv_congr h ⟨rfl, rfl, rfl, rfl, rfl, rfl⟩ ⟨rfl, rfl⟩ ⟨rfl, rfl, rfl, rfl, rfl, rfl⟩ ⟨rfl, rfl, rfl, rfl⟩
    ⟨rfl, rfl, rfl, rfl⟩ h.errReserved ⟨h.buffersFit.1, hb, h.buffersFit.2.2⟩

/-- Nor of CFG. -/
theorem inv_mode {s : State} (h : s.Inv) (b : Bool) : { s with cfgLenient := b }.Inv :=
  inv_congr h ⟨rfl, rfl, rfl, rfl, rfl, rfl⟩ ⟨rfl, rfl⟩ ⟨rfl, rfl, rfl, rfl, rfl, rfl⟩ ⟨rfl, rfl, rfl, rfl⟩
    ⟨rfl, rfl, rfl, rfl⟩ h.errReserved h.buffersFit

/-- Nor of the events to come. -/
theorem inv_sent {s : State} (h : s.Inv) (w : Word) : (sent w s).Inv :=
  inv_congr h ⟨rfl, rfl, rfl, rfl, rfl, rfl⟩ ⟨rfl, rfl⟩ ⟨rfl, rfl, rfl, rfl, rfl, rfl⟩ ⟨rfl, rfl, rfl, rfl⟩
    ⟨rfl, rfl, rfl, rfl⟩ h.errReserved h.buffersFit

/-- Four bits and two symbols of buffer, with the invariant. -/
theorem inv_small {s : State} (h : s.Inv) (hb : s.bitbuf = []) (ho : s.outbuf = []) : (small s).Inv :=
  inv_congr h ⟨rfl, rfl, rfl, rfl, rfl, rfl⟩ ⟨rfl, rfl⟩ ⟨rfl, rfl, rfl, rfl, rfl, rfl⟩ ⟨rfl, rfl, rfl, rfl⟩
    ⟨rfl, rfl, rfl, rfl⟩ h.errReserved
    ⟨by show (⟨4, 2, []⟩ : Params).Wf; decide, by simp [small, hb], by simp [small, ho], fun _ => ho⟩

/-! ## Witnesses: encoding, the step, reset -/

theorem witness_EncodeThenDecodeGivesTheCommand :
    (Instr.rdnode 3#8 0xFFFF#16).WellFormed = true ∧ (Instr.pushbit 1#24).WellFormed = true := by decide

theorem witness_DecodeThenEncodeGivesTheWord : decode 0x1303FFFF#32 = .ok (.rdnode 3#8 0xFFFF#16) := by decide

theorem witness_WordIsACommandExactlyWhenItsRowMatches :
    decode 0x31000001#32 = .ok (.pushbit 1#24) ∧ (Instr.pushbit 0).row ∈ opcodeTable
      ∧ (Instr.pushbit 0).row.accepts 0x31000001#32 = true := by decide

theorem witness_IllegalWordRaisesIllegalCommandOnly_one_row :
    Instr.gen.row ∈ opcodeTable ∧ Instr.gen.row.accepts 0x20000000#32 = true := by decide

theorem witness_IllegalWordRaisesIllegalCommandOnly_no_row :
    (sent 0x31000002#32 tree5).input = [.command 0x31000002#32] ∧ (∀ r ∈ opcodeTable, r.accepts 0x31000002#32 = false)
      ∧ (∀ r ∈ opcodeTable, r.accepts 0x13040000#32 = false) ∧ ∀ r ∈ opcodeTable, r.accepts 0xFFFFFFFF#32 = false := by
  refine ⟨rfl, ?_, ?_, ?_⟩ <;> decide

theorem witness_StepRunsTheDecodedCommand :
    (sent 0x12000000#32 leaves5).input = [.command 0x12000000#32] ∧ decode 0x12000000#32 = .ok .build := ⟨rfl, by decide⟩

theorem witness_StepWithoutAnEventWaits : tree5.input = [] := rfl

theorem witness_ResetAndClrGiveTheResetValues :
    { tree5 with input := [.reset] }.input = [.reset]
      ∧ { tree5 with input := [.abandoned 0x20000000#32] }.input = [.abandoned 0x20000000#32] := ⟨rfl, rfl⟩

theorem witness_EveryStepKeepsTheInvariant :
    (sent 0x12000000#32 leaves5).Inv ∧ (∃ t, step (sent 0x12000000#32 leaves5) = .next t)
      ∧ (sent 0x20000000#32 tree5).Inv ∧ ∃ t, step (sent 0x20000000#32 tree5) = .next t := by
  refine ⟨inv_sent inv_leaves5 _, ?_, inv_sent inv_tree5 _, ?_⟩
  · exact (after_next (p := fun _ => true) (by decide +kernel)).imp fun _ h => h.1
  · exact (after_next (p := fun _ => true) (by decide +kernel)).imp fun _ h => h.1

theorem witness_EveryCommandEndsWithOneResponse :
    (sent 0x40000000#32 table5).Inv ∧ (sent 0x40000000#32 table5).input = [.command 0x40000000#32] :=
  ⟨inv_sent inv_table5 _, rfl⟩

/-! ## Witnesses: rules about all commands -/

theorem witness_ErrBitsAreStickyUntilClr_command :
    (sent 0x12000000#32 tree5).input = [.command 0x12000000#32] ∧ decode 0x12000000#32 ≠ .ok .clr
      ∧ (∃ t, step (sent 0x12000000#32 tree5) = .next t ∧ t.Responds 5#8 0#32) ∧ decode 0x01000000#32 = .ok .clr
      ∧ (∃ t, step (sent 0x01000000#32 tree5) = .next t ∧ t.Responds 0#8 0#32) ∧ (sent 0x12000000#32 tree5).ErrReserved :=
  ⟨rfl, by simp [show decode 0x12000000#32 = .ok .build from rfl], ⟨_, rfl, rfl⟩, by decide, ⟨_, rfl, rfl⟩, by decide⟩

theorem witness_ErrBitsAreStickyUntilClr_no_command :
    (∃ t, step { tree5 with input := [.reset] } = .next t) ∧ (∃ t, step { tree5 with input := [.abandoned 0#32] } = .next t)
      ∧ ∃ t, step tree5 = .next t := ⟨⟨_, rfl⟩, ⟨_, rfl⟩, ⟨_, rfl⟩⟩

theorem witness_FailedCommandsChangeOnlyErr :
    (∃ t, exec .build tree5 = .next t ∧ t.resp = some ⟨5#8, 0#32⟩) ∧ (5#8 : BitVec 8) ≠ 0#8
      ∧ ∃ t, exec .decode tree5 = .next t ∧ t.resp = some ⟨1#8, 0#32⟩ := by
  exact ⟨⟨_, rfl, rfl⟩, by decide, ⟨_, rfl, rfl⟩⟩

theorem witness_TreeIsFrozenOnceBuilt :
    tree5.treeValid = true ∧ (∃ t, exec (.tally 0x41#8) tree5 = .next t) ∧ (∃ t, exec (.leaf 0x5A#8 1#16) tree5 = .next t)
      ∧ (∃ t, exec .build tree5 = .next t) ∧ ∃ t, exec .clrbits tree5 = .next t :=
  ⟨rfl, ⟨_, rfl⟩, ⟨_, rfl⟩, ⟨_, rfl⟩, ⟨_, rfl⟩⟩

theorem witness_ReadCommandsHaveNoSideEffects :
    (∃ t, exec (.rdcsr 9#8) tree5 = .next t) ∧ (∃ t, exec (.rdnode 3#8 8#16) tree5 = .next t)
      ∧ (∃ t, exec (.rdlen 0x41#8) table5 = .next t) ∧ (∃ t, exec (.rdcbit 0x41#8 2#16) table5 = .next t)
      ∧ (∃ t, exec (.rdbit 0#24) table5 = .next t) ∧ ∃ t, exec (.rdout 0xFFFFFF#24) table5 = .next t := by
  refine ⟨?_, ?_, ?_, ?_, ?_, ?_⟩ <;>
    exact (after_next (p := fun _ => true) (by decide +kernel)).imp fun _ h => h.1

theorem witness_OnlyItsWritersChangeASpace : ∃ t, exec .nop table5 = .next t ∧ Instr.nop ≠ .clr := ⟨_, rfl, by decide⟩

theorem witness_HiddenRegistersInfluenceNothing :
    tree5.dropHidden = { tree5 with seqCtr := 3#9, cursor := 0#9, stk := [⟨0#9, []⟩] }.dropHidden
      ∧ ∃ t, exec .nop tree5 = .next t := ⟨rfl, _, rfl⟩

theorem witness_PseudoCommandStopsAtItsFirstFault :
    runCommands [.clrbits, .pushbit 0#24] State.reset = some (respond 1#32 { State.reset with bitbuf := [false] })
      ∧ ∃ u, exec .decode (respond 1#32 { State.reset with bitbuf := [false] }) = .next u ∧ u.succeeded = false :=
  ⟨rfl, _, rfl, rfl⟩

/-! ## Witnesses: system commands and the frequency counter -/

theorem witness_RdcsrReadsTheNineRegisters : (8#8 : BitVec 8) < 9#8 ∧ (8#8 : BitVec 8) < 255#8 := by decide

theorem witness_WrcsrWritesOnlyTheLenientBit : (1#8 : BitVec 8) ≠ 2#8 ∧ (3#8 : BitVec 8) ≠ 2#8 ∧ (9#8 : BitVec 8) ≠ 2#8 := by
  decide

theorem witness_TallyCountsOneOccurrence :
    tree5.treeValid = true ∧ ((heavy 0xFFFFFFFF#32).treeValid = false ∧ (heavy 0xFFFFFFFF#32).totalW = 0xFFFFFFFF#32)
      ∧ ((heavy 0xFFFFFFFE#32).treeValid = false ∧ (heavy 0xFFFFFFFE#32).totalW ≠ 0xFFFFFFFF#32
          ∧ (heavy 0xFFFFFFFE#32).leafOfSym 0x41#8 = 0x1FF#9)
      ∧ (heavy 0xFFFFFFFE#32).leafOfSym 0x42#8 ≠ 0x1FF#9
      ∧ ((heavy 0xFFFFFFFE#32).leafOfSym 0x42#8).toNat < (heavy 0xFFFFFFFE#32).arena.length := by decide +kernel

theorem witness_TalliesCountTheSequence : [0x42#8, 0x41#8, 0x42#8].length ≤ 0xFFFFFFFF := by decide

theorem witness_LeafLoadsAWeightedLeaf :
    tree5.treeValid = true
      ∧ ((heavy 0xFFFF0001#32).treeValid = false ∧ (0#16 : BitVec 16) = 0#16)
      ∧ ((1#16 : BitVec 16) ≠ 0#16 ∧ (heavy 0xFFFF0001#32).leafOfSym 0x42#8 ≠ 0x1FF#9)
      ∧ ((0xFFFF#16 : BitVec 16) ≠ 0#16 ∧ (heavy 0xFFFF0001#32).leafOfSym 0x41#8 = 0x1FF#9
          ∧ 2 ^ 32 ≤ (heavy 0xFFFF0001#32).totalW.toNat + (0xFFFF#16 : BitVec 16).toNat)
      ∧ (0xFFFE#16 : BitVec 16) ≠ 0#16
      ∧ (heavy 0xFFFF0001#32).totalW.toNat + (0xFFFE#16 : BitVec 16).toNat < 2 ^ 32 := by decide +kernel

/-! ## Witnesses: the tree builder -/

theorem witness_QueueInsertionKeepsTheOrder :
    [(⟨2#32, 2#9, 2#9⟩ : PqEntry), ⟨3#32, 1#9, 1#9⟩].Pairwise (fun a b => entryBefore a b = true)
      ∧ ∀ f ∈ [(⟨2#32, 2#9, 2#9⟩ : PqEntry), ⟨3#32, 1#9, 1#9⟩], f.seq ≠ (⟨2#32, 6#9, 6#9⟩ : PqEntry).seq := by decide

theorem witness_BuildChecksThenPlantsATree_no_leaf :
    tree5.treeValid = true ∧ State.reset.treeValid = false
      ∧ ∀ i, i < State.reset.nLeaf.toNat → (State.reset.node (BitVec.ofNat 9 i)).sym ∈ State.reset.params.blank :=
  ⟨rfl, rfl, fun i h => absurd h (by simp [State.reset])⟩

theorem witness_BuildChecksThenPlantsATree_one_leaf :
    (heavy 2#32).treeValid = false
      ∧ (∀ i, i < (heavy 2#32).nLeaf.toNat →
          ({ heavy 2#32 with params := ⟨4, 2, [0x42#8]⟩ }.node (BitVec.ofNat 9 i)).sym ∈ [0x42#8])
      ∧ 0 < (heavy 2#32).nLeaf.toNat ∧ ((heavy 2#32).node (BitVec.ofNat 9 0)).sym ∉ (heavy 2#32).params.blank := by
  decide +kernel

theorem witness_BuildMergesTheTwoLightestNodes :
    leaves5.Inv ∧ leaves5.treeValid = false
      ∧ ∃ t, exec .build leaves5 = .next t
        ∧ (t.treeValid && decide (t.nLeaf.toNat ≤ 5) && decide (8 < t.arena.length)) = true :=
  ⟨inv_leaves5, rfl, after_next (by decide +kernel)⟩

theorem witness_MergeMachineRefinesBuild :
    leaves5.treeValid = false ∧ leaves5.nLeaf ≠ 0#9 ∧ leaves5.allBlank = false ∧ ∃ u, exec .build leaves5 = .next u :=
  ⟨rfl, by decide, by decide +kernel, (after_next (p := fun _ => true) (by decide +kernel)).imp fun _ h => h.1⟩

theorem witness_RdnodeReadsOneField :
    tree5.arena[(8#16 : BitVec 16).toNat]? = some (innerNode 25#32 6#9 7#9) ∧ tree5.arena.length ≤ (9#16 : BitVec 16).toNat
      ∧ (3#8 : BitVec 8) ≤ 3#8 ∧ (3#8 : BitVec 8) < 4#8 := by decide +kernel

/-! ## Witnesses: the code table and the encoder -/

theorem witness_GenFillsTheTableWithPaths :
    leaves5.treeValid = false ∧ (tree5.Inv ∧ tree5.treeValid = true)
      ∧ (tree5.leafOfSym 0x5A#8 = 0x1FF#9 ∧ tree5.leafOfSym 0x45#8 ≠ 0x1FF#9 ∧ (tree5.node tree5.root).leaf = false)
      ∧ (tree1.Inv ∧ tree1.treeValid = true) ∧ tree1.leafOfSym 0x41#8 ≠ 0x1FF#9 ∧ (tree1.node tree1.root).leaf = true :=
  ⟨rfl, ⟨inv_tree5, rfl⟩, by decide +kernel, ⟨inv_tree1, rfl⟩, by decide +kernel, by decide +kernel⟩

theorem witness_TraversalMachineRefinesGen :
    tree5.treeValid = true ∧ (∃ u, exec .gen tree5 = .next u) ∧ tree1.treeValid = true ∧ ∃ u, exec .gen tree1 = .next u :=
  ⟨rfl, (after_next (p := fun _ => true) (by decide +kernel)).imp fun _ h => h.1, rfl,
    (after_next (p := fun _ => true) (by decide +kernel)).imp fun _ h => h.1⟩

theorem witness_GenRepeatedWritesTheSameTable : tree5.Inv ∧ tree5.treeValid = true := ⟨inv_tree5, rfl⟩

theorem witness_NoCodeBeginsAnother :
    table5.Inv ∧ table5.codeOf 0x45#8 = some (bits "01") ∧ table5.codeOf 0x42#8 = some (bits "001")
      ∧ (0x45#8 : Sym) ≠ 0x42#8 := ⟨inv_table5, by decide +kernel, by decide +kernel, by decide⟩

theorem witness_HeavierSymbolsHaveNoLongerCodes :
    leaves5.Inv ∧ leaves5.treeValid = false ∧ ∃ t, exec .build leaves5 = .next t
      ∧ ∃ u, exec .gen t = .next u ∧ (u.codeOf 0x45#8 == some (bits "01") && u.codeOf 0x44#8 == some (bits "000")
        && decide ((u.node (u.leafOfSym 0x44#8)).weight < (u.node (u.leafOfSym 0x45#8)).weight)) = true := by
  obtain ⟨t, ht, h⟩ := after_next (o := exec .build leaves5)
    (p := fun t => after (exec .gen t) (fun u => u.codeOf 0x45#8 == some (bits "01") && u.codeOf 0x44#8 == some (bits "000")
      && decide ((u.node (u.leafOfSym 0x44#8)).weight < (u.node (u.leafOfSym 0x45#8)).weight))) (by decide +kernel)
  exact ⟨inv_leaves5, rfl, t, ht, after_next h⟩

theorem witness_RdlenReadsTheCodeLength :
    table5.codeOf 0x42#8 = some (bits "001") ∧ table5.codeOf 0x5A#8 = none := by decide +kernel

theorem witness_RdcbitReadsOneCodeBit :
    table5.codeOf 0x5A#8 = none ∧ table5.codeOf 0x41#8 = some (bits "10")
      ∧ (bits "10").length ≤ (2#16 : BitVec 16).toNat ∧ (bits "10")[(1#16 : BitVec 16).toNat]? = some false := by
  decide +kernel

theorem witness_EncAppendsTheCode :
    tree5.ctValid = false ∧ (table5.ctValid = true ∧ table5.codeOf 0x5A#8 = none)
      ∧ table5.codeOf 0x42#8 = some (bits "001")
      ∧ (small { table5 with bitbuf := bits "10" }).params.bitCap
          < (small { table5 with bitbuf := bits "10" }).bitbuf.length + (bits "001").length
      ∧ (small { table5 with bitbuf := bits "1" }).bitbuf.length + (bits "001").length
          ≤ (small { table5 with bitbuf := bits "1" }).params.bitCap := by decide +kernel

theorem witness_PushbitAppendsOneBit :
    (1#24 : BitVec 24) < 2#24 ∧ (1#24 : BitVec 24) ≤ 1#24
      ∧ (small { tree5 with bitbuf := bits "0000" }).bitbuf.length = (small { tree5 with bitbuf := bits "0000" }).params.bitCap
      ∧ (small { tree5 with bitbuf := bits "000" }).bitbuf.length ≠ (small { tree5 with bitbuf := bits "000" }).params.bitCap := by
  decide +kernel

theorem witness_RdbitReadsOneBit :
    { tree5 with bitbuf := bits "10" }.bitbuf.length ≤ (2#24 : BitVec 24).toNat
      ∧ { tree5 with bitbuf := bits "10" }.bitbuf[(1#24 : BitVec 24).toNat]? = some false := by decide +kernel

theorem witness_EncodingASequenceConcatenatesItsCodes :
    table5.ctValid = true ∧ (∀ x ∈ [0x41#8, 0x42#8], table5.codeOf x ≠ none)
      ∧ table5.bitbuf.length + (table5.codesOf [0x41#8, 0x42#8]).length ≤ table5.params.bitCap := by decide +kernel

/-! ## Witnesses: the decoder -/

theorem witness_DecodeRefusesAbsentInput :
    leaves5.treeValid = false ∧ tree5.treeValid = true ∧ tree5.bitbuf = [] := ⟨rfl, rfl, rfl⟩

/-- The codes of B and A in `tree5`, of A in `tree1`. -/
theorem codes_of_tree5 : tree5.IsCode 1#9 (bits "001") ∧ tree5.IsCode 0#9 (bits "10") ∧ tree1.IsCode 0#9 (bits "0") := by
  decide +kernel

theorem witness_DecodeInvertsTheLeafPaths :
    { tree5 with bitbuf := bits "00110" }.Inv ∧ tree5.treeValid = true
      ∧ (∀ p ∈ [((1#9 : NodeId), bits "001"), (0#9, bits "10")], { tree5 with bitbuf := bits "00110" }.IsCode p.1 p.2)
      ∧ bits "00110" = bitsAlong [(1#9, bits "001"), (0#9, bits "10")] ∧ 2 ≤ tree5.params.outCap :=
  ⟨inv_bits inv_tree5 _ (by decide), rfl, by decide +kernel, by decide, by decide⟩

theorem witness_DegenerateTreeDecodesByBitZero_strict :
    { tree1 with bitbuf := bits "010" }.Inv ∧ tree1.treeValid = true ∧ (tree1.node tree1.root).leaf = true
      ∧ tree1.cfgLenient = false ∧ bits "010" = List.replicate 1 false ++ true :: [false] ∧ 1 ≤ tree1.params.outCap :=
  ⟨inv_bits inv_tree1 _ (by decide), rfl, by decide +kernel, rfl, by decide, by decide⟩

/-- The failing bit may stand where the output is already full. -/
theorem witness_DegenerateTreeDecodesByBitZero_full :
    { small tree1 with bitbuf := bits "001" }.Inv ∧ bits "001" = List.replicate 2 false ++ true :: []
      ∧ 2 ≤ (small tree1).params.outCap :=
  ⟨inv_bits (inv_small inv_tree1 rfl rfl) _ (by decide), by decide, by decide⟩

theorem witness_DegenerateTreeDecodesByBitZero_zeros :
    { tree1 with bitbuf := bits "0000" }.Inv ∧ true ∉ bits "0000" ∧ bits "0000" ≠ []
      ∧ (bits "0000").count false ≤ tree1.params.outCap :=
  ⟨inv_bits inv_tree1 _ (by decide), by decide, by decide, by decide⟩

theorem witness_DegenerateTreeDecodesByBitZero_lenient :
    { { tree1 with bitbuf := bits "1" } with cfgLenient := true }.Inv ∧ bits "1" ≠ []
      ∧ (bits "1").count false ≤ tree1.params.outCap :=
  ⟨inv_mode (inv_bits inv_tree1 _ (by decide)) _, by decide, by decide⟩

theorem witness_DecodeRefusesTruncatedInput :
    { tree5 with bitbuf := bits "1000" }.Inv ∧ tree5.treeValid = true
      ∧ (∀ q ∈ [((0#9 : NodeId), bits "10")], { tree5 with bitbuf := bits "1000" }.IsCode q.1 q.2) ∧ 1 ≤ tree5.params.outCap
      ∧ bits "00" ≠ [] ∧ { tree5 with bitbuf := bits "1000" }.follow 8#9 (bits "00") = some 5#9
      ∧ ({ tree5 with bitbuf := bits "1000" }.node 5#9).leaf = false
      ∧ bits "1000" = bitsAlong [(0#9, bits "10")] ++ bits "00" :=
  ⟨inv_bits inv_tree5 _ (by decide), rfl, by decide +kernel, by decide, by decide, by decide +kernel, by decide +kernel,
    by decide⟩

theorem witness_DecodeRefusesToOverfillTheOutput :
    { small tree1 with bitbuf := bits "0000" }.Inv ∧ tree1.treeValid = true
      ∧ (∀ q ∈ [((0#9 : NodeId), bits "0"), (0#9, bits "0")], { small tree1 with bitbuf := bits "0000" }.IsCode q.1 q.2)
      ∧ { small tree1 with bitbuf := bits "0000" }.IsCode 0#9 (bits "0") ∧ (2 : Nat) = (small tree1).params.outCap
      ∧ bits "0000" = bitsAlong [(0#9, bits "0"), (0#9, bits "0")] ++ bits "0" ++ bits "0" :=
  ⟨inv_bits (inv_small inv_tree1 rfl rfl) _ (by decide), rfl, by decide +kernel, by decide +kernel, rfl, by decide⟩

theorem witness_RdoutReadsOneSymbol :
    { tree5 with outbuf := [0x41#8, 0x42#8] }.outbuf.length ≤ (2#24 : BitVec 24).toNat
      ∧ { tree5 with outbuf := [0x41#8, 0x42#8] }.outbuf[(1#24 : BitVec 24).toNat]? = some 0x42#8 := by decide +kernel

theorem witness_TreeWalkMachineRefinesDecode :
    { tree5 with bitbuf := bits "00110" }.bitbuf.length ≤ 2 ^ 24 ∧ ∃ u, exec .decode { tree5 with bitbuf := bits "00110" } = .next u :=
  ⟨by decide, (after_next (p := fun _ => true) (by decide +kernel)).imp fun _ h => h.1⟩

theorem witness_DecodeFaultsAreThoseOfItsTree :
    ({ tree5 with bitbuf := bits "1000" }.Inv ∧ tree5.treeValid = true ∧ bits "1000" ≠ []
        ∧ (tree5.node tree5.root).leaf = false)
      ∧ { tree1 with bitbuf := bits "1" }.Inv ∧ tree1.treeValid = true ∧ (tree1.node tree1.root).leaf = true :=
  ⟨⟨inv_bits inv_tree5 _ (by decide), rfl, by decide, by decide +kernel⟩, inv_bits inv_tree1 _ (by decide), rfl,
    by decide +kernel⟩

theorem witness_RoundTripReproducesTheInput :
    (∃ v, [Instr.wrcsr 2#8 1#16] = [.wrcsr 2#8 v]) ∧ [0x41#8, 0x41#8, 0x42#8] ≠ []
      ∧ (∃ x ∈ [0x41#8, 0x41#8, 0x42#8], x ∉ State.reset.params.blank)
      ∧ [0x41#8, 0x41#8, 0x42#8].length ≤ State.reset.params.outCap
      ∧ (runCommands (.clr :: [0x41#8, 0x41#8, 0x42#8].map .tally ++ [.build, .gen]) State.reset).any
          (fun t => decide ((t.codesOf [0x41#8, 0x41#8, 0x42#8]).length ≤ State.reset.params.bitCap)) = true :=
  ⟨⟨_, rfl⟩, by decide, ⟨0x41#8, by decide, by decide⟩, by decide, by decide +kernel⟩

/-- R10: the three ways to write a number; a prefix alone and a digit outside the base have no reading. -/
theorem test_numbers :
    number "65".toList = some 65 ∧ number "0x41".toList = some 65 ∧ number "0b01000001".toList = some 65
      ∧ number "0b2".toList = none ∧ number "0b".toList = none ∧ number "0x".toList = none
      ∧ assembleLine "TALLY 0b01000001".toList = some [.tally 0x41#8] := by decide +kernel

/-! ## The host's two questions -/

theorem test_fetched_word_runs :
    after (step (State.reset.withFetchWord 32 0x10410000)) (fun t => t.resp == some ⟨0#8, 0#32⟩ && t.nLeaf == 1#9) = true := by
  decide +kernel

end Sys2Proof.Tests
end

section
/-! SUPPORT. What a step does, by the host's next event (R12). -/

namespace Sys2Proof.Machine

/-- A command word that decodes is taken by the block and its command performed whole. -/
theorem step_of_decode_ok {s : State} {w : Word} {rest : List HostEvent} {i : Instr}
    (hin : s.input = .command w :: rest) (hdec : decode w = .ok i) : step s = exec i (accept rest s) := by
  simp only [step, hin, hdec]

/-- Settles O6: the state in which the word is taken and the response port is empty is `accept rest s`. -/
theorem stepRunsTheDecodedCommand : Obligations.StepRunsTheDecodedCommand :=
  fun _ _ _ _ hin hdec => step_of_decode_ok hin hdec

end Sys2Proof.Machine
end

section
/-! SUPPORT. How a command can end, said once for all commands: one inversion lemma on `exec` (R11, R84, R181, R182). -/

namespace Sys2Proof.Machine

/-- What a command that ends with code 0 has made of `s` before it responds: the state `u` (R87; the six read commands and
NOP leave `s`). -/
def Effect : Instr → State → State → Prop
  | .clr, s, u => u = hardReset s
  | .wrcsr _ v, s, u => u = { s with cfgLenient := v.getLsbD 0 }
  | .tally x, s, u =>
    s.treeValid = false ∧ s.totalW.toNat ≠ maxWeight
      ∧ ((s.leafOfSym x = nil9 ∧ u = s.addLeaf x 1#32)
          ∨ (s.leafOfSym x ≠ nil9 ∧ u = s.bumpLeaf (s.leafOfSym x)))
  | .leaf x w, s, u =>
    s.treeValid = false ∧ w ≠ 0#16 ∧ s.leafOfSym x = nil9 ∧ s.totalW.toNat + w.toNat ≤ maxWeight
      ∧ u = s.addLeaf x (zext32 w)
  | .build, s, u =>
    s.treeValid = false ∧ s.nLeaf ≠ 0#9
      ∧ ∃ r q, (growTree s).pq = r :: q
        ∧ u = (State.plantRoot { growTree s with pq := q, tbState := .idle } r.id).forgetBuilder
  | .gen, s, u =>
    s.treeValid = true
      ∧ (((s.node s.root).leaf = true
            ∧ u = State.forgetWalker { degenerateTable s with ctValid := true, cgState := .idle })
          ∨ ((s.node s.root).leaf = false
            ∧ ∃ t, walkTree s.arena.length (startWalk s) = some t
              ∧ u = State.forgetWalker { t with ctValid := true, cgState := .idle }))
  | .enc x, s, u =>
    ∃ c, s.codeOf x = some c ∧ s.bitbuf.length + c.length ≤ s.params.bitCap ∧ u = s.appendBits c
  | .pushbit x, s, u => s.bitbuf.length ≠ s.params.bitCap ∧ u = s.appendBits [x.getLsbD 0]
  | .clrbits, s, u => u = { s with bitbuf := [] }
  | .decode, s, u =>
    s.treeValid = true
      ∧ ∃ t, walkBits s.bitbuf (startDecode s) = .ok t ∧ t.cursor = t.root
        ∧ u = State.forgetDecoder { t with decDone := true, deState := .idle }
  | .nop, s, u => u = s
  | .rdcsr _, s, u => u = s
  | .rdnode _ _, s, u => u = s
  | .rdlen _, s, u => u = s
  | .rdcbit _ _, s, u => u = s
  | .rdbit _, s, u => u = s
  | .rdout _, s, u => u = s

/-- How command `i` can end in state `t`: with its effect and code 0, or with an exception, which a DECODE takes after it has
emptied the output (R181, R182). -/
inductive Ends (i : Instr) (s : State) : State → Prop where
  | success (d : Word) (u : State) (h : Effect i s u) : Ends i s (respond d u)
  | fault (e : Err) (hc : i ≠ .clr) (hd : i ≠ .decode) : Ends i s (raise e 0#32 s)
  | decodeFault (e : Err) (d : Word) (h : i = .decode) : Ends i s (failDecode e d s)

theorem execRdcsr_ends {n : BitVec 8} {s t : State} (h : execRdcsr n s = .next t) : Ends (.rdcsr n) s t := by
  unfold execRdcsr at h
  split at h <;> cases h
  · exact .success _ _ rfl
  · exact .fault _ nofun nofun

theorem execWrcsr_ends {n : BitVec 8} {v : BitVec 16} {s t : State} (h : execWrcsr n v s = .next t) :
    Ends (.wrcsr n v) s t := by
  unfold execWrcsr at h
  split at h <;> cases h
  · exact .success _ _ rfl
  · exact .fault _ nofun nofun

theorem execTally_ends {x : Sym} {s t : State} (h : execTally x s = .next t) : Ends (.tally x) s t := by
  unfold execTally at h
  split at h
  · cases h; exact .fault _ nofun nofun
  split at h
  · cases h; exact .fault _ nofun nofun
  rename_i hv hw
  have hv' : s.treeValid = false := by simpa using hv
  split at h <;> cases h
  · exact .success _ _ ⟨hv', hw, .inl ⟨‹_›, rfl⟩⟩
  · exact .success _ _ ⟨hv', hw, .inr ⟨‹_›, rfl⟩⟩

theorem execLeaf_ends {x : Sym} {w : BitVec 16} {s t : State} (h : execLeaf x w s = .next t) :
    Ends (.leaf x w) s t := by
  unfold execLeaf at h
  split at h
  · cases h; exact .fault _ nofun nofun
  split at h
  · cases h; exact .fault _ nofun nofun
  split at h
  · cases h; exact .fault _ nofun nofun
  split at h <;> cases h
  · exact .fault _ nofun nofun
  · rename_i hv hw hx hs
    exact .success _ _ ⟨by simpa using hv, hw, by simpa using hx, by omega, rfl⟩

theorem execBuild_ends {s t : State} (h : execBuild s = .next t) : Ends .build s t := by
  unfold execBuild at h
  split at h
  · cases h; exact .fault _ nofun nofun
  split at h
  · cases h; exact .fault _ nofun nofun
  rename_i hv hn
  split at h <;> cases h
  rename_i r q hq
  exact .success _ _ ⟨by simpa using hv, fun h0 => hn (.inl h0), r, q, pqPopMin_eq_some.1 hq, rfl⟩

theorem execRdnode_ends {f : BitVec 8} {k : BitVec 16} {s t : State} (h : execRdnode f k s = .next t) :
    Ends (.rdnode f k) s t := by
  unfold execRdnode at h
  split at h
  · cases h; exact .fault _ nofun nofun
  split at h <;> cases h
  · exact .fault _ nofun nofun
  · exact .success _ _ rfl

theorem execGen_ends {s t : State} (h : execGen s = .next t) : Ends .gen s t := by
  unfold execGen at h
  split at h
  · cases h; exact .fault _ nofun nofun
  rename_i hv
  have hv' : s.treeValid = true := by simpa using hv
  split at h
  · cases h; exact .success _ _ ⟨hv', .inl ⟨‹_›, rfl⟩⟩
  rename_i hl
  split at h <;> cases h
  exact .success _ _ ⟨hv', .inr ⟨by simpa using hl, _, ‹_›, rfl⟩⟩

theorem execRdlen_ends {x : Sym} {s t : State} (h : execRdlen x s = .next t) : Ends (.rdlen x) s t := by
  unfold execRdlen at h
  split at h <;> cases h <;> exact .success _ _ rfl

theorem execRdcbit_ends {x : Sym} {k : BitVec 16} {s t : State} (h : execRdcbit x k s = .next t) :
    Ends (.rdcbit x k) s t := by
  unfold execRdcbit at h
  split at h
  · cases h; exact .fault _ nofun nofun
  split at h <;> cases h
  · exact .fault _ nofun nofun
  · exact .success _ _ rfl

theorem execEnc_ends {x : Sym} {s t : State} (h : execEnc x s = .next t) : Ends (.enc x) s t := by
  unfold execEnc at h
  split at h
  · cases h; exact .fault _ nofun nofun
  split at h
  · cases h; exact .fault _ nofun nofun
  rename_i c hc
  split at h <;> cases h
  · exact .fault _ nofun nofun
  · exact .success _ _ ⟨c, hc, by omega, rfl⟩

theorem execPushbit_ends {x : BitVec 24} {s t : State} (h : execPushbit x s = .next t) : Ends (.pushbit x) s t := by
  unfold execPushbit at h
  split at h
  · cases h; exact .fault _ nofun nofun
  split at h <;> cases h
  · exact .fault _ nofun nofun
  · exact .success _ _ ⟨‹_›, rfl⟩

theorem execRdbit_ends {k : BitVec 24} {s t : State} (h : execRdbit k s = .next t) : Ends (.rdbit k) s t := by
  unfold execRdbit at h
  split at h <;> cases h
  · exact .fault _ nofun nofun
  · exact .success _ _ rfl

theorem execDecode_ends {s t : State} (h : execDecode s = .next t) : Ends .decode s t := by
  unfold execDecode at h
  split at h
  · cases h; exact .decodeFault _ _ rfl
  rename_i hv
  split at h
  · cases h; exact .decodeFault _ _ rfl
  split at h
  · cases h; exact .decodeFault _ _ rfl
  split at h <;> cases h
  · exact .decodeFault _ _ rfl
  · rename_i u hu hc
    exact .success _ _ ⟨by simpa using hv, u, hu, by simpa using hc, rfl⟩

theorem execRdout_ends {k : BitVec 24} {s t : State} (h : execRdout k s = .next t) : Ends (.rdout k) s t := by
  unfold execRdout at h
  split at h <;> cases h
  · exact .fault _ nofun nofun
  · exact .success _ _ rfl

/-- Every command that answers ends in one of the three ways. -/
theorem exec_ends {i : Instr} {s t : State} (h : exec i s = .next t) : Ends i s t := by
  cases i with
  | nop => cases h; exact .success _ _ rfl
  | clr => cases h; exact .success _ _ rfl
  | rdcsr n => exact execRdcsr_ends h
  | wrcsr n v => exact execWrcsr_ends h
  | tally x => exact execTally_ends h
  | leaf x w => exact execLeaf_ends h
  | build => exact execBuild_ends h
  | rdnode f k => exact execRdnode_ends h
  | gen => exact execGen_ends h
  | rdlen x => exact execRdlen_ends h
  | rdcbit x k => exact execRdcbit_ends h
  | enc x => exact execEnc_ends h
  | pushbit x => exact execPushbit_ends h
  | clrbits => cases h; exact .success _ _ rfl
  | rdbit k => exact execRdbit_ends h
  | decode => exact execDecode_ends h
  | rdout k => exact execRdout_ends h

end Sys2Proof.Machine
end

section
/-! SUPPORT. What a step can do, by the host's next event (R12, R200), and what it makes of ERR (R42). -/

namespace Sys2Proof.Machine

/-- The event is `rst`, between commands or during one (R200, R208). -/
abbrev HostEvent.IsReset (e : HostEvent) : Prop := e = .reset ∨ ∃ w, e = .abandoned w

theorem HostEvent.not_isReset_command (w : Word) : ¬ (HostEvent.command w).IsReset := by simp [HostEvent.IsReset]

theorem step_of_no_event {s : State} (hin : s.input = []) : step s = .next (idle s) := by
  simp only [step, hin]

theorem step_of_reset {s : State} {e : HostEvent} {rest : List HostEvent} (hin : s.input = e :: rest) (he : e.IsReset) :
    step s = .next (hardReset (accept rest s)) := by
  obtain rfl | ⟨w, rfl⟩ := he <;> simp only [step, hin]

theorem step_of_decode_error {s : State} {w : Word} {rest : List HostEvent} {r : Reject}
    (hin : s.input = .command w :: rest) (hdec : decode w = .error r) :
    step s = .next (illegalWord (accept rest s)) := by
  simp only [step, hin, hdec]

/-- What a step can do: wait, reset, refuse a word, or perform a command. -/
inductive StepKind (s : State) : State → Prop where
  | quiet (hin : s.input = []) : StepKind s (idle s)
  | rst (e : HostEvent) (rest : List HostEvent) (hin : s.input = e :: rest) (he : e.IsReset) :
    StepKind s (hardReset (accept rest s))
  | illegal (w : Word) (rest : List HostEvent) (r : Reject) (hin : s.input = .command w :: rest)
    (hdec : decode w = .error r) : StepKind s (illegalWord (accept rest s))
  | command (w : Word) (rest : List HostEvent) (i : Instr) (t : State) (hin : s.input = .command w :: rest)
    (hdec : decode w = .ok i) (h : Ends i (accept rest s) t) : StepKind s t

/-- Every step that answers is of one of the four kinds. -/
theorem step_kind {s t : State} (h : step s = .next t) : StepKind s t := by
  match hin : s.input with
  | [] => rw [step_of_no_event hin] at h; cases h; exact .quiet hin
  | .reset :: rest => rw [step_of_reset hin (.inl rfl)] at h; cases h; exact .rst _ _ hin (.inl rfl)
  | .abandoned w :: rest => rw [step_of_reset hin (.inr ⟨w, rfl⟩)] at h; cases h; exact .rst _ _ hin (.inr ⟨w, rfl⟩)
  | .command w :: rest =>
    match hdec : decode w with
    | .error r => rw [step_of_decode_error hin hdec] at h; cases h; exact .illegal w rest r hin hdec
    | .ok i => rw [step_of_decode_ok hin hdec] at h; exact .command w rest i t hin hdec (exec_ends h)

/-! ## Reset (R50, R200) -/

/-- `rst` gives every element the value of R50, whatever it held. -/
theorem atResetValues_hardReset (s : State) : (hardReset s).AtResetValues :=
  ⟨⟨rfl, rfl, leafOfSym_hardReset s, rfl⟩, ⟨rfl, rfl⟩, ⟨rfl, rfl, rfl⟩, ⟨codeOf_hardReset s, rfl⟩, ⟨rfl, rfl⟩,
    ⟨rfl, rfl, rfl⟩, ⟨rfl, rfl, rfl⟩, rfl, rfl⟩

/-- Settles O8: `rst` and CLR are the same `hardReset`, after which CLR responds. -/
theorem resetAndClrGiveTheResetValues : Obligations.ResetAndClrGiveTheResetValues := by
  refine ⟨atResetValues_hardReset State.reset, ?rst, ?clr⟩
  case rst =>
    intro s e rest hin he
    exact ⟨_, step_of_reset hin he, atResetValues_hardReset _, rfl, rfl, rfl⟩
  case clr =>
    intro s
    exact ⟨_, _, rfl, atResetValues_hardReset s, rfl, ⟨rfl, rfl⟩, step_of_reset rfl (.inl rfl), rfl⟩

/-! ## ERR (R42) -/

/-- No effect but CLR's touches ERR: its bits are set by exceptions alone. -/
theorem Effect.err_eq {i : Instr} {s u : State} (h : Effect i s u) (hi : i ≠ .clr) : u.err = s.err := by
  cases i with
  | clr => exact absurd rfl hi
  | tally x =>
    obtain ⟨-, -, ⟨-, rfl⟩ | ⟨-, rfl⟩⟩ := h
    · simp
    · simp
  | leaf x w => obtain ⟨-, -, -, -, rfl⟩ := h; simp
  | build =>
    obtain ⟨-, -, r, q, -, rfl⟩ := h
    rw [growTree_frame]; simp
  | gen =>
    obtain ⟨-, ⟨-, rfl⟩ | ⟨-, t, ht, rfl⟩⟩ := h
    · simp [degenerateTable]
    · rw [walkTree_frame ht]; simp [startWalk]
  | enc x => obtain ⟨c, -, -, rfl⟩ := h; simp
  | pushbit x => obtain ⟨-, rfl⟩ := h; simp
  | decode =>
    obtain ⟨-, t, ht, -, rfl⟩ := h
    rw [walkBits_ok ht]; simp [startDecode]
  | _ => subst h; rfl

/-- The code a command ends with, and what it makes of ERR. -/
theorem Ends.err {i : Instr} {s t : State} (h : Ends i s t) :
    ∃ e d, t.resp = some ⟨e, d⟩ ∧ e.toNat ≤ 12 ∧ (i = .clr → t.err = 0#32)
      ∧ (i ≠ .clr → t.err = if e = 0#8 then s.err else s.err ||| (1#32 <<< e.toNat)) := by
  cases h with
  | success d u hu =>
    refine ⟨0#8, d, rfl, by decide, ?_, ?_⟩
    · rintro rfl; cases hu; rfl
    · intro hi; simpa using hu.err_eq hi
  | fault e hc hd =>
    refine ⟨errCode e, 0#32, rfl, (errCode_bounds e).2, fun hi => absurd hi hc, fun _ => ?_⟩
    rw [if_neg (errCode_ne_zero e)]; rfl
  | decodeFault e d hi =>
    refine ⟨errCode e, d, rfl, (errCode_bounds e).2, by simp [hi], fun _ => ?_⟩
    rw [if_neg (errCode_ne_zero e)]; rfl

theorem errReserved_raise {s : State} (h : s.ErrReserved) (e : Err) (d : Word) : (raise e d s).ErrReserved := by
  rw [State.ErrReserved, BitVec.and_comm] at h ⊢
  have he := errBit_not_reserved e
  rw [BitVec.and_comm] at he
  calc 0xFFFFE001#32 &&& (s.err ||| errBit e)
      = 0xFFFFE001#32 &&& s.err ||| 0xFFFFE001#32 &&& errBit e := BitVec.and_or_distrib_left
    _ = 0#32 := by rw [h, he]; rfl

/-- No command sets a reserved bit of ERR. -/
theorem Ends.errReserved {i : Instr} {s t : State} (h : Ends i s t) (hs : s.ErrReserved) : t.ErrReserved := by
  cases h with
  | success d u hu =>
    show u.ErrReserved
    by_cases hi : i = .clr
    · subst hi; cases hu; exact (by decide : State.reset.ErrReserved)
    · rw [State.ErrReserved, hu.err_eq hi]; exact hs
  | fault e _ _ => exact errReserved_raise hs e _
  | decodeFault e d _ => exact errReserved_raise (s := State.forgetDecoder _) hs e d

/-- Settles O12: by the kind of step; a command's part is `Ends.err`. -/
theorem errBitsAreStickyUntilClr : Obligations.ErrBitsAreStickyUntilClr := by
  refine ⟨rfl, fun s t h => ?_⟩
  cases step_kind h with
  | quiet hin => exact ⟨by simp [hin], by simp [hin], fun _ => rfl, id⟩
  | rst e rest hin he =>
    refine ⟨fun w rest' hin' => ?_, fun _ _ _ _ => rfl, by simp [hin],
      fun _ => (by decide : State.reset.ErrReserved)⟩
    obtain ⟨rfl, -⟩ : e = .command w ∧ rest = rest' := by simpa [hin] using hin'
    exact absurd he (HostEvent.not_isReset_command w)
  | illegal w rest r hin hdec =>
    refine ⟨fun w' rest' hin' => ?_, fun e rest' hin' he => ?_, by simp [hin],
      fun hs => errReserved_raise (s := accept rest s) hs .illegalCommand 0#32⟩
    · obtain ⟨rfl, -⟩ : w = w' ∧ rest = rest' := by simpa [hin] using hin'
      exact ⟨6#8, 0#32, rfl, by decide, by simp [hdec], fun _ => rfl⟩
    · obtain ⟨rfl, -⟩ : .command w = e ∧ rest = rest' := by simpa [hin] using hin'
      exact absurd he (HostEvent.not_isReset_command w)
  | command w rest i _ hin hdec hends =>
    refine ⟨fun w' rest' hin' => ?_, fun e rest' hin' he => ?_, by simp [hin], hends.errReserved⟩
    · obtain ⟨rfl, -⟩ : w = w' ∧ rest = rest' := by simpa [hin] using hin'
      simpa [hdec] using hends.err
    · obtain ⟨rfl, -⟩ : .command w = e ∧ rest = rest' := by simpa [hin] using hin'
      exact absurd he (HostEvent.not_isReset_command w)

end Sys2Proof.Machine
end

section
/-! SUPPORT. Noninterference (R39): the registers that no command reads between commands. Each machine initialises its own
before it reads them, so its loop commutes with overwriting those of the others. -/

namespace Sys2Proof.Machine

/-- `s` with what `dropHidden` drops taken from `h`. -/
def State.withHidden (s h : State) : State :=
  { s with
    pq := h.pq, seqCtr := h.seqCtr, tbState := h.tbState, seedI := h.seedI, tbA := h.tbA, tbB := h.tbB, stk := h.stk,
    cgState := h.cgState, sI := h.sI, count := h.count, cursor := h.cursor, rdPtr := h.rdPtr, deState := h.deState,
    lenient := h.lenient, freeCtr := h.freeCtr }

/-- The same without the queue and the insertion counter, which BUILD empties first (R124). -/
def State.besideQueue (s h : State) : State := { s.withHidden h with pq := s.pq, seqCtr := s.seqCtr }

/-- The same without the stack and the count, which GEN initialises (R140). -/
def State.besideStack (s h : State) : State := { s.withHidden h with stk := s.stk, count := s.count }

/-- The same without the cursor, the read pointer and the sampled mode, which DECODE initialises (R160). -/
def State.besideCursor (s h : State) : State :=
  { s.withHidden h with cursor := s.cursor, rdPtr := s.rdPtr, lenient := s.lenient }

/-- States that agree on everything else differ by an overwriting of the hidden registers. -/
theorem eq_withHidden_of_dropHidden_eq {s t : State} (h : s.dropHidden = t.dropHidden) : t = s.withHidden t := by
  cases s; cases t
  simp only [State.dropHidden, State.dropScratch, State.mk.injEq] at h
  simp only [State.withHidden, State.mk.injEq]
  tauto

/-! ## BUILD -/

theorem seedLeaves_besideQueue (k i : Nat) (s h : State) :
    seedLeaves k i (s.besideQueue h) = (seedLeaves k i s).besideQueue h := by
  induction k generalizing i s with
  | zero => rfl
  | succ k ih => exact ih (i + 1) (seedLeaf (BitVec.ofNat 9 i) s)

theorem mergeLoop_besideQueue (k : Nat) (s h : State) :
    mergeLoop k (s.besideQueue h) = (mergeLoop k s).besideQueue h := by
  induction k generalizing s with
  | zero => rfl
  | succ k ih =>
    have hpq : (s.besideQueue h).pq = s.pq := rfl
    rw [mergeLoop, mergeLoop, hpq]
    split
    · exact ih (mergeNodes _ _ { s with pq := _ })
    · rfl

theorem growTree_withHidden (s h : State) : growTree (s.withHidden h) = (growTree s).besideQueue h := by
  have hseed := seedLeaves_besideQueue s.nLeaf.toNat 0 s.emptyQueue h
  have hmerge := mergeLoop_besideQueue s.nLeaf.toNat (seedLeaves s.nLeaf.toNat 0 s.emptyQueue) h
  rw [growTree, growTree, ← hmerge, ← hseed]
  rfl

/-! ## GEN -/

theorem visitNode_besideStack (e : StkEntry) (rest : List StkEntry) (s h : State) :
    visitNode e rest (s.besideStack h) = (visitNode e rest s).besideStack h := by
  have hnode : (s.besideStack h).node e.id = s.node e.id := rfl
  unfold visitNode
  rw [hnode]
  dsimp only
  split <;> rfl

/-- Without a visit left, a stack that is not empty ends the walk. -/
theorem walkTree_zero_cons {s : State} {e : StkEntry} {rest : List StkEntry} (h : s.stk = e :: rest) :
    walkTree 0 s = none := by
  rw [walkTree.eq_def]
  simp [h]

theorem walkTree_besideStack (k : Nat) (s h : State) :
    walkTree k (s.besideStack h) = (walkTree k s).map (·.besideStack h) := by
  have hstk (s : State) : (s.besideStack h).stk = s.stk := rfl
  induction k generalizing s with
  | zero =>
    match hs : s.stk with
    | [] => rw [walkTree_nil hs, walkTree_nil (hstk s ▸ hs)]; rfl
    | e :: rest => rw [walkTree_zero_cons hs, walkTree_zero_cons (hstk s ▸ hs)]; rfl
  | succ k ih =>
    match hs : s.stk with
    | [] => rw [walkTree_nil hs, walkTree_nil (hstk s ▸ hs)]; rfl
    | e :: rest => rw [walkTree_cons hs, walkTree_cons (hstk s ▸ hs), visitNode_besideStack, ih]

/-! ## DECODE -/

theorem emit_besideCursor (x : Sym) (s h : State) :
    emit x (s.besideCursor h) = (emit x s).map (·.besideCursor h) := by
  have hout : (s.besideCursor h).outbuf = s.outbuf := rfl
  have hcap : (s.besideCursor h).params = s.params := rfl
  unfold emit
  rw [hout, hcap]
  split <;> rfl

theorem missingChild_besideCursor (s h : State) :
    missingChild (s.besideCursor h) = (missingChild s).map (·.besideCursor h) := by
  have hmode : (s.besideCursor h).lenient = s.lenient := rfl
  unfold missingChild
  rw [hmode]
  split <;> rfl

theorem moveTo_besideCursor (c : NodeId) (s h : State) :
    moveTo c (s.besideCursor h) = (moveTo c s).map (·.besideCursor h) := by
  have hnode : (s.besideCursor h).node c = s.node c := rfl
  unfold moveTo
  rw [hnode, emit_besideCursor]
  split
  · cases emit (s.node c).sym s <;> rfl
  · rfl

theorem stepBit_besideCursor (v : Bool) (s h : State) :
    stepBit v (s.besideCursor h) = (stepBit v s).map (·.besideCursor h) := by
  have hnode : (s.besideCursor h).node (s.besideCursor h).cursor = s.node s.cursor := rfl
  have hleaf : stepLeaf v (s.besideCursor h) = (stepLeaf v s).map (·.besideCursor h) := by
    unfold stepLeaf
    rw [hnode, emit_besideCursor, missingChild_besideCursor]
    split <;> rfl
  have hinternal : stepInternal v (s.besideCursor h) = (stepInternal v s).map (·.besideCursor h) := by
    unfold stepInternal
    rw [hnode, moveTo_besideCursor, missingChild_besideCursor]
    split <;> rfl
  unfold stepBit
  rw [hnode, hleaf, hinternal]
  by_cases hl : (s.node s.cursor).leaf = true
  · rw [if_pos hl, if_pos hl]
    cases stepLeaf v s <;> rfl
  · rw [if_neg hl, if_neg hl]
    cases stepInternal v s <;> rfl

theorem walkBits_besideCursor (vs : BitSeq) (s h : State) :
    walkBits vs (s.besideCursor h) = (walkBits vs s).map (·.besideCursor h) := by
  induction vs generalizing s with
  | nil => rfl
  | cons v vs ih =>
    rw [walkBits, walkBits, stepBit_besideCursor]
    cases stepBit v s with
    | ok t => exact ih t
    | error e => rfl

/-! ## Every command -/

/-- What is visible of an outcome: a next state without its hidden registers. -/
def visible : Host.Outcome State Fault Refusal → Host.Outcome State Fault Refusal
  | .next t => .next t.dropHidden
  | .fault r => .fault r
  | .refused r => .refused r

theorem visible_eq_next {o : Host.Outcome State Fault Refusal} {u : State} (h : visible o = .next u) :
    ∃ t, o = .next t ∧ t.dropHidden = u := by
  cases o with
  | next t => cases h; exact ⟨t, rfl, rfl⟩
  | fault r => cases h
  | refused r => cases h

/-- What the commands' checks read is not hidden. -/
theorem withHidden_reads (s h : State) :
    (s.withHidden h).treeValid = s.treeValid ∧ (s.withHidden h).nLeaf = s.nLeaf ∧ (s.withHidden h).nNode = s.nNode
      ∧ (s.withHidden h).totalW = s.totalW ∧ (s.withHidden h).ctValid = s.ctValid ∧ (s.withHidden h).arena = s.arena
      ∧ (s.withHidden h).root = s.root ∧ (s.withHidden h).bitbuf = s.bitbuf ∧ (s.withHidden h).outbuf = s.outbuf
      ∧ (s.withHidden h).params = s.params ∧ (s.withHidden h).allBlank = s.allBlank
      ∧ (∀ i, (s.withHidden h).node i = s.node i) ∧ (∀ x, (s.withHidden h).leafOfSym x = s.leafOfSym x)
      ∧ (∀ x, (s.withHidden h).codeOf x = s.codeOf x) ∧ ∀ n, (s.withHidden h).csr n = s.csr n :=
  ⟨rfl, rfl, rfl, rfl, rfl, rfl, rfl, rfl, rfl, rfl, rfl, fun _ => rfl, fun _ => rfl, fun _ => rfl, fun _ => rfl⟩

theorem visible_execBuild (s h : State) : visible (execBuild (s.withHidden h)) = visible (execBuild s) := by
  have hpq : ((growTree s).besideQueue h).pq = (growTree s).pq := rfl
  simp only [execBuild, withHidden_reads, growTree_withHidden, hpq]
  split
  · rfl
  split
  · rfl
  cases pqPopMin (growTree s).pq <;> rfl

theorem visible_execGen (s h : State) : visible (execGen (s.withHidden h)) = visible (execGen s) := by
  have hstart : startWalk (s.withHidden h) = (startWalk s).besideStack h := rfl
  simp only [execGen, withHidden_reads, hstart, walkTree_besideStack]
  split
  · rfl
  split
  · rfl
  cases walkTree s.arena.length (startWalk s) <;> rfl

theorem visible_execDecode (s h : State) : visible (execDecode (s.withHidden h)) = visible (execDecode s) := by
  have hstart : startDecode (s.withHidden h) = (startDecode s).besideCursor h := rfl
  simp only [execDecode, withHidden_reads, hstart, walkBits_besideCursor]
  split
  · rfl
  split
  · rfl
  cases walkBits s.bitbuf (startDecode s) with
  | error p => rfl
  | ok t =>
    by_cases hc : t.cursor = t.root
    · have hc' : (t.besideCursor h).cursor = (t.besideCursor h).root := hc
      simp only [Except.map, hc, hc', ne_eq, not_true, if_false]
      rfl
    · have hc' : (t.besideCursor h).cursor ≠ (t.besideCursor h).root := hc
      simp only [Except.map, ne_eq, hc, hc', not_false_eq_true, if_true]
      rfl

/-- Overwriting the hidden registers changes nothing visible of any command's outcome. -/
theorem visible_exec_withHidden (i : Instr) (s h : State) : visible (exec i (s.withHidden h)) = visible (exec i s) := by
  cases i with
  | nop => rfl
  | clr => rfl
  | rdcsr n =>
    simp only [exec, execRdcsr, withHidden_reads]
    cases s.csr n <;> rfl
  | wrcsr n v =>
    simp only [exec, execWrcsr]
    split <;> rfl
  | tally x =>
    simp only [exec, execTally, withHidden_reads]
    split_ifs <;> rfl
  | leaf x w =>
    simp only [exec, execLeaf, withHidden_reads]
    split_ifs <;> rfl
  | build => exact visible_execBuild s h
  | rdnode f k =>
    simp only [exec, execRdnode, withHidden_reads]
    split
    · rfl
    · cases s.arena[k.toNat]? <;> rfl
  | gen => exact visible_execGen s h
  | rdlen x =>
    simp only [exec, execRdlen, withHidden_reads]
    cases s.codeOf x <;> rfl
  | rdcbit x k =>
    simp only [exec, execRdcbit, withHidden_reads]
    cases s.codeOf x with
    | none => rfl
    | some c =>
      dsimp only
      cases (c : BitSeq)[k.toNat]? <;> rfl
  | enc x =>
    simp only [exec, execEnc, withHidden_reads]
    split
    · rfl
    cases s.codeOf x with
    | none => rfl
    | some c => dsimp only; split <;> rfl
  | pushbit x =>
    simp only [exec, execPushbit, withHidden_reads]
    split_ifs <;> rfl
  | clrbits => rfl
  | rdbit k =>
    simp only [exec, execRdbit, withHidden_reads]
    cases s.bitbuf[k.toNat]? <;> rfl
  | decode => exact visible_execDecode s h
  | rdout k =>
    simp only [exec, execRdout, withHidden_reads]
    cases s.outbuf[k.toNat]? <;> rfl

/-- Settles O17: the second state is the first with its hidden registers overwritten. -/
theorem hiddenRegistersInfluenceNothing : Obligations.HiddenRegistersInfluenceNothing := by
  intro i s t s' hst hs
  apply visible_eq_next
  rw [eq_withHidden_of_dropHidden_eq hst, visible_exec_withHidden, hs]
  rfl

end Sys2Proof.Machine
end

section
/-! SUPPORT. The invariant under the operations that leave the tree and the table (R22 to R35), and its meaning before
BUILD, when there are only leaves (R22, R23, R24, R110, R123). -/

namespace Sys2Proof.Machine

/-- With the tree and the insertion counter unchanged, what remains to be shown is what the invariant says of the machines,
ERR, the buffers and the table; it does not speak of the scratch registers. -/
theorem State.Inv.of_sameTree {s t : State} (h : s.Inv) (tree : SameTree s t) (seq : t.seqCtr = s.seqCtr)
    (idle : t.MachinesIdle) (err : t.ErrReserved) (fit : t.BuffersFit) (table : t.TableHolds) : t.Inv := by
  obtain ⟨ha, hn, hl, hw, hv, hr⟩ := tree
  have hs : State.Inv { s with
      arena := t.arena, nLeaf := t.nLeaf, leafOf := t.leafOf, totalW := t.totalW, treeValid := t.treeValid,
      root := t.root, seqCtr := t.seqCtr } := by
    rw [ha, hn, hl, hw, hv, hr, seq]
    exact h
  exact ⟨idle, err, fit, hs.leavesFirst, hs.leafIndexed, hs.treeShape, table⟩

/-- What GEN writes for a symbol depends on the tree alone. -/
theorem entryFor_congr {s t : State} (tree : SameTree s t) (x : Sym) (c : BitSeq) : t.EntryFor x c ↔ s.EntryFor x c := by
  obtain ⟨ha, -, hl, -, -, hr⟩ := tree
  simp only [State.EntryFor, hr, leafOfSym_congr hl, node_congr ha, follow_congr ha]

/-- The same with the table unchanged. -/
theorem State.Inv.of_same {s t : State} (h : s.Inv) (tree : SameTree s t) (table : SameTable s t)
    (seq : t.seqCtr = s.seqCtr) (idle : t.MachinesIdle) (err : t.ErrReserved) (fit : t.BuffersFit) : t.Inv := by
  obtain ⟨hct, hctv⟩ := table
  have hentry := entryFor_congr tree
  refine h.of_sameTree tree seq idle err fit ?_
  obtain ⟨-, -, hl, -, hv, -⟩ := tree
  simp only [State.TableHolds, hentry, hctv, hv, leafOfSym_congr hl, codeOf_congr hct]
  exact h.tableHolds

theorem State.Inv.respond {s : State} (h : s.Inv) (d : Word) : (respond d s).Inv :=
  h.of_same ⟨rfl, rfl, rfl, rfl, rfl, rfl⟩ ⟨rfl, rfl⟩ rfl h.machinesIdle h.errReserved h.buffersFit

theorem State.Inv.raise {s : State} (h : s.Inv) (e : Err) (d : Word) : (raise e d s).Inv :=
  h.of_same ⟨rfl, rfl, rfl, rfl, rfl, rfl⟩ ⟨rfl, rfl⟩ rfl h.machinesIdle (errReserved_raise h.errReserved e d) h.buffersFit

theorem State.Inv.accept {s : State} (h : s.Inv) (rest : List HostEvent) : (accept rest s).Inv :=
  h.of_same ⟨rfl, rfl, rfl, rfl, rfl, rfl⟩ ⟨rfl, rfl⟩ rfl h.machinesIdle h.errReserved h.buffersFit

theorem State.Inv.idle {s : State} (h : s.Inv) : (idle s).Inv :=
  h.of_same ⟨rfl, rfl, rfl, rfl, rfl, rfl⟩ ⟨rfl, rfl⟩ rfl h.machinesIdle h.errReserved h.buffersFit

/-- More bits within the capacity keep the invariant (R33). -/
theorem State.Inv.setBits {s : State} (h : s.Inv) {b : BitSeq} (hb : b.length ≤ s.params.bitCap) :
    State.Inv { s with bitbuf := b } :=
  h.of_same ⟨rfl, rfl, rfl, rfl, rfl, rfl⟩ ⟨rfl, rfl⟩ rfl h.machinesIdle h.errReserved
    ⟨h.buffersFit.1, hb, h.buffersFit.2.2⟩

/-- A failed DECODE leaves no output and the cursor at the root (R182). -/
theorem State.Inv.failDecode {s : State} (h : s.Inv) (e : Err) (d : Word) : (failDecode e d s).Inv := by
  obtain ⟨htb, hcg, hde, hpq, hstk, hcur⟩ := h.machinesIdle
  obtain ⟨hp, hb, -, -⟩ := h.buffersFit
  refine h.of_same ⟨rfl, rfl, rfl, rfl, rfl, rfl⟩ ⟨rfl, rfl⟩ rfl ⟨htb, hcg, rfl, hpq, hstk, rfl⟩ ?_
    ⟨hp, hb, Nat.zero_le _, fun _ => rfl⟩
  exact errReserved_raise (s := State.forgetDecoder _) h.errReserved e d

end Sys2Proof.Machine
end

section
/-! SUPPORT. The invariant before BUILD, when there are leaves and no tree (R22, R23, R24), and TALLY and LEAF, which keep
it (R110, R123). -/

namespace Sys2Proof.Machine

/-- The arena holds the leaves and nothing else (R22, R24). -/
abbrev State.OnlyLeaves (s : State) : Prop :=
  s.nLeaf.toNat ≤ 256 ∧ s.arena.length = s.nLeaf.toNat ∧ (∀ n ∈ s.arena, n.IsLeaf)
    ∧ (s.arena.map (fun n => n.weight.toNat)).sum = s.totalW.toNat

/-- There is neither tree nor table (R25, R28, R31). -/
abbrev State.NoTree (s : State) : Prop :=
  s.treeValid = false ∧ s.root = nil9 ∧ s.seqCtr = 0#9 ∧ s.ctValid = false ∧ ∀ x, s.codeOf x = none

/-- What remains of the invariant without a tree. -/
theorem State.NoTree.inv {s : State} (h : s.NoTree) (idle : s.MachinesIdle) (err : s.ErrReserved) (fit : s.BuffersFit)
    (leaves : s.OnlyLeaves) (index : s.LeafIndexed) : s.Inv := by
  obtain ⟨hv, hroot, hseq, hct, hcode⟩ := h
  obtain ⟨hn, hlen, hleaf, hsum⟩ := leaves
  refine ⟨idle, err, fit, ⟨hn, hlen.ge, ?_, ?_⟩, index, ⟨?_, fun _ => ⟨hroot, hlen, hseq⟩, by simp [hv]⟩, ?_⟩
  · rwa [← hlen, List.take_length]
  · rwa [← hlen, List.take_length]
  · intro i hi hi'; omega
  · simp [State.TableHolds, hct, hcode]

theorem State.Inv.noTree {s : State} (h : s.Inv) (hv : s.treeValid = false) : s.NoTree := by
  obtain ⟨hroot, -, hseq⟩ := h.treeShape.2.1 hv
  have hct : s.ctValid = false := by
    by_contra hc
    simp [h.tableHolds.1 (by simpa using hc)] at hv
  refine ⟨hv, hroot, hseq, hct, fun x => ?_⟩
  by_contra hx
  obtain ⟨c, hc⟩ := Option.ne_none_iff_exists'.1 hx
  have := ((h.tableHolds.2 x).2 c (by simp [hc])).1
  simp [hct] at this

theorem State.Inv.onlyLeaves {s : State} (h : s.Inv) (hv : s.treeValid = false) : s.OnlyLeaves := by
  obtain ⟨-, hlen, -⟩ := h.treeShape.2.1 hv
  obtain ⟨hn, -, hleaf, hsum⟩ := h.leavesFirst
  rw [← hlen, List.take_length] at hleaf hsum
  exact ⟨hn, hlen, hleaf, hsum⟩

/-! ## Reset -/

theorem inv_hardReset (s : State) (hp : s.params.Wf) : (hardReset s).Inv := by
  refine State.NoTree.inv ⟨rfl, rfl, rfl, rfl, codeOf_hardReset s⟩ ⟨rfl, rfl, rfl, rfl, rfl, rfl⟩
    (by decide : State.reset.ErrReserved) ⟨hp, Nat.zero_le _, Nat.zero_le _, fun _ => rfl⟩
    ⟨Nat.zero_le _, rfl, nofun, rfl⟩ ⟨fun i hi => absurd hi (Nat.not_lt_zero i), fun x => .inl (leafOfSym_hardReset s x)⟩

/-- Settles O9: reset gives the state of `hardReset`. -/
theorem resetMeetsTheInvariant : Obligations.ResetMeetsTheInvariant :=
  inv_hardReset State.reset (by decide)

/-! ## A new leaf -/

theorem leafOfSym_addLeaf (s : State) (x y : Sym) (w : Word) :
    (s.addLeaf x w).leafOfSym y = if y = x then s.nNode else s.leafOfSym y :=
  leafOfSym_setLeafOf s x y s.nNode

theorem node_addLeaf_of_lt (s : State) (x : Sym) (w : Word) {i : NodeId} (h : i.toNat < s.arena.length) :
    (s.addLeaf x w).node i = s.node i := node_addNode_of_lt s _ h

theorem node_addLeaf_self (s : State) (x : Sym) (w : Word) (h : s.arena.length < 512) :
    (s.addLeaf x w).node s.nNode = ⟨true, x, w, nil9, nil9⟩ := node_addNode_self s _ h

/-- The symbol of node `i` as a number. -/
def State.symNumber (s : State) (i : Nat) : Nat := (s.node (BitVec.ofNat 9 i)).sym.toNat

/-- The leaves have distinct symbols (R23), so there are fewer than 256 while a symbol has none. -/
theorem nLeaf_lt_of_leafOfSym_eq_nil {s : State} (hn : s.nLeaf.toNat ≤ 256) (index : s.LeafIndexed) {x : Sym}
    (hx : s.leafOfSym x = nil9) : s.nLeaf.toNat < 256 := by
  have hmaps : Set.MapsTo s.symNumber (Finset.range s.nLeaf.toNat) ((Finset.range 256).erase x.toNat) := by
    intro i hi
    have hi' : i < s.nLeaf.toNat := by simpa using hi
    have hne : s.symNumber i ≠ x.toNat := by
      intro hc
      have hi2 := index.1 i hi'
      rw [BitVec.eq_of_toNat_eq hc, hx] at hi2
      have := congrArg BitVec.toNat hi2
      simp [nil9] at this
      omega
    exact Finset.mem_erase.2 ⟨hne, Finset.mem_range.2 (s.node (BitVec.ofNat 9 i)).sym.isLt⟩
  have hinj : Set.InjOn s.symNumber (Finset.range s.nLeaf.toNat) := by
    intro i hi j hj hij
    have hi' : i < s.nLeaf.toNat := by simpa using hi
    have hj' : j < s.nLeaf.toNat := by simpa using hj
    have h := index.1 i hi'
    rw [BitVec.eq_of_toNat_eq hij, index.1 j hj'] at h
    have := congrArg BitVec.toNat h
    simp at this
    omega
  have hcard := Finset.card_le_card_of_injOn s.symNumber hmaps hinj
  rw [Finset.card_erase_of_mem (by simpa using x.isLt), Finset.card_range, Finset.card_range] at hcard
  omega

theorem toNat_nLeaf_addLeaf (s : State) (x : Sym) (w : Word) (h : s.nLeaf.toNat < 256) :
    (s.addLeaf x w).nLeaf.toNat = s.nLeaf.toNat + 1 := by
  simp [BitVec.toNat_add]; omega

/-- The new leaf is indexed by its symbol, the others as before. -/
theorem leafIndexed_addLeaf {s : State} (h : s.LeafIndexed) (hlen : s.arena.length = s.nLeaf.toNat)
    (hlt : s.nLeaf.toNat < 256) {x : Sym} (hx : s.leafOfSym x = nil9) (w : Word) : (s.addLeaf x w).LeafIndexed := by
  have hn' := toNat_nLeaf_addLeaf s x w hlt
  have hnew : s.nNode.toNat = s.nLeaf.toNat := by simp [State.nNode, hlen]
  refine ⟨?_, ?_⟩
  · intro i hi
    rw [hn'] at hi
    obtain hi | rfl := Nat.lt_succ_iff_lt_or_eq.1 hi
    · have hi' : (BitVec.ofNat 9 i).toNat < s.arena.length := by simp; omega
      have hold := h.1 i hi
      rw [node_addLeaf_of_lt s x w hi', leafOfSym_addLeaf, if_neg, hold]
      rintro rfl
      rw [hx] at hold
      have := congrArg BitVec.toNat hold
      simp [nil9] at this
      omega
    · rw [← hlen, ← State.nNode, node_addLeaf_self s x w (by omega), leafOfSym_addLeaf, if_pos rfl]
  · intro y
    rw [leafOfSym_addLeaf, hn']
    split
    · subst y
      exact .inr ⟨by omega, by rw [node_addLeaf_self s x w (by omega)]⟩
    · refine (h.2 y).imp_right fun ⟨hy, hsym⟩ => ⟨by omega, ?_⟩
      rw [node_addLeaf_of_lt s x w (by omega), hsym]

/-- A new leaf for a symbol without one, within the weight limit, keeps the invariant (R110, R123). -/
theorem State.Inv.addLeaf {s : State} (h : s.Inv) (hv : s.treeValid = false) {x : Sym} {w : Word}
    (hx : s.leafOfSym x = nil9) (hw : w ≠ 0#32) (hsum : s.totalW.toNat + w.toNat < 2 ^ 32) : (s.addLeaf x w).Inv := by
  obtain ⟨-, hroot, hseq, hct, hcode⟩ := h.noTree hv
  obtain ⟨hn, hlen, hleaf, htotal⟩ := h.onlyLeaves hv
  have hlt := nLeaf_lt_of_leafOfSym_eq_nil hn h.leafIndexed hx
  have hn' := toNat_nLeaf_addLeaf s x w hlt
  refine State.NoTree.inv (s := s.addLeaf x w) ⟨hv, hroot, hseq, hct, hcode⟩ h.machinesIdle h.errReserved
    h.buffersFit ⟨by omega, ?_, ?_, ?_⟩ (leafIndexed_addLeaf h.leafIndexed hlen hlt hx w)
  · simp only [addLeaf_fields, List.length_append, List.length_singleton] at hn' ⊢
    omega
  · intro n hn
    obtain hn | rfl : n ∈ s.arena ∨ n = ⟨true, x, w, nil9, nil9⟩ := by simpa using hn
    · exact hleaf n hn
    · exact ⟨rfl, rfl, rfl, hw⟩
  · simp [BitVec.toNat_add, htotal]; omega

/-! ## One more occurrence -/

/-- A symbol stays where it is when its leaf's weight grows. -/
theorem sym_node_bumpLeaf (s : State) {i : NodeId} (hi : i.toNat < s.arena.length) (j : NodeId) :
    ((s.bumpLeaf i).node j).sym = (s.node j).sym := by
  by_cases h : j = i
  · subst h; rw [node_bumpLeaf_self s hi]
  · rw [node_bumpLeaf_of_ne s h]

/-- One more occurrence within the weight limit keeps the invariant (R110). -/
theorem State.Inv.bumpLeaf {s : State} (h : s.Inv) (hv : s.treeValid = false) {i : NodeId}
    (hi : i.toNat < s.nLeaf.toNat) (hsum : s.totalW.toNat + 1 < 2 ^ 32) : (s.bumpLeaf i).Inv := by
  obtain ⟨-, hroot, hseq, hct, hcode⟩ := h.noTree hv
  obtain ⟨hn, hlen, hleaf, htotal⟩ := h.onlyLeaves hv
  -- the record split off from those before and after it
  obtain ⟨pre, n, post, harena, -, hmodify⟩ :=
    List.exists_of_modify (fun m : Node => { m with weight := m.weight + 1#32 }) (show i.toNat < s.arena.length by omega)
  have harena' := (bumpLeaf_fields s i).1.trans hmodify
  have hweight : n.weight.toNat + 1 < 2 ^ 32 := by
    rw [harena] at htotal
    simp at htotal
    omega
  refine State.NoTree.inv (s := s.bumpLeaf i) ⟨hv, hroot, hseq, hct, hcode⟩ h.machinesIdle h.errReserved
    h.buffersFit ⟨hn, by simpa using hlen, ?_, ?_⟩ ⟨?_, ?_⟩
  · intro m hm
    rw [harena'] at hm
    obtain hm | rfl | hm : m ∈ pre ∨ m = _ ∨ m ∈ post := by simpa using hm
    · exact hleaf m (by simp [harena, hm])
    · obtain ⟨hl, hleft, hright, -⟩ := hleaf n (by simp [harena])
      exact ⟨hl, hleft, hright, by bv_omega⟩
    · exact hleaf m (by simp [harena, hm])
  · rw [harena']
    rw [harena] at htotal
    simp [BitVec.toNat_add] at htotal ⊢
    omega
  · intro j hj
    rw [sym_node_bumpLeaf s (by omega)]
    exact h.leafIndexed.1 j hj
  · intro y
    rw [sym_node_bumpLeaf s (by omega)]
    exact h.leafIndexed.2 y

end Sys2Proof.Machine
end

section
/-! SUPPORT. The order of an arena (R22, R26): leaves first, then internal records, each after its children. BUILD keeps it
while it appends (R124), and it is what makes a root reach every node. -/

namespace Sys2Proof.Machine

/-- The records are the nodes with an identifier below `n_node`. -/
theorem mem_arena_iff {s : State} {n : Node} (h : s.arena.length < 512) :
    n ∈ s.arena ↔ ∃ i : NodeId, i.toNat < s.arena.length ∧ s.node i = n := by
  constructor
  · intro hn
    obtain ⟨j, hj, rfl⟩ := List.mem_iff_getElem.1 hn
    have hj' : (BitVec.ofNat 9 j).toNat = j := by simp; omega
    exact ⟨BitVec.ofNat 9 j, by omega, by rw [State.node, nodeAt_of_lt (by omega)]; simp only [hj']⟩
  · rintro ⟨i, hi, rfl⟩
    rw [State.node, nodeAt_of_lt hi]
    exact List.getElem_mem hi

/-- The arena in the order of the identifiers. -/
theorem arena_eq_map_node {s : State} (h : s.arena.length < 512) :
    s.arena = (List.range s.arena.length).map (fun j => s.node (BitVec.ofNat 9 j)) := by
  refine List.ext_getElem (by simp) fun j hj _ => ?_
  have hj' : (BitVec.ofNat 9 j).toNat = j := by simp; omega
  simp only [List.getElem_map, List.getElem_range, State.node]
  rw [nodeAt_of_lt (by omega)]
  simp only [hj']

/-- Leaves first, indexed by their symbols, then internal records, each after its children; and an identifier to spare, so
that NIL names no record. -/
structure State.Layered (s : State) : Prop where
  leavesFirst : s.LeavesFirst
  leafIndexed : s.LeafIndexed
  internal : ∀ i, i < s.arena.length → s.nLeaf.toNat ≤ i → s.InternalAt i
  length_lt : s.arena.length < 512

theorem State.Inv.layered {s : State} (h : s.Inv) : s.Layered := by
  refine ⟨h.leavesFirst, h.leafIndexed, h.treeShape.1, ?_⟩
  have hn := h.leavesFirst.1
  obtain ⟨-, hno, htree⟩ := h.treeShape
  cases hv : s.treeValid with
  | false => have := (hno hv).2.1; omega
  | true => have := (htree hv).2.1; omega

theorem parentCount_eq_child (s : State) (i : NodeId) :
    s.parentCount i = s.arena.countP (fun n => !n.leaf && decide (n.child false = i))
      + s.arena.countP (fun n => !n.leaf && decide (n.child true = i)) := rfl

namespace State.Layered

variable {s : State} (h : s.Layered)
include h

theorem nLeaf_le : s.nLeaf.toNat ≤ s.arena.length := h.leavesFirst.2.1

theorem isLeaf_of_lt {i : NodeId} (hi : i.toNat < s.nLeaf.toNat) : (s.node i).IsLeaf := by
  have hi' : i.toNat < s.arena.length := hi.trans_le h.nLeaf_le
  rw [State.node, nodeAt_of_lt hi']
  exact h.leavesFirst.2.2.1 _ (List.mem_take_iff_getElem.2 ⟨i.toNat, by omega, rfl⟩)

theorem internalRecord {i : NodeId} (hi : i.toNat < s.arena.length) (hge : s.nLeaf.toNat ≤ i.toNat) :
    s.InternalRecord i.toNat (s.node i) := by
  simpa only [State.InternalAt, BitVec.ofNat_toNat, BitVec.setWidth_eq] using h.internal i.toNat hi hge

theorem leaf_iff {i : NodeId} (hi : i.toNat < s.arena.length) : (s.node i).leaf = true ↔ i.toNat < s.nLeaf.toNat := by
  refine ⟨fun hl => ?_, fun hlt => (h.isLeaf_of_lt hlt).1⟩
  by_contra hge
  simp [(h.internalRecord hi (by omega)).1] at hl

/-- An internal node comes after the leaves, and after both its children. -/
theorem child_lt {i : NodeId} (hi : i.toNat < s.arena.length) (hl : (s.node i).leaf = false) :
    s.nLeaf.toNat ≤ i.toNat ∧ ∀ v, ((s.node i).child v).toNat < i.toNat := by
  have hge : s.nLeaf.toNat ≤ i.toNat := by
    by_contra hlt
    simp [(h.leaf_iff hi).2 (by omega)] at hl
  obtain ⟨-, -, hleft, hright, -⟩ := h.internalRecord hi hge
  refine ⟨hge, fun v => ?_⟩
  cases v
  · exact hleft
  · exact hright

/-- The last record, and what is above it, is nobody's child. -/
theorem parentCount_eq_zero {i : NodeId} (hi : s.arena.length ≤ i.toNat + 1) : s.parentCount i = 0 := by
  have hchild (v : Bool) : ∀ n ∈ s.arena, ¬ (!n.leaf && decide (n.child v = i)) = true := by
    intro n hn hc
    obtain ⟨j, hj, rfl⟩ := (mem_arena_iff h.length_lt).1 hn
    obtain ⟨hl, rfl⟩ : (s.node j).leaf = false ∧ (s.node j).child v = i := by simpa using hc
    have := (h.child_lt hj hl).2 v
    omega
  rw [parentCount_eq_child, List.countP_eq_zero.2 (hchild false), List.countP_eq_zero.2 (hchild true)]

/-- A child has a parent. -/
theorem exists_parent {i : NodeId} (hi : s.parentCount i ≠ 0) :
    ∃ j v, j.toNat < s.arena.length ∧ (s.node j).leaf = false ∧ (s.node j).child v = i := by
  have hparent (v : Bool) (hpos : 0 < s.arena.countP (fun n => !n.leaf && decide (n.child v = i))) :
      ∃ j v, j.toNat < s.arena.length ∧ (s.node j).leaf = false ∧ (s.node j).child v = i := by
    obtain ⟨n, hn, hc⟩ := List.countP_pos_iff.1 hpos
    obtain ⟨j, hj, rfl⟩ := (mem_arena_iff h.length_lt).1 hn
    exact ⟨j, v, hj, by simpa using hc⟩
  obtain hleft | hright : 0 < s.arena.countP (fun n => !n.leaf && decide (n.child false = i))
      ∨ 0 < s.arena.countP (fun n => !n.leaf && decide (n.child true = i)) := by
    rw [parentCount_eq_child] at hi
    omega
  · exact hparent false hleft
  · exact hparent true hright

/-- An internal record appended after its children keeps the order. -/
theorem addNode {n : Node} (hn : s.InternalRecord s.arena.length n) (hlen : s.arena.length < 511) :
    (s.addNode n).Layered := by
  have hold {i : NodeId} (hi : i.toNat < s.arena.length) : (s.addNode n).node i = s.node i := node_addNode_of_lt s n hi
  obtain ⟨h256, hle, hleaf, hsum⟩ := h.leavesFirst
  have htake : (s.arena ++ [n]).take s.nLeaf.toNat = s.arena.take s.nLeaf.toNat := List.take_append_of_le_length hle
  refine ⟨⟨h256, by simp; omega, by simpa [htake] using hleaf, by simpa [htake] using hsum⟩, ⟨?_, ?_⟩, ?_, by simp; omega⟩
  · intro i hi
    rw [hold (by simp at hi ⊢; omega)]
    exact h.leafIndexed.1 i hi
  · intro x
    refine (h.leafIndexed.2 x).imp_right fun ⟨hx, hsym⟩ => ⟨hx, ?_⟩
    exact (congrArg Node.sym (hold (i := s.leafOfSym x) (by omega))).trans hsym
  · intro i hi hge
    have hrec : s.InternalRecord i ((s.addNode n).node (BitVec.ofNat 9 i)) := by
      obtain hi | rfl : i < s.arena.length ∨ i = s.arena.length := by simp at hi; omega
      · rw [hold (by simp; omega)]; exact h.internal i hi hge
      · rw [← State.nNode, node_addNode_self s n h.length_lt]; exact hn
    obtain ⟨hl, hs, hleft, hright, hw⟩ := hrec
    have hi' : i ≤ s.arena.length := by simp at hi; omega
    refine ⟨hl, hs, hleft, hright, ?_⟩
    rw [hold (hleft.trans_le hi'), hold (hright.trans_le hi'), hw]

end State.Layered

/-- A new internal record is the parent of its two children. -/
theorem parentCount_addNode (s : State) {n : Node} (hn : n.leaf = false) (i : NodeId) :
    (s.addNode n).parentCount i
      = s.parentCount i + ((if n.left = i then 1 else 0) + if n.right = i then 1 else 0) := by
  simp only [State.parentCount, addNode_fields, List.countP_append, List.countP_singleton, hn, Bool.not_false,
    Bool.true_and, decide_eq_true_eq]
  omega

end Sys2Proof.Machine
end

section
/-! SUPPORT. BUILD keeps the invariant (R124, R126): the loop invariant of the merges. Every node is either in the queue or
the child of exactly one internal node, and the weights in the queue sum up to the total. -/

namespace Sys2Proof.Machine

/-! ## Seeding -/

/-- Insertion puts one entry in and keeps the others (R121). -/
theorem pqInsert_perm (e : PqEntry) (q : List PqEntry) : (pqInsert e q).Perm (e :: q) := by
  rw [pqInsert]
  exact List.perm_middle.trans (by rw [List.take_append_drop])

/-- The entry of node `j`, whose sequence number is its identifier (R28). -/
def State.entryOf (s : State) (j : Nat) : PqEntry :=
  ⟨(s.node (BitVec.ofNat 9 j)).weight, BitVec.ofNat 9 j, BitVec.ofNat 9 j⟩

/-- Seeding puts the entries of the seeded leaves into the queue (R124). -/
theorem seedLeaves_pq_perm (k i : Nat) (s : State) (hseq : s.seqCtr = BitVec.ofNat 9 i) :
    (seedLeaves k i s).pq.Perm (s.pq ++ (List.range' i k).map s.entryOf)
      ∧ (seedLeaves k i s).seqCtr = BitVec.ofNat 9 (i + k) := by
  induction k generalizing i s with
  | zero => simp [seedLeaves, hseq]
  | succ k ih =>
    have hpq : (seedLeaf (BitVec.ofNat 9 i) s).pq.Perm (s.entryOf i :: s.pq) := by
      simpa [seedLeaf, hseq, State.entryOf] using pqInsert_perm _ _
    obtain ⟨hperm, hseq'⟩ := ih (i + 1) (seedLeaf (BitVec.ofNat 9 i) s)
      (by simp [seedLeaf, hseq, BitVec.ofNat_add])
    refine ⟨?_, by rw [seedLeaves, hseq']; congr 1; omega⟩
    calc (seedLeaves (k + 1) i s).pq
        |>.Perm ((seedLeaf (BitVec.ofNat 9 i) s).pq ++ (List.range' (i + 1) k).map s.entryOf) := hperm
      _ |>.Perm (s.entryOf i :: s.pq ++ (List.range' (i + 1) k).map s.entryOf) := hpq.append_right _
      _ |>.Perm (s.pq ++ (List.range' i (k + 1)).map s.entryOf) := List.perm_middle.symm

/-! ## Merging -/

/-- The loop invariant of BUILD (R124): the queue holds the roots of the trees made so far. -/
structure State.Growing (g : State) : Prop where
  layered : g.Layered
  /-- One record more is one entry less. -/
  size : g.arena.length + g.pq.length = 2 * g.nLeaf.toNat
  seq : g.seqCtr = g.nNode
  queued : ∀ e ∈ g.pq, e.id.toNat < g.arena.length ∧ (g.node e.id).weight = e.weight
  /-- Every node is once in the queue or once a child. -/
  once : ∀ i : NodeId, i.toNat < g.arena.length → g.parentCount i + (g.pq.map (·.id)).count i = 1
  total : (g.pq.map (fun e => e.weight.toNat)).sum = g.totalW.toNat

/-- The merged nodes `a` and `b` leave the queue and become children; the new node enters the queue. -/
theorem once_of_merge {g : State} (hlay : g.Layered) {a b : PqEntry} {q : List PqEntry}
    (ha : a.id.toNat < g.arena.length) (hb : b.id.toNat < g.arena.length) (hq : ∀ f ∈ q, f.id.toNat < g.arena.length)
    (honce : ∀ i : NodeId, i.toNat < g.arena.length →
      g.parentCount i + ((a :: b :: q).map (·.id)).count i = 1)
    {i : NodeId} (hi : i.toNat < g.arena.length + 1) {w : Weight} {k : BitVec 9} :
    g.parentCount i + ((if a.id = i then 1 else 0) + if b.id = i then 1 else 0)
      + (((⟨w, k, g.nNode⟩ : PqEntry) :: q).map (·.id)).count i = 1 := by
  have hnew : g.nNode.toNat = g.arena.length := by
    have := hlay.length_lt
    simp [State.nNode]; omega
  by_cases hlt : i.toNat < g.arena.length
  · have hne : g.nNode ≠ i := by rintro rfl; omega
    have := honce i hlt
    simp only [List.map_cons, List.count_cons, beq_iff_eq, if_neg hne] at this ⊢
    omega
  · obtain rfl : g.nNode = i := BitVec.eq_of_toNat_eq (by omega)
    have hzero : (q.map (·.id)).count g.nNode = 0 := by
      refine List.count_eq_zero.2 fun hm => ?_
      obtain ⟨f, hf, hid⟩ := List.mem_map.1 hm
      have := hq f hf
      rw [hid] at this
      omega
    have hna : a.id ≠ g.nNode := by intro hc; rw [hc] at ha; omega
    have hnb : b.id ≠ g.nNode := by intro hc; rw [hc] at hb; omega
    simp [hlay.parentCount_eq_zero (i := g.nNode) (by omega), hzero, hna, hnb]

/-- One merge keeps the loop invariant. -/
theorem State.Growing.mergeNodes {g : State} (h : g.Growing) {a b : PqEntry} {q : List PqEntry}
    (hpq : g.pq = a :: b :: q) : (mergeNodes a b { g with pq := q }).Growing := by
  obtain ⟨hlay, hsize, hseq, hqueued, honce, htotal⟩ := h
  rw [hpq] at hsize hqueued honce htotal
  have hlen : g.arena.length < 511 := by
    have := hlay.leavesFirst.1
    simp at hsize
    omega
  obtain ⟨ha, hwa⟩ := hqueued a (by simp)
  obtain ⟨hb, hwb⟩ := hqueued b (by simp)
  have hsum : (a.weight + b.weight).toNat = a.weight.toNat + b.weight.toNat := by
    simp at htotal
    rw [BitVec.toNat_add]
    omega
  let n : Node := ⟨false, 0#8, a.weight + b.weight, a.id, b.id⟩
  have hlay' : (g.addNode n).Layered := hlay.addNode ⟨rfl, rfl, ha, hb, by rw [hwa, hwb]; exact hsum⟩ hlen
  have hnew : g.nNode.toNat = g.arena.length := by simp [State.nNode]; omega
  let e : PqEntry := ⟨a.weight + b.weight, g.seqCtr, g.nNode⟩
  have hperm : (pqInsert e q).Perm (e :: q) := pqInsert_perm e q
  refine ⟨⟨hlay'.1, hlay'.2, hlay'.3, hlay'.4⟩, ?_, ?_, ?_, ?_, ?_⟩
  · show (g.arena ++ [n]).length + (pqInsert e q).length = 2 * g.nLeaf.toNat
    simp at hsize ⊢
    omega
  · simp [mergeNodes_fields, State.nNode, hseq, BitVec.ofNat_add]
  · intro f hf
    show _ < (g.arena ++ [n]).length ∧ ((g.addNode n).node f.id).weight = f.weight
    obtain rfl | hf := List.mem_cons.1 (hperm.mem_iff.1 hf)
    · exact ⟨by simp [e, hnew], by rw [node_addNode_self g n hlay.length_lt]⟩
    · obtain ⟨hid, hw⟩ := hqueued f (by simp [hf])
      exact ⟨by simp; omega, by rw [node_addNode_of_lt g n hid, hw]⟩
  · intro i hi
    have hi' : i.toNat < g.arena.length + 1 := by simpa [mergeNodes_fields] using hi
    show (g.addNode n).parentCount i + ((pqInsert e q).map (·.id)).count i = 1
    rw [parentCount_addNode g rfl, (hperm.map (·.id)).count_eq]
    exact once_of_merge hlay ha hb (fun f hf => (hqueued f (by simp [hf])).1) honce hi'
  · show ((pqInsert e q).map (fun f => f.weight.toNat)).sum = g.totalW.toNat
    rw [(hperm.map _).sum_eq, ← htotal]
    simp [e, hsum]
    omega

theorem State.Growing.mergeLoop (k : Nat) {g : State} (h : g.Growing) : (mergeLoop k g).Growing := by
  induction k generalizing g with
  | zero => exact h
  | succ k ih =>
    rw [Machine.mergeLoop]
    split
    · exact ih (h.mergeNodes ‹_›)
    · exact h

/-- A queue with one entry for each leaf meets the loop invariant before the first merge. -/
theorem State.Inv.growing {s : State} (h : s.Inv) (hv : s.treeValid = false) {q : List PqEntry}
    (hq : q.Perm ((List.range s.nLeaf.toNat).map s.entryOf)) :
    State.Growing { s with pq := q, seqCtr := BitVec.ofNat 9 s.nLeaf.toNat } := by
  have hlay := h.layered
  obtain ⟨h256, hlen, hleaf, htotal⟩ := h.onlyLeaves hv
  refine ⟨⟨hlay.1, hlay.2, hlay.3, hlay.4⟩, ?_, ?_, ?_, ?_, ?_⟩
  · simp [hq.length_eq]; omega
  · simp [State.nNode, hlen]
  · intro e he
    obtain ⟨j, hj, rfl⟩ := List.mem_map.1 (hq.mem_iff.1 he)
    have hj' : j < s.arena.length := by simpa [hlen] using hj
    exact ⟨by simp [State.entryOf]; omega, rfl⟩
  · intro i hi
    have hi' : i.toNat < s.nLeaf.toNat := hlen ▸ hi
    have hids : (q.map (·.id)).Perm ((List.range s.nLeaf.toNat).map (BitVec.ofNat 9)) := by
      simpa [State.entryOf, Function.comp_def] using hq.map (·.id)
    have hnodup : ((List.range s.nLeaf.toNat).map (BitVec.ofNat 9)).Nodup := by
      refine List.Nodup.map_on (fun j hj k hk hjk => ?_) List.nodup_range
      have := congrArg BitVec.toNat hjk
      simp at this hj hk
      omega
    have hmem : i ∈ (List.range s.nLeaf.toNat).map (BitVec.ofNat 9) := by
      exact List.mem_map.2 ⟨i.toNat, by simpa using hi', by simp⟩
    have hchildless : s.parentCount i = 0 := by
      have hzero (c : Node → Bool) : s.arena.countP (fun n => !n.leaf && c n) = 0 :=
        List.countP_eq_zero.2 fun n hn => by simp [(hleaf n hn).1]
      simp [State.parentCount, hzero]
    show s.parentCount i + (q.map (·.id)).count i = 1
    rw [hids.count_eq, hchildless, List.count_eq_one_of_mem hnodup hmem]
  · show (q.map (fun e => e.weight.toNat)).sum = s.totalW.toNat
    rw [(hq.map _).sum_eq, ← htotal, arena_eq_map_node hlay.length_lt, hlen]
    simp [State.entryOf, Function.comp_def]

/-- The loop invariant holds when the merges are done. -/
theorem growing_growTree {s : State} (h : s.Inv) (hv : s.treeValid = false) : (growTree s).Growing := by
  obtain ⟨hperm, hseq⟩ := seedLeaves_pq_perm s.nLeaf.toNat 0 s.emptyQueue rfl
  have hseed : (seedLeaves s.nLeaf.toNat 0 s.emptyQueue).Growing := by
    rw [seedLeaves_frame, hseq, Nat.zero_add]
    exact h.growing hv (by rw [List.range_eq_range']; exact hperm)
  exact hseed.mergeLoop s.nLeaf.toNat

/-- The last entry is that of the last record: it is nobody's child, so it is in the queue. -/
theorem State.Growing.last_is_queued {g : State} (h : g.Growing) {r : PqEntry} (hpq : g.pq = [r]) :
    r.id.toNat + 1 = g.arena.length := by
  obtain ⟨hr, -⟩ := h.queued r (by simp [hpq])
  have hlen := h.layered.length_lt
  have hlast : (BitVec.ofNat 9 (g.arena.length - 1)).toNat = g.arena.length - 1 := by simp; omega
  have hid : r.id = BitVec.ofNat 9 (g.arena.length - 1) := by
    have honce := h.once (BitVec.ofNat 9 (g.arena.length - 1)) (by omega)
    rw [h.layered.parentCount_eq_zero (by omega), hpq] at honce
    by_contra hne
    simp [hne] at honce
  rw [hid, hlast]
  omega

/-- Every other node is a child by then. -/
theorem State.Growing.parentCount_eq_one {g : State} (h : g.Growing) {r : PqEntry} (hpq : g.pq = [r]) {i : Nat}
    (hi : i < g.arena.length - 1) : g.parentCount (BitVec.ofNat 9 i) = 1 := by
  have hlen := h.layered.length_lt
  have hi' : (BitVec.ofNat 9 i).toNat = i := by simp; omega
  have hne : r.id ≠ BitVec.ofNat 9 i := by
    intro hc
    have := h.last_is_queued hpq
    rw [hc] at this
    omega
  simpa [hpq, hne] using h.once (BitVec.ofNat 9 i) (by omega)

/-- A successful BUILD keeps the invariant. -/
theorem Effect.inv_build {s u : State} (h : Effect .build s u) (hs : s.Inv) : u.Inv := by
  obtain ⟨hv, hn, r, q, hpq, rfl⟩ := h
  obtain ⟨-, -, -, hct, hcode⟩ := hs.noTree hv
  obtain ⟨-, hcg, hde, -, hstk, -⟩ := hs.machinesIdle
  -- one entry is left
  obtain rfl : q = [] := by
    have hone := (growTree_pq_length s hn).1
    rw [hpq] at hone
    simpa using hone
  have hg := growing_growTree hs hv
  have hlast := hg.last_is_queued hpq
  have hchild {i : Nat} := hg.parentCount_eq_one (i := i) hpq
  obtain ⟨hlay, hsize, hseq, hqueued, -, htotal⟩ := hg
  rw [hpq] at hsize hqueued htotal
  obtain ⟨-, hwr⟩ := hqueued r (by simp)
  -- the rest of the state is that of `s`
  have hcg' : (growTree s).cgState = .idle := by rw [growTree_frame]; exact hcg
  have hde' : (growTree s).deState = .idle := by rw [growTree_frame]; exact hde
  have hstk' : (growTree s).stk = [] := by rw [growTree_frame]; exact hstk
  have herr : (growTree s).ErrReserved := by rw [growTree_frame]; exact hs.errReserved
  have hfit : (growTree s).BuffersFit := by rw [growTree_frame]; exact hs.buffersFit
  have hct' : (growTree s).ctValid = false := by rw [growTree_frame]; exact hct
  have hcode' (x : Sym) : (growTree s).codeOf x = none := by rw [growTree_frame]; exact hcode x
  refine ⟨⟨rfl, hcg', hde', rfl, hstk', rfl⟩, herr, hfit, hlay.leavesFirst, hlay.leafIndexed,
    ⟨hlay.internal, nofun, fun _ => ⟨?_, hsize, hlast, ?_, hseq, fun i hi => ?_⟩⟩,
    by simp [hct'], fun x => ?_⟩
  · show 1 ≤ (growTree s).nLeaf.toNat
    simp at hsize
    omega
  · show ((growTree s).node r.id).weight = (growTree s).totalW
    exact BitVec.eq_of_toNat_eq (by rw [hwr, ← htotal]; simp)
  · exact hchild hi
  · show ((growTree s).ctValid = true → _) ∧ ∀ c ∈ ((growTree s).codeOf x).toList, _
    simp [hct', hcode']

end Sys2Proof.Machine
end

section
/-! SUPPORT. GEN keeps the invariant (R30, R140, R144): the loop invariant of the traversal. A stack entry holds the path to
its node, an entry of the table the path to its symbol's leaf, and every leaf without a code is still below the stack. -/

namespace Sys2Proof.Machine

/-! ## Paths -/

/-- A path goes on to a child. -/
theorem follow_snoc {s : State} {i j : NodeId} {p : BitSeq} (h : s.follow i p = some j) (hl : (s.node j).leaf = false)
    (v : Bool) : s.follow i (p ++ [v]) = some ((s.node j).child v) := by
  rw [follow_append, h]
  simp [State.follow, hl]

/-- No path leaves a leaf. -/
theorem follow_of_leaf {s : State} {i j : NodeId} {p : BitSeq} (h : s.follow i p = some j) (hl : (s.node i).leaf = true) :
    j = i := by
  cases p with
  | nil => simpa [State.follow] using h.symm
  | cons v p => simp [State.follow, hl] at h

/-- A path from an internal node to another node goes through one of its children. -/
theorem follow_of_internal {s : State} {i j : NodeId} {p : BitSeq} (h : s.follow i p = some j)
    (hl : (s.node i).leaf = false) (hne : j ≠ i) : ∃ v q, s.follow ((s.node i).child v) q = some j := by
  cases p with
  | nil => exact absurd (by simpa [State.follow] using h.symm) hne
  | cons v q => exact ⟨v, q, by simpa [State.follow, hl] using h⟩

/-- The root of a tree reaches every node (R26): go up from parent to parent. -/
theorem State.Inv.root_reaches {s : State} (h : s.Inv) (hv : s.treeValid = true) (i : NodeId)
    (hi : i.toNat < s.arena.length) : ∃ p, s.follow s.root p = some i := by
  obtain ⟨-, -, hroot, -, -, honce⟩ := h.treeShape.2.2 hv
  induction hk : s.arena.length - i.toNat using Nat.strong_induction_on generalizing i with
  | _ k ih =>
    by_cases hlast : i.toNat + 1 = s.arena.length
    · obtain rfl : s.root = i := BitVec.eq_of_toNat_eq (by omega)
      exact ⟨[], rfl⟩
    · have hparent : s.parentCount i = 1 := by simpa using honce i.toNat (by omega)
      obtain ⟨j, v, hj, hl, rfl⟩ := h.layered.exists_parent (i := i) (by omega)
      have hlt := (h.layered.child_lt hj hl).2 v
      obtain ⟨p, hp⟩ := ih (s.arena.length - j.toNat) (by omega) j hj rfl
      exact ⟨p ++ [v], follow_snoc hp hl v⟩

/-! ## The leaf index -/

namespace State.Layered

variable {s : State} (h : s.Layered)
include h

/-- A symbol's leaf. -/
theorem leafOfSym_of_ne_nil {x : Sym} (hx : s.leafOfSym x ≠ nil9) :
    (s.leafOfSym x).toNat < s.nLeaf.toNat ∧ (s.node (s.leafOfSym x)).sym = x :=
  (h.leafIndexed.2 x).resolve_left hx

/-- A leaf's symbol. -/
theorem leafOfSym_sym {i : NodeId} (hi : i.toNat < s.nLeaf.toNat) : s.leafOfSym (s.node i).sym = i := by
  simpa using h.leafIndexed.1 i.toNat hi

end State.Layered

/-! ## The traversal -/

/-- The entry holds the path from the root to its node, no longer than the number of internal nodes from that node on. -/
def State.OnPath (s : State) (e : StkEntry) : Prop :=
  e.id.toNat < s.arena.length ∧ s.follow s.root e.path = some e.id
    ∧ e.path.length + max e.id.toNat (s.nLeaf.toNat - 1) ≤ s.root.toNat

/-- `c` is the path to the leaf of symbol `x`, and fits a code (R30). -/
def State.PathFor (s : State) (x : Sym) (c : BitSeq) : Prop :=
  s.leafOfSym x ≠ nil9 ∧ c.length ≤ 255 ∧ s.follow s.root c = some (s.leafOfSym x)

/-- The loop invariant of GEN on the tree of `s`, for the state `w` of the traversal (R140). -/
structure Walking (s w : State) : Prop where
  arena : w.arena = s.arena
  stack : ∀ e ∈ w.stk, s.OnPath e
  table : ∀ x c, w.codeOf x = some c → s.PathFor x c
  covered : ∀ x, s.leafOfSym x ≠ nil9 →
    w.codeOf x ≠ none ∨ ∃ e ∈ w.stk, ∃ p, s.follow e.id p = some (s.leafOfSym x)

/-- A leaf is visited: its symbol gets the path as its code. -/
theorem Walking.visit_leaf {s w : State} (h : Walking s w) (hs : s.Inv) (hv : s.treeValid = true) {e : StkEntry}
    {rest : List StkEntry} (hstk : w.stk = e :: rest) (hl : (s.node e.id).leaf = true) :
    Walking s { w.setCode (s.node e.id).sym e.path with stk := rest, count := w.count + 1#9 } := by
  obtain ⟨harena, hstack, htable, hcovered⟩ := h
  rw [hstk] at hstack hcovered
  obtain ⟨hid, hpath, hlen⟩ := hstack e (by simp)
  have hlay := hs.layered
  have hlt := (hlay.leaf_iff hid).1 hl
  have hleaf := hlay.leafOfSym_sym hlt
  obtain ⟨-, hsize, hroot, -⟩ := hs.treeShape.2.2 hv
  have h256 := hlay.leavesFirst.1
  have hcode (x : Sym) : State.codeOf { w.setCode (s.node e.id).sym e.path with stk := rest, count := w.count + 1#9 } x
      = if x = (s.node e.id).sym then some e.path else w.codeOf x := codeOf_setCode w _ x e.path
  refine ⟨harena, fun f hf => hstack f (by simp [show f ∈ rest from hf]), fun x c hc => ?_, fun x hx => ?_⟩
  · rw [hcode] at hc
    split at hc
    · cases hc
      subst x
      refine ⟨?_, by omega, by rw [hleaf, hpath]⟩
      rw [hleaf]
      rintro hnil
      rw [hnil] at hlt
      simp [nil9] at hlt
      omega
    · exact htable x c hc
  · rw [hcode]
    split
    · exact .inl nofun
    · rename_i hne
      refine (hcovered x hx).imp_right fun ⟨f, hf, p, hp⟩ => ⟨f, ?_, p, hp⟩
      obtain rfl | hf := List.mem_cons.1 hf
      · have hxe : s.leafOfSym x = f.id := follow_of_leaf hp hl
        exact absurd (hxe ▸ (hlay.leafOfSym_of_ne_nil hx).2).symm hne
      · exact hf

/-- An internal node is visited: its children take its place on the stack. -/
theorem Walking.visit_internal {s w : State} (h : Walking s w) (hs : s.Inv) {e : StkEntry}
    {rest : List StkEntry} (hstk : w.stk = e :: rest) (hl : (s.node e.id).leaf = false) :
    Walking s { w with
      stk := ⟨(s.node e.id).left, e.path ++ [false]⟩ :: ⟨(s.node e.id).right, e.path ++ [true]⟩ :: rest } := by
  obtain ⟨harena, hstack, htable, hcovered⟩ := h
  rw [hstk] at hstack hcovered
  obtain ⟨hid, hpath, hlen⟩ := hstack e (by simp)
  have hlay := hs.layered
  obtain ⟨hge, hchild⟩ := hlay.child_lt hid hl
  have hon (v : Bool) : s.OnPath ⟨(s.node e.id).child v, e.path ++ [v]⟩ := by
    have := hchild v
    refine ⟨by dsimp only; omega, follow_snoc hpath hl v, ?_⟩
    simp only [List.length_append, List.length_singleton]
    omega
  refine ⟨harena, fun f hf => ?_, htable, fun x hx => (hcovered x hx).imp_right fun ⟨f, hf, p, hp⟩ => ?_⟩
  · simp only [List.mem_cons] at hf
    obtain rfl | rfl | hf := hf
    · exact hon false
    · exact hon true
    · exact hstack f (by simp [hf])
  · obtain rfl | hf := List.mem_cons.1 hf
    · have hne : s.leafOfSym x ≠ f.id := by
        intro hc
        have := (hlay.leafOfSym_of_ne_nil hx).1
        rw [hc] at this
        omega
      obtain ⟨v, q, hq⟩ := follow_of_internal hp hl hne
      cases v
      · exact ⟨⟨(s.node f.id).left, f.path ++ [false]⟩, by simp, q, hq⟩
      · exact ⟨⟨(s.node f.id).right, f.path ++ [true]⟩, by simp, q, hq⟩
    · exact ⟨f, by simp [hf], p, hp⟩

theorem Walking.visitNode {s w : State} (h : Walking s w) (hs : s.Inv) (hv : s.treeValid = true) {e : StkEntry}
    {rest : List StkEntry} (hstk : w.stk = e :: rest) : Walking s (visitNode e rest w) := by
  have hnode := node_congr h.arena e.id
  cases hl : (s.node e.id).leaf with
  | true =>
    rw [visitNode_leaf (hnode ▸ hl), hnode]
    exact h.visit_leaf hs hv hstk hl
  | false =>
    rw [visitNode_internal (hnode ▸ hl), hnode]
    exact h.visit_internal hs hstk hl

theorem Walking.walkTree {s w t : State} (h : Walking s w) (hs : s.Inv) (hv : s.treeValid = true) {k : Nat}
    (hw : walkTree k w = some t) : Walking s t := by
  induction k generalizing w with
  | zero =>
    match hstk : w.stk with
    | [] => rw [walkTree_nil hstk] at hw; cases hw; exact h
    | e :: rest => rw [walkTree_zero_cons hstk] at hw; cases hw
  | succ k ih =>
    match hstk : w.stk with
    | [] => rw [walkTree_nil hstk] at hw; cases hw; exact h
    | e :: rest =>
      rw [walkTree_cons hstk] at hw
      exact ih (h.visitNode hs hv hstk) hw

/-- The traversal starts with the root on the stack, which reaches every leaf. -/
theorem walking_startWalk {s : State} (hs : s.Inv) (hv : s.treeValid = true) (hl : (s.node s.root).leaf = false) :
    Walking s (startWalk s) := by
  obtain ⟨-, -, hroot, -⟩ := hs.treeShape.2.2 hv
  have hlay := hs.layered
  have hge := (hlay.child_lt (i := s.root) (by omega) hl).1
  have hcode (x : Sym) : (startWalk s).codeOf x = none := codeOf_clearTable s x
  refine ⟨rfl, fun e he => ?_, fun x c hc => by simp [hcode] at hc, fun x hx => .inr ⟨⟨s.root, []⟩, by simp [startWalk], ?_⟩⟩
  · obtain rfl : e = ⟨s.root, []⟩ := by simpa [startWalk] using he
    exact ⟨by dsimp only; omega, rfl, by simp; omega⟩
  · exact hs.root_reaches hv _ ((hlay.leafOfSym_of_ne_nil hx).1.trans_le hlay.nLeaf_le)

/-! ## The command -/

/-- `t` is `s` with a new table and, for every symbol, the entry GEN writes. -/
structure TableWritten (s t : State) : Prop where
  frame : t = { s with ct := t.ct, stk := [], count := t.count }
  mapped : ∀ x, s.leafOfSym x ≠ nil9 → t.codeOf x ≠ none
  entry : ∀ x c, t.codeOf x = some c → s.EntryFor x c

/-- Declaring the table valid keeps the invariant. -/
theorem TableWritten.inv {s t : State} (h : TableWritten s t) (hs : s.Inv) (hv : s.treeValid = true) :
    (State.forgetWalker { t with ctValid := true, cgState := .idle }).Inv := by
  obtain ⟨hframe, hmapped, hentry⟩ := h
  obtain ⟨table, n, rfl⟩ : ∃ table n, t = { s with ct := table, stk := [], count := n } := ⟨_, _, hframe⟩
  obtain ⟨htb, -, hde, hpq, -, hcur⟩ := hs.machinesIdle
  have tree : SameTree s (State.forgetWalker
      { { s with ct := table, stk := [], count := n } with ctValid := true, cgState := .idle }) :=
    ⟨rfl, rfl, rfl, rfl, rfl, rfl⟩
  exact hs.of_sameTree tree rfl ⟨htb, rfl, hde, hpq, rfl, hcur⟩ hs.errReserved hs.buffersFit
    ⟨fun _ => hv, fun x => ⟨fun _ => hmapped x, fun c hc =>
      ⟨rfl, (entryFor_congr tree x c).2 (hentry x c (Option.mem_toList.1 hc))⟩⟩⟩

/-- The degenerate tree has one symbol, with the fixed code "0". -/
theorem tableWritten_degenerate {s : State} (hs : s.Inv) (hv : s.treeValid = true) (hl : (s.node s.root).leaf = true) :
    TableWritten s (degenerateTable s) := by
  obtain ⟨-, hsize, hroot, -⟩ := hs.treeShape.2.2 hv
  have hlay := hs.layered
  have hlt := (hlay.leaf_iff (i := s.root) (by omega)).1 hl
  have hleaf := hlay.leafOfSym_sym hlt
  have hcode (x : Sym) : (degenerateTable s).codeOf x = if x = (s.node s.root).sym then some [false] else none := by
    have h := codeOf_setCode s.clearTable (s.node s.root).sym x [false]
    rwa [codeOf_clearTable] at h
  refine ⟨?_, fun x hx => ?_, fun x c hc => ?_⟩
  · rw [← hs.machinesIdle.2.2.2.2.1]; rfl
  · -- a symbol with a leaf has the only one
    obtain ⟨hxlt, hsym⟩ := hlay.leafOfSym_of_ne_nil hx
    have hx0 : s.leafOfSym x = s.root := BitVec.eq_of_toNat_eq (by omega)
    rw [hcode, if_pos (by rw [← hx0, hsym])]
    exact nofun
  · rw [hcode] at hc
    split at hc
    · cases hc
      subst x
      refine ⟨?_, by decide, fun _ => rfl, by simp [hl]⟩
      rw [hleaf]
      intro hnil
      rw [hnil] at hroot
      have := hlay.leavesFirst.1
      simp [nil9] at hroot
      omega
    · cases hc

/-- A traversal that has ended has written every entry: nothing is left below an empty stack. -/
theorem tableWritten_walkTree {s t : State} (hs : s.Inv) (hv : s.treeValid = true) (hl : (s.node s.root).leaf = false)
    {k : Nat} (ht : walkTree k (startWalk s) = some t) : TableWritten s t := by
  obtain ⟨-, -, htable, hcovered⟩ := (walking_startWalk hs hv hl).walkTree hs hv ht
  have hframe := walkTree_frame ht
  refine ⟨hframe, fun x hx => (hcovered x hx).resolve_right ?_, fun x c hc => ?_⟩
  · rintro ⟨e, he, -⟩
    rw [hframe] at he
    cases he
  · obtain ⟨hx, hlen, hpath⟩ := htable x c hc
    exact ⟨hx, hlen, by simp [hl], fun _ => hpath⟩

/-- A successful GEN keeps the invariant. -/
theorem Effect.inv_gen {s u : State} (h : Effect .gen s u) (hs : s.Inv) : u.Inv := by
  obtain ⟨hv, ⟨hl, rfl⟩ | ⟨hl, t, ht, rfl⟩⟩ := h
  · exact (tableWritten_degenerate hs hv hl).inv hs hv
  · exact (tableWritten_walkTree hs hv hl ht).inv hs hv

end Sys2Proof.Machine
end

section
/-! SUPPORT. DECODE keeps the output within its capacity (R34, R165), and every step keeps the invariant (R22 to R35, R42). -/

namespace Sys2Proof.Machine

/-! ## The output buffer -/

/-- At most one symbol has been emitted from `s` to `t`, and only where the output buffer was not full (R165). -/
def EmitsAtMostOne (s t : State) : Prop :=
  t.outbuf = s.outbuf ∨ (s.outbuf.length ≠ s.params.outCap ∧ ∃ x, t.outbuf = s.outbuf ++ [x])

theorem emitsAtMostOne_of_emit {x : Sym} {s t : State} (h : emit x s = .ok t) : EmitsAtMostOne s t := by
  obtain ⟨hfull, rfl⟩ := emit_ok h
  exact .inr ⟨hfull, x, rfl⟩

theorem emitsAtMostOne_of_missingChild {s t : State} (h : missingChild s = .ok t) : EmitsAtMostOne s t := by
  rw [(missingChild_ok h).2]
  exact .inl rfl

theorem emitsAtMostOne_of_moveTo {c : NodeId} {s t : State} (h : moveTo c s = .ok t) : EmitsAtMostOne s t := by
  unfold moveTo at h
  split at h
  · split at h
    · rename_i u hu
      cases h
      show EmitsAtMostOne s u
      exact emitsAtMostOne_of_emit hu
    · cases h
  · cases h
    exact .inl rfl

theorem emitsAtMostOne_of_stepBit {v : Bool} {s t : State} (h : stepBit v s = .ok t) : EmitsAtMostOne s t := by
  unfold stepBit at h
  split at h
  · rename_i u hu
    cases h
    show EmitsAtMostOne s u
    split at hu
    · unfold stepLeaf at hu
      split at hu
      · exact emitsAtMostOne_of_missingChild hu
      · exact emitsAtMostOne_of_emit hu
    · unfold stepInternal at hu
      split at hu
      · exact emitsAtMostOne_of_missingChild hu
      · exact emitsAtMostOne_of_moveTo hu
  · cases h

theorem EmitsAtMostOne.outbuf_le {s t : State} (h : EmitsAtMostOne s t) (hs : s.outbuf.length ≤ s.params.outCap) :
    t.outbuf.length ≤ s.params.outCap := by
  obtain h | ⟨hfull, x, h⟩ := h
  · rwa [h]
  · rw [h, List.length_append, List.length_singleton]
    omega

/-- A walk never overfills the output buffer (R34). -/
theorem walkBits_outbuf_le {vs : BitSeq} {s t : State} (h : walkBits vs s = .ok t)
    (hs : s.outbuf.length ≤ s.params.outCap) : t.outbuf.length ≤ s.params.outCap := by
  induction vs generalizing s with
  | nil => cases h; exact hs
  | cons v vs ih =>
    rw [walkBits] at h
    split at h
    · rename_i u hu
      have hparams : u.params = s.params := by rw [stepBit_ok hu]
      rw [← hparams] at hs ⊢
      exact ih h (hparams ▸ (emitsAtMostOne_of_stepBit hu).outbuf_le (hparams ▸ hs))
    · cases h

/-- A successful DECODE keeps the invariant: it ends with the cursor at the root. -/
theorem Effect.inv_decode {s u : State} (h : Effect .decode s u) (hs : s.Inv) : u.Inv := by
  obtain ⟨hv, t, ht, hcursor, rfl⟩ := h
  obtain ⟨htb, hcg, -, hpq, hstk, -⟩ := hs.machinesIdle
  obtain ⟨hparams, hbits, -, -⟩ := hs.buffersFit
  have hout : t.outbuf.length ≤ s.params.outCap := walkBits_outbuf_le (s := startDecode s) ht (Nat.zero_le _)
  obtain ⟨out, cur, ptr, rfl⟩ : ∃ out cur ptr, t = { startDecode s with outbuf := out, cursor := cur, rdPtr := ptr } :=
    ⟨_, _, _, walkBits_ok ht⟩
  exact hs.of_same ⟨rfl, rfl, rfl, rfl, rfl, rfl⟩ ⟨rfl, rfl⟩ rfl ⟨htb, hcg, rfl, hpq, hstk, hcursor⟩ hs.errReserved
    ⟨hparams, hbits, hout, nofun⟩

/-! ## Every command, every step -/

/-- Every effect keeps the invariant. -/
theorem Effect.inv {i : Instr} {s u : State} (h : Effect i s u) (hs : s.Inv) : u.Inv := by
  cases i with
  | clr => subst h; exact inv_hardReset s hs.buffersFit.1
  | wrcsr n v =>
    subst h
    exact hs.of_same ⟨rfl, rfl, rfl, rfl, rfl, rfl⟩ ⟨rfl, rfl⟩ rfl hs.machinesIdle hs.errReserved hs.buffersFit
  | tally x =>
    obtain ⟨hv, hmax, ⟨hx, rfl⟩ | ⟨hx, rfl⟩⟩ := h
    · exact hs.addLeaf hv hx (by decide) (by simp [maxWeight] at hmax ⊢; omega)
    · exact hs.bumpLeaf hv (hs.layered.leafOfSym_of_ne_nil hx).1 (by simp [maxWeight] at hmax ⊢; omega)
  | leaf x w =>
    obtain ⟨hv, hw, hx, hsum, rfl⟩ := h
    have hzext : (zext32 w).toNat = w.toNat := by simp [zext32]; omega
    refine hs.addLeaf hv hx (fun hc => hw ?_) (by simp [maxWeight] at hsum; omega)
    exact BitVec.eq_of_toNat_eq (by rw [← hzext, hc]; rfl)
  | build => exact h.inv_build hs
  | gen => exact h.inv_gen hs
  | enc x =>
    obtain ⟨c, -, hfit, rfl⟩ := h
    exact hs.setBits (by simpa using hfit)
  | pushbit x =>
    obtain ⟨hfull, rfl⟩ := h
    have := hs.buffersFit.2.1
    exact hs.setBits (by simp; omega)
  | clrbits => subst h; exact hs.setBits (Nat.zero_le _)
  | decode => exact h.inv_decode hs
  | nop => subst h; exact hs
  | rdcsr n => subst h; exact hs
  | rdnode f k => subst h; exact hs
  | rdlen x => subst h; exact hs
  | rdcbit x k => subst h; exact hs
  | rdbit k => subst h; exact hs
  | rdout k => subst h; exact hs

/-- However a command ends, it keeps the invariant. -/
theorem Ends.inv {i : Instr} {s t : State} (h : Ends i s t) (hs : s.Inv) : t.Inv := by
  cases h with
  | success d u hu => exact (hu.inv hs).respond d
  | fault e _ _ => exact hs.raise e _
  | decodeFault e d _ => exact hs.failDecode e d

/-- Settles O10: by the kind of step; a command's part is `Ends.inv`. -/
theorem everyStepKeepsTheInvariant : Obligations.EveryStepKeepsTheInvariant := by
  intro s t hs h
  cases step_kind h with
  | quiet hin => exact hs.idle
  | rst e rest hin he => exact inv_hardReset (accept rest s) hs.buffersFit.1
  | illegal w rest r hin hdec => exact (hs.accept rest).raise _ _
  | command w rest i _ hin hdec hends => exact hends.inv (hs.accept rest)

end Sys2Proof.Machine
end

section
/-! SUPPORT. Which command writes which storage space (R60), and that the read commands write none (R67). -/

namespace Sys2Proof.Machine

/-! ## Read commands (R67) -/

/-- The six read commands (R67). -/
abbrev IsRead (i : Instr) : Prop :=
  (∃ n, i = .rdcsr n) ∨ (∃ f k, i = .rdnode f k) ∨ (∃ x, i = .rdlen x) ∨ (∃ x k, i = .rdcbit x k)
    ∨ (∃ k, i = .rdbit k) ∨ ∃ k, i = .rdout k

theorem IsRead.ne_decode {i : Instr} (hi : IsRead i) : i ≠ .decode := by
  rintro rfl
  simp [IsRead] at hi

/-- A read command that succeeds has no effect before it responds. -/
theorem IsRead.effect_eq {i : Instr} {s u : State} (hi : IsRead i) (h : Effect i s u) : u = s := by
  obtain ⟨_, rfl⟩ | ⟨_, _, rfl⟩ | ⟨_, rfl⟩ | ⟨_, _, rfl⟩ | ⟨_, rfl⟩ | ⟨_, rfl⟩ := hi <;> exact h

/-- Settles O15: a success has no effect, and an exception writes ERR and the response alone. -/
theorem readCommandsHaveNoSideEffects : Obligations.ReadCommandsHaveNoSideEffects := by
  intro i s t (hi : IsRead i) h
  cases exec_ends h with
  | success d u hu =>
    obtain rfl := hi.effect_eq hu
    exact ⟨0#8, d, rfl⟩
  | fault e _ _ =>
    refine ⟨errCode e, 0#32, ?_⟩
    rw [if_neg (errCode_ne_zero e)]
    rfl
  | decodeFault e d hd => exact absurd hd hi.ne_decode

/-! ## The writers of each space (R60) -/

/-- From `s` to `t` every storage space but those command `i` is a writer of is unchanged: the table of R60. -/
def KeepsOtherSpaces (i : Instr) (s t : State) : Prop :=
  ((∀ x, i ≠ .tally x) → (∀ x w, i ≠ .leaf x w) → i ≠ .build → t.arena = s.arena)
    ∧ ((∀ x, i ≠ .tally x) → (∀ x w, i ≠ .leaf x w) → t.leafOf = s.leafOf)
    ∧ (i ≠ .build → t.pq = s.pq)
    ∧ (i ≠ .gen → t.ct = s.ct ∧ t.ctValid = s.ctValid)
    ∧ ((∀ x, i ≠ .enc x) → (∀ x, i ≠ .pushbit x) → i ≠ .clrbits → t.bitbuf = s.bitbuf)
    ∧ (i ≠ .decode → t.outbuf = s.outbuf ∧ t.decDone = s.decDone)
    ∧ ((∀ n v, i ≠ .wrcsr n v) → t.cfgLenient = s.cfgLenient)

theorem keepsOtherSpaces_refl (i : Instr) (s : State) : KeepsOtherSpaces i s s := by
  simp [KeepsOtherSpaces]

/-- A tree is grown without a write to any space but BUILD's, the arena and the queue (R124). -/
theorem keepsOtherSpaces_growTree (s : State) : KeepsOtherSpaces .build s (growTree s) := by
  rw [growTree_frame]
  simp [KeepsOtherSpaces]

/-- A traversal writes no space but GEN's, the code table (R140). -/
theorem keepsOtherSpaces_walkTree {k : Nat} {s t : State} (h : walkTree k (startWalk s) = some t) :
    KeepsOtherSpaces .gen s t := by
  rw [walkTree_frame h]
  simp [KeepsOtherSpaces, startWalk]

/-- A walk over the bits writes no space but DECODE's, the output buffer (R160). -/
theorem keepsOtherSpaces_walkBits {vs : BitSeq} {s t : State} (h : walkBits vs (startDecode s) = .ok t) :
    KeepsOtherSpaces .decode s t := by
  rw [walkBits_ok h]
  simp [KeepsOtherSpaces, startDecode]

/-- No effect but CLR's goes beyond the spaces of its command. -/
theorem Effect.keepsOtherSpaces {i : Instr} {s u : State} (h : Effect i s u) (hi : i ≠ .clr) :
    KeepsOtherSpaces i s u := by
  cases i with
  | clr => exact absurd rfl hi
  | wrcsr n v => subst h; simp [KeepsOtherSpaces]
  | tally x =>
    obtain ⟨-, -, ⟨-, rfl⟩ | ⟨-, rfl⟩⟩ := h
    · simp [KeepsOtherSpaces]
    · simp [KeepsOtherSpaces]
  | leaf x w => obtain ⟨-, -, -, -, rfl⟩ := h; simp [KeepsOtherSpaces]
  | build =>
    obtain ⟨-, -, r, q, -, rfl⟩ := h
    simpa [KeepsOtherSpaces] using keepsOtherSpaces_growTree s
  | gen =>
    obtain ⟨-, ⟨-, rfl⟩ | ⟨-, t, ht, rfl⟩⟩ := h
    · simp [KeepsOtherSpaces, degenerateTable]
    · simpa [KeepsOtherSpaces] using keepsOtherSpaces_walkTree ht
  | enc x => obtain ⟨c, -, -, rfl⟩ := h; simp [KeepsOtherSpaces]
  | pushbit x => obtain ⟨-, rfl⟩ := h; simp [KeepsOtherSpaces]
  | clrbits => subst h; simp [KeepsOtherSpaces]
  | decode =>
    obtain ⟨-, t, ht, -, rfl⟩ := h
    simpa [KeepsOtherSpaces] using keepsOtherSpaces_walkBits ht
  | _ => subst h; exact keepsOtherSpaces_refl _ _

/-- However a command but CLR ends, it keeps the spaces it is no writer of; a failed DECODE empties its own (R182). -/
theorem Ends.keepsOtherSpaces {i : Instr} {s t : State} (h : Ends i s t) (hi : i ≠ .clr) : KeepsOtherSpaces i s t := by
  cases h with
  | success d u hu => simpa [KeepsOtherSpaces] using hu.keepsOtherSpaces hi
  | fault e _ _ => simp [KeepsOtherSpaces]
  | decodeFault e d hd => subst hd; simp [KeepsOtherSpaces, failDecode]

/-- Settles O16: by how the command ends. -/
theorem onlyItsWritersChangeASpace : Obligations.OnlyItsWritersChangeASpace :=
  fun _ _ _ h hi => (exec_ends h).keepsOtherSpaces hi

end Sys2Proof.Machine
end

section
/-! SUPPORT. The decoder, the encoder and the opcode table say the same (R81 to R88). Every statement goes format by format:
one lemma per format of R82, then one line per command. -/

namespace Sys2Proof

open Laws

/-! ## Decoding an encoded command (R85) -/

@[simp] theorem decodeZ_wordAB (i : Instr) (op : BitVec 8) : decodeZ i (wordAB op 0#8 0#16) = .ok i := by
  simp [decodeZ]

@[simp] theorem decodeA_wordAB (f : BitVec 8 → Instr) (op a : BitVec 8) :
    decodeA f (wordAB op a 0#16) = .ok (f a) := by
  simp [decodeA]

@[simp] theorem decodeAB_wordAB (f : BitVec 8 → BitVec 16 → Instr) (op a : BitVec 8) (b : BitVec 16) :
    decodeAB f (wordAB op a b) = .ok (f a b) := by
  simp [decodeAB]

@[simp] theorem decodeX_wordX (f : BitVec 24 → Instr) (op : BitVec 8) (x : BitVec 24) :
    decodeX f (wordX op x) = .ok (f x) := by
  simp [decodeX]

theorem decodeRdnode_wordAB {f : BitVec 8} (hf : f ≤ 3#8) (op : BitVec 8) (k : BitVec 16) :
    decodeRdnode (wordAB op f k) = .ok (.rdnode f k) := by
  simp [decodeRdnode, hf]

theorem decodePushbit_wordX {x : BitVec 24} (hx : x ≤ 1#24) (op : BitVec 8) :
    decodePushbit (wordX op x) = .ok (.pushbit x) := by
  simp [decodePushbit, hx]

/-- Settles O1: the opcode of the assembled word selects the command, whose format reads back the fields it was given. -/
theorem encodeThenDecodeGivesTheCommand : Obligations.EncodeThenDecodeGivesTheCommand := by
  intro i hi
  cases i with
  | rdnode f k =>
    have hf : f ≤ 3#8 := by simpa [Instr.WellFormed] using hi
    simpa [decode, encode, Instr.opcode] using decodeRdnode_wordAB hf 0x13#8 k
  | pushbit x =>
    have hx : x ≤ 1#24 := by simpa [Instr.WellFormed] using hi
    simpa [decode, encode, Instr.opcode] using decodePushbit_wordX hx 0x31#8
  | _ => simp [decode, encode, Instr.opcode]

/-! ## Encoding a decoded command (R89) -/

/-- A word without operands is the same in both layouts of R81. -/
theorem wordX_zero (op : BitVec 8) : wordX op 0#24 = wordAB op 0#8 0#16 := by
  simpa using wordX_opField_xField (wordAB op 0#8 0#16)

/-- `w` is the word of the well-formed command `i`. -/
def IsWordOf (w : Word) (i : Instr) : Prop := i.WellFormed = true ∧ encode i = w

theorem IsWordOf.decode_eq {w : Word} {i : Instr} (h : IsWordOf w i) : decode w = .ok i := by
  rw [← h.2]
  exact encodeThenDecodeGivesTheCommand i h.1

section
variable {w : Word} {op : BitVec 8} {j : Instr} (hop : (opField w).toNat = op.toNat)
include hop

/-- Format Z: a word without operands. -/
theorem isWordOf_of_decodeZ {i : Instr} (h : decodeZ i w = .ok j)
    (hi : IsWordOf (wordAB op 0#8 0#16) i) : IsWordOf w j := by
  unfold decodeZ at h
  split at h <;> cases h
  rename_i hx
  rwa [← wordX_opField_xField w, hx, wordX_zero, BitVec.eq_of_toNat_eq hop]

/-- Format A: the operand `a`, and `b` zero. -/
theorem isWordOf_of_decodeA {f : BitVec 8 → Instr} (h : decodeA f w = .ok j)
    (hf : ∀ a, IsWordOf (wordAB op a 0#16) (f a)) : IsWordOf w j := by
  unfold decodeA at h
  split at h <;> cases h
  rename_i hb
  have := hf (aField w)
  rwa [← hb, ← BitVec.eq_of_toNat_eq hop, wordAB_fields] at this

/-- Format AB: both operands. -/
theorem isWordOf_of_decodeAB {f : BitVec 8 → BitVec 16 → Instr} (h : decodeAB f w = .ok j)
    (hf : IsWordOf (wordAB op (aField w) (bField w)) (f (aField w) (bField w))) : IsWordOf w j := by
  cases h
  rwa [← BitVec.eq_of_toNat_eq hop, wordAB_fields] at hf

/-- Format X: the operand `x`. -/
theorem isWordOf_of_decodeX {f : BitVec 24 → Instr} (h : decodeX f w = .ok j)
    (hf : IsWordOf (wordX op (xField w)) (f (xField w))) : IsWordOf w j := by
  cases h
  rwa [← BitVec.eq_of_toNat_eq hop, wordX_opField_xField] at hf

end

/-- The decoder answers the command whose word it was given. -/
theorem isWordOf_of_decode {w : Word} {i : Instr} (h : decode w = .ok i) : IsWordOf w i := by
  unfold decode at h
  split at h
  next hop => exact isWordOf_of_decodeZ (op := 0x00#8) hop h ⟨rfl, rfl⟩
  next hop => exact isWordOf_of_decodeZ (op := 0x01#8) hop h ⟨rfl, rfl⟩
  next hop => exact isWordOf_of_decodeA (op := 0x02#8) hop h fun _ => ⟨rfl, rfl⟩
  next hop => exact isWordOf_of_decodeAB (op := 0x03#8) hop h ⟨rfl, rfl⟩
  next hop => exact isWordOf_of_decodeA (op := 0x10#8) hop h fun _ => ⟨rfl, rfl⟩
  next hop => exact isWordOf_of_decodeAB (op := 0x11#8) hop h ⟨rfl, rfl⟩
  next hop => exact isWordOf_of_decodeZ (op := 0x12#8) hop h ⟨rfl, rfl⟩
  next hop =>
    unfold decodeRdnode at h
    split at h
    · exact isWordOf_of_decodeAB (op := 0x13#8) hop h ⟨decide_eq_true ‹_›, rfl⟩
    · cases h
  next hop => exact isWordOf_of_decodeZ (op := 0x20#8) hop h ⟨rfl, rfl⟩
  next hop => exact isWordOf_of_decodeA (op := 0x21#8) hop h fun _ => ⟨rfl, rfl⟩
  next hop => exact isWordOf_of_decodeAB (op := 0x22#8) hop h ⟨rfl, rfl⟩
  next hop => exact isWordOf_of_decodeA (op := 0x30#8) hop h fun _ => ⟨rfl, rfl⟩
  next hop =>
    unfold decodePushbit at h
    split at h
    · exact isWordOf_of_decodeX (op := 0x31#8) hop h ⟨decide_eq_true ‹_›, rfl⟩
    · cases h
  next hop => exact isWordOf_of_decodeZ (op := 0x32#8) hop h ⟨rfl, rfl⟩
  next hop => exact isWordOf_of_decodeX (op := 0x33#8) hop h ⟨rfl, rfl⟩
  next hop => exact isWordOf_of_decodeZ (op := 0x40#8) hop h ⟨rfl, rfl⟩
  next hop => exact isWordOf_of_decodeX (op := 0x41#8) hop h ⟨rfl, rfl⟩
  next => cases h

/-- Settles O2: by the row of the opcode, format by format. -/
theorem decodeThenEncodeGivesTheWord : Obligations.DecodeThenEncodeGivesTheWord :=
  fun _ _ h => isWordOf_of_decode h

/-! ## The opcode table (R87) -/

/-- The word of a well-formed command meets its row's mask and match. -/
theorem encode_matches_row : ∀ i : Instr, EncodeMatchesRow.Statement i
  | .nop => EncodeMatchesRow.nop
  | .clr => EncodeMatchesRow.clr
  | .rdcsr n => EncodeMatchesRow.rdcsr n
  | .wrcsr n v => EncodeMatchesRow.wrcsr n v
  | .tally x => EncodeMatchesRow.tally x
  | .leaf x w => EncodeMatchesRow.leaf x w
  | .build => EncodeMatchesRow.build
  | .rdnode f k => EncodeMatchesRow.rdnode f k
  | .gen => EncodeMatchesRow.gen
  | .rdlen x => EncodeMatchesRow.rdlen x
  | .rdcbit x k => EncodeMatchesRow.rdcbit x k
  | .enc x => EncodeMatchesRow.enc x
  | .pushbit x => EncodeMatchesRow.pushbit x
  | .clrbits => EncodeMatchesRow.clrbits
  | .rdbit k => EncodeMatchesRow.rdbit k
  | .decode => EncodeMatchesRow.decode
  | .rdout k => EncodeMatchesRow.rdout k

theorem row_mem_opcodeTable (i : Instr) : i.row ∈ opcodeTable := by
  cases i <;> simp [opcodeTable, Instr.row]

theorem exists_row_of_mem_opcodeTable {r : OpcodeRow} (h : r ∈ opcodeTable) : ∃ i : Instr, i.row = r := by
  simp only [opcodeTable, List.mem_cons, List.not_mem_nil, or_false] at h
  rcases h with rfl | rfl | rfl | rfl | rfl | rfl | rfl | rfl | rfl | rfl | rfl | rfl | rfl | rfl | rfl | rfl | rfl <;>
    exact ⟨_, rfl⟩

/-- The test of R87 on a row laid out in the fields `a` and `b`, field by field. -/
theorem fields_of_accepts {m : String} {op ma : BitVec 8} {mb : BitVec 16} {w : Word}
    (h : OpcodeRow.accepts ⟨m, wordAB op 0#8 0#16, wordAB 0xFF#8 ma mb⟩ w = true) :
    opField w = op ∧ aField w &&& ma = 0#8 ∧ bField w &&& mb = 0#16 := by
  have hand : w &&& wordAB 0xFF#8 ma mb = wordAB (opField w) (aField w &&& ma) (bField w &&& mb) := by
    conv_lhs => rw [← wordAB_fields w]
    rw [wordAB_and, and_ones]
  have hw : wordAB (opField w) (aField w &&& ma) (bField w &&& mb) = wordAB op 0#8 0#16 :=
    hand.symm.trans (of_decide_eq_true h)
  exact ⟨by simpa using congrArg opField hw, by simpa using congrArg aField hw, by simpa using congrArg bField hw⟩

/-- The test of R87 on a row laid out in the field `x`. -/
theorem xField_of_accepts {m : String} {op : BitVec 8} {mx : BitVec 24} {w : Word}
    (h : OpcodeRow.accepts ⟨m, wordX op 0#24, wordX 0xFF#8 mx⟩ w = true) :
    opField w = op ∧ xField w &&& mx = 0#24 := by
  have hand : w &&& wordX 0xFF#8 mx = wordX (opField w) (xField w &&& mx) := by
    conv_lhs => rw [← wordX_opField_xField w]
    rw [wordX_and, and_ones]
  have hw : wordX (opField w) (xField w &&& mx) = wordX op 0#24 := hand.symm.trans (of_decide_eq_true h)
  exact ⟨by simpa using congrArg opField hw, by simpa using congrArg xField hw⟩

/-- A field none of whose bits is outside `m` is at most `m`. -/
theorem le_of_and_not_eq_zero {n : Nat} {x m : BitVec n} (h : x &&& ~~~m = 0#n) : x ≤ m := by
  have hx : x = x &&& m := calc
    x = x &&& (m ||| ~~~m) := by rw [BitVec.or_not_self, BitVec.and_allOnes]
    _ = x &&& m := by rw [BitVec.and_or_distrib_left, h, BitVec.or_zero]
  rw [hx, BitVec.le_def, BitVec.toNat_and]
  exact Nat.and_le_right

/-- Format Z: the row accepts its one word. -/
theorem eq_of_accepts_Z {m : String} {op : BitVec 8} {w : Word}
    (h : OpcodeRow.accepts ⟨m, wordAB op 0#8 0#16, wordAB 0xFF#8 0xFF#8 0xFFFF#16⟩ w = true) :
    wordAB op 0#8 0#16 = w := by
  obtain ⟨ho, ha, hb⟩ := fields_of_accepts h
  rw [and_ones] at ha
  rw [show (0xFFFF#16) = BitVec.allOnes 16 from rfl, BitVec.and_allOnes] at hb
  rw [← wordAB_fields w, ho, ha, hb]

/-- Format A: the row accepts the words with `b` zero. -/
theorem eq_of_accepts_A {m : String} {op : BitVec 8} {w : Word}
    (h : OpcodeRow.accepts ⟨m, wordAB op 0#8 0#16, wordAB 0xFF#8 0#8 0xFFFF#16⟩ w = true) :
    wordAB op (aField w) 0#16 = w := by
  obtain ⟨ho, -, hb⟩ := fields_of_accepts h
  rw [show (0xFFFF#16) = BitVec.allOnes 16 from rfl, BitVec.and_allOnes] at hb
  rw [← hb, ← ho, wordAB_fields]

/-- Format AB: the row accepts every word of its opcode. -/
theorem eq_of_accepts_AB {m : String} {op ma : BitVec 8} {w : Word}
    (h : OpcodeRow.accepts ⟨m, wordAB op 0#8 0#16, wordAB 0xFF#8 ma 0#16⟩ w = true) :
    wordAB op (aField w) (bField w) = w := by
  rw [← (fields_of_accepts h).1, wordAB_fields]

/-- Format X: the row accepts every word of its opcode. -/
theorem eq_of_accepts_X {m : String} {op : BitVec 8} {mx : BitVec 24} {w : Word}
    (h : OpcodeRow.accepts ⟨m, wordX op 0#24, wordX 0xFF#8 mx⟩ w = true) : wordX op (xField w) = w := by
  rw [← (xField_of_accepts h).1, wordX_opField_xField]

/-- A word that a row accepts is the word of a command of that row. -/
theorem exists_isWordOf_of_accepts {w : Word} {i : Instr} (h : i.row.accepts w = true) :
    ∃ j, IsWordOf w j ∧ j.row = i.row := by
  cases i with
  | nop => exact ⟨.nop, ⟨rfl, eq_of_accepts_Z (op := 0x00#8) h⟩, rfl⟩
  | clr => exact ⟨.clr, ⟨rfl, eq_of_accepts_Z (op := 0x01#8) h⟩, rfl⟩
  | rdcsr _ => exact ⟨.rdcsr _, ⟨rfl, eq_of_accepts_A (op := 0x02#8) h⟩, rfl⟩
  | wrcsr _ _ => exact ⟨.wrcsr _ _, ⟨rfl, eq_of_accepts_AB (op := 0x03#8) (ma := 0#8) h⟩, rfl⟩
  | tally _ => exact ⟨.tally _, ⟨rfl, eq_of_accepts_A (op := 0x10#8) h⟩, rfl⟩
  | leaf _ _ => exact ⟨.leaf _ _, ⟨rfl, eq_of_accepts_AB (op := 0x11#8) (ma := 0#8) h⟩, rfl⟩
  | build => exact ⟨.build, ⟨rfl, eq_of_accepts_Z (op := 0x12#8) h⟩, rfl⟩
  | rdnode _ _ =>
    have hf : aField w ≤ 3#8 := le_of_and_not_eq_zero (fields_of_accepts (op := 0x13#8) (ma := ~~~3#8) (mb := 0#16) h).2.1
    exact ⟨.rdnode _ _, ⟨decide_eq_true hf, eq_of_accepts_AB (op := 0x13#8) (ma := 0xFC#8) h⟩, rfl⟩
  | gen => exact ⟨.gen, ⟨rfl, eq_of_accepts_Z (op := 0x20#8) h⟩, rfl⟩
  | rdlen _ => exact ⟨.rdlen _, ⟨rfl, eq_of_accepts_A (op := 0x21#8) h⟩, rfl⟩
  | rdcbit _ _ => exact ⟨.rdcbit _ _, ⟨rfl, eq_of_accepts_AB (op := 0x22#8) (ma := 0#8) h⟩, rfl⟩
  | enc _ => exact ⟨.enc _, ⟨rfl, eq_of_accepts_A (op := 0x30#8) h⟩, rfl⟩
  | pushbit _ =>
    have hx : xField w ≤ 1#24 := le_of_and_not_eq_zero (xField_of_accepts (op := 0x31#8) (mx := ~~~1#24) h).2
    exact ⟨.pushbit _, ⟨decide_eq_true hx, eq_of_accepts_X (op := 0x31#8) (mx := 0xFFFFFE#24) h⟩, rfl⟩
  | clrbits => exact ⟨.clrbits, ⟨rfl, eq_of_accepts_Z (op := 0x32#8) h⟩, rfl⟩
  | rdbit _ => exact ⟨.rdbit _, ⟨rfl, eq_of_accepts_X (op := 0x33#8) (mx := 0#24) h⟩, rfl⟩
  | decode => exact ⟨.decode, ⟨rfl, eq_of_accepts_Z (op := 0x40#8) h⟩, rfl⟩
  | rdout _ => exact ⟨.rdout _, ⟨rfl, eq_of_accepts_X (op := 0x41#8) (mx := 0#24) h⟩, rfl⟩

/-- Settles O3: a decoded command's word meets its row, and an accepted word is the word of a command of the row. -/
theorem wordIsACommandExactlyWhenItsRowMatches : Obligations.WordIsACommandExactlyWhenItsRowMatches := by
  refine fun w => ⟨fun i hdec => ⟨row_mem_opcodeTable i, ?_⟩, fun r hr hacc => ?_⟩
  · obtain ⟨hwf, rfl⟩ := isWordOf_of_decode hdec
    exact encode_matches_row i hwf
  · obtain ⟨i, rfl⟩ := exists_row_of_mem_opcodeTable hr
    obtain ⟨j, hj, hrow⟩ := exists_isWordOf_of_accepts hacc
    exact ⟨j, hj.decode_eq, hrow⟩

/-! ## Illegal words (R88) -/

/-- Two rows that accept a word are the row of the command it decodes to. -/
theorem row_eq_of_accepts {w : Word} {r q : OpcodeRow} (hr : r ∈ opcodeTable) (hq : q ∈ opcodeTable)
    (hrw : r.accepts w = true) (hqw : q.accepts w = true) : r = q := by
  obtain ⟨i, hi, rfl⟩ := (wordIsACommandExactlyWhenItsRowMatches w).2 r hr hrw
  obtain ⟨j, hj, rfl⟩ := (wordIsACommandExactlyWhenItsRowMatches w).2 q hq hqw
  obtain rfl : i = j := Except.ok.inj (hi.symm.trans hj)
  rfl

/-- A word no row accepts is refused. -/
theorem decode_error_of_no_row {w : Word} (h : ∀ r ∈ opcodeTable, r.accepts w = false) : ∃ r, decode w = .error r := by
  match hdec : decode w with
  | .error r => exact ⟨r, rfl⟩
  | .ok i =>
    obtain ⟨hmem, hacc⟩ := (wordIsACommandExactlyWhenItsRowMatches w).1 i hdec
    simp [h i.row hmem] at hacc

/-- Settles O4: rows are disjoint because the decoder is a function, and a refused word is answered by `illegalWord`. -/
theorem illegalWordRaisesIllegalCommandOnly : Obligations.IllegalWordRaisesIllegalCommandOnly := by
  refine ⟨fun w r hr q hq hrw hqw => row_eq_of_accepts hr hq hrw hqw, fun s w rest hin hno => ?_⟩
  obtain ⟨r, hdec⟩ := decode_error_of_no_row hno
  exact Machine.step_of_decode_error hin hdec

/-! ## Listed words (R85) -/

/-- Settles O5: eighteen fixed words. -/
theorem listedWordsDecodeAsListed : Obligations.ListedWordsDecodeAsListed := by
  unfold Obligations.ListedWordsDecodeAsListed
  decide

end Sys2Proof
end

section
/-! SUPPORT. Waiting (R80), and pseudo-commands that fault (R91). -/

namespace Sys2Proof.Machine

/-- Settles O7: to wait is `idle`. -/
theorem stepWithoutAnEventWaits : Obligations.StepWithoutAnEventWaits :=
  fun _ hin => step_of_no_event hin

/-- Where the commands of a first part succeed, a pseudo-command goes on with the second part. -/
theorem runPseudo_append {is : List Instr} {s t : State} (h : runCommands is s = some t) (js : List Instr) :
    runPseudo (is ++ js) s = runPseudo js t := by
  induction is generalizing s with
  | nil => cases h; rfl
  | cons i is ih =>
    rw [runCommands] at h
    split at h
    · rename_i u hu
      split at h
      · rename_i ok
        simp only [List.cons_append, runPseudo, hu, ok, if_true]
        exact ih h
      · cases h
    · cases h
    · cases h

/-- A command that faults ends the pseudo-command. -/
theorem runPseudo_cons_of_failed {i : Instr} {s u : State} (h : exec i s = .next u) (hu : u.succeeded = false)
    (is : List Instr) : runPseudo (i :: is) s = .next u := by
  simp [runPseudo, h, hu]

/-- Settles O18: past the commands that succeed, the one that faults is the first. -/
theorem pseudoCommandStopsAtItsFirstFault : Obligations.PseudoCommandStopsAtItsFirstFault := by
  intro before rest i s t u hbefore hi hu
  rw [runPseudo_append hbefore]
  exact runPseudo_cons_of_failed hi hu rest

end Sys2Proof.Machine
end

section
/-! SUPPORT. GEN ends on every tree (R26, R140, R209): no node has two parents, so the traversal comes to no node twice and
makes at most as many visits as the arena holds records. -/

namespace Sys2Proof.Machine

/-! ## Parents -/

/-- At most one position of a list satisfies a predicate that counts at most once. -/
theorem getElem_unique_of_countP_le_one {α : Type} {p : α → Bool} {l : List α} (h : l.countP p ≤ 1) {j k : Nat}
    (hj : j < l.length) (hk : k < l.length) (hpj : p l[j] = true) (hpk : p l[k] = true) : j = k := by
  have hle {j k : Nat} (hj : j < l.length) (hk : k < l.length) (hpj : p l[j] = true) (hpk : p l[k] = true) : k ≤ j := by
    by_contra hlt
    have h1 : 0 < (l.take k).countP p :=
      List.countP_pos_iff.2 ⟨l[j], List.mem_take_iff_getElem.2 ⟨j, by omega, rfl⟩, hpj⟩
    have h2 : 0 < (l.drop k).countP p :=
      List.countP_pos_iff.2 ⟨l[k], List.mem_drop_iff_getElem.2 ⟨0, by omega, rfl⟩, hpk⟩
    rw [← List.take_append_drop k l, List.countP_append] at h
    omega
  exact le_antisymm (hle hk hj hpk hpj) (hle hj hk hpj hpk)

/-- In a tree no node is a child twice (R26). -/
theorem State.Inv.parentCount_le_one {s : State} (hs : s.Inv) (hv : s.treeValid = true) (i : NodeId) :
    s.parentCount i ≤ 1 := by
  by_cases hi : i.toNat < s.arena.length - 1
  · have := (hs.treeShape.2.2 hv).2.2.2.2.2 i.toNat hi
    simp only [BitVec.ofNat_toNat, BitVec.setWidth_eq] at this
    omega
  · rw [hs.layered.parentCount_eq_zero (by omega)]
    omega

/-- The record is that of an internal node whose child on side `v` is `i`. -/
def Node.hasChild (v : Bool) (i : NodeId) (n : Node) : Bool := !n.leaf && decide (n.child v = i)

/-- The two sides of `parentCount`, in either order. -/
theorem parentCount_eq_hasChild (s : State) (i : NodeId) (v : Bool) :
    s.parentCount i = s.arena.countP (Node.hasChild v i) + s.arena.countP (Node.hasChild (!v) i) := by
  cases v
  · rfl
  · rw [Nat.add_comm]; rfl

/-- In a tree a node is the child of one node, on one side (R26). -/
theorem State.Inv.parent_unique {s : State} (hs : s.Inv) (hv : s.treeValid = true) {j k : NodeId} {u v : Bool}
    (hj : j.toNat < s.arena.length) (hk : k.toNat < s.arena.length) (hjl : (s.node j).leaf = false)
    (hkl : (s.node k).leaf = false) (h : (s.node j).child u = (s.node k).child v) : j = k ∧ u = v := by
  have hsum := hs.parentCount_le_one hv ((s.node k).child v)
  rw [parentCount_eq_hasChild s _ v] at hsum
  have hjp : Node.hasChild u ((s.node k).child v) s.arena[j.toNat] = true := by
    rw [← nodeAt_of_lt hj]
    show (!(s.node j).leaf && decide ((s.node j).child u = _)) = true
    simp [hjl, h]
  have hkp : Node.hasChild v ((s.node k).child v) s.arena[k.toNat] = true := by
    rw [← nodeAt_of_lt hk]
    show (!(s.node k).leaf && decide ((s.node k).child v = _)) = true
    simp [hkl]
  have hjc := List.countP_pos_iff.2 ⟨_, List.getElem_mem hj, hjp⟩
  have hkc := List.countP_pos_iff.2 ⟨_, List.getElem_mem hk, hkp⟩
  obtain rfl : u = v := by
    by_contra hne
    rw [Bool.eq_not_of_ne hne] at hjc
    omega
  exact ⟨BitVec.eq_of_toNat_eq (getElem_unique_of_countP_le_one (by omega) hj hk hjp hkp), rfl⟩

/-! ## The traversal -/

/-- The nodes the traversal has come to: those visited, `done`, and those on the stack of `w`. -/
def reached (done : List NodeId) (w : State) : List NodeId := done ++ w.stk.map (·.id)

/-- The traversal of the tree of `s` has come to no node twice: `done` are the nodes visited, and every node it has come to
is the root or a child of one of them. -/
structure VisitsOnce (s w : State) (done : List NodeId) : Prop where
  arena : w.arena = s.arena
  nodup : (reached done w).Nodup
  exist : ∀ i ∈ reached done w, i.toNat < s.arena.length
  parent : ∀ i ∈ reached done w, i = s.root ∨ ∃ j ∈ done, ∃ v, (s.node j).leaf = false ∧ (s.node j).child v = i

/-- There are no more visits than records. -/
theorem VisitsOnce.length_le {s w : State} {done : List NodeId} (h : VisitsOnce s w done) :
    done.length + w.stk.length ≤ s.arena.length := by
  have hnodup := h.nodup.map (f := BitVec.toNat) fun _ _ => BitVec.eq_of_toNat_eq
  have hsub : (reached done w).map BitVec.toNat ⊆ List.range s.arena.length := by
    intro n hn
    obtain ⟨i, hi, rfl⟩ := List.mem_map.1 hn
    exact List.mem_range.2 (h.exist i hi)
  simpa [reached] using (hnodup.subperm hsub).length_le

/-- The children of the node on top of the stack are new. -/
theorem VisitsOnce.child_not_reached {s w : State} {done : List NodeId} (h : VisitsOnce s w done) (hs : s.Inv)
    (hv : s.treeValid = true) {e : StkEntry} {rest : List StkEntry} (hstk : w.stk = e :: rest)
    (hl : (s.node e.id).leaf = false) (v : Bool) : (s.node e.id).child v ∉ reached done w := by
  have htop : e.id ∈ reached done w := by simp [reached, hstk]
  have hid := h.exist _ htop
  intro hc
  obtain hroot | ⟨j, hj, u, hjl, hju⟩ := h.parent _ hc
  · have hlt := (hs.layered.child_lt hid hl).2 v
    have := (hs.treeShape.2.2 hv).2.2.1
    rw [hroot] at hlt
    omega
  · obtain ⟨rfl, -⟩ := hs.parent_unique hv (h.exist j (by simp [reached, hj])) hid hjl hl hju
    exact List.disjoint_of_nodup_append h.nodup hj (by simp [hstk])

/-- A leaf is visited: it moves from the stack to the nodes visited. -/
theorem VisitsOnce.visit_leaf {s w : State} {done : List NodeId} (h : VisitsOnce s w done) {e : StkEntry}
    {rest : List StkEntry} (hstk : w.stk = e :: rest) (x : Sym) :
    VisitsOnce s { w.setCode x e.path with stk := rest, count := w.count + 1#9 } (e.id :: done) := by
  obtain ⟨harena, hnodup, hexist, hparent⟩ := h
  have hperm : (reached (e.id :: done) { w.setCode x e.path with stk := rest, count := w.count + 1#9 }).Perm
      (reached done w) := by
    simpa [reached, hstk] using List.perm_middle.symm
  refine ⟨harena, hperm.nodup_iff.2 hnodup, fun i hi => hexist i (hperm.mem_iff.1 hi), fun i hi => ?_⟩
  refine (hparent i (hperm.mem_iff.1 hi)).imp_right fun ⟨j, hj, hjc⟩ => ⟨j, List.mem_cons_of_mem _ hj, hjc⟩

/-- An internal node is visited: its children are new on the stack. -/
theorem VisitsOnce.visit_internal {s w : State} {done : List NodeId} (h : VisitsOnce s w done) (hs : s.Inv)
    (hv : s.treeValid = true) {e : StkEntry} {rest : List StkEntry} (hstk : w.stk = e :: rest)
    (hl : (s.node e.id).leaf = false) :
    VisitsOnce s { w with
      stk := ⟨(s.node e.id).left, e.path ++ [false]⟩ :: ⟨(s.node e.id).right, e.path ++ [true]⟩ :: rest }
      (e.id :: done) := by
  have hnew := h.child_not_reached hs hv hstk hl
  obtain ⟨harena, hnodup, hexist, hparent⟩ := h
  have hid := hexist e.id (by simp [reached, hstk])
  have hne : (s.node e.id).child false ≠ (s.node e.id).child true :=
    fun hc => Bool.false_ne_true (hs.parent_unique hv hid hid hl hl hc).2
  have hperm : (reached (e.id :: done) { w with
      stk := ⟨(s.node e.id).left, e.path ++ [false]⟩ :: ⟨(s.node e.id).right, e.path ++ [true]⟩ :: rest }).Perm
      ((s.node e.id).child false :: (s.node e.id).child true :: reached done w) := by
    rw [List.perm_iff_count]
    intro i
    simp only [reached, hstk, Node.child, List.map_cons, List.count_append, List.count_cons,
      Bool.false_eq_true, if_false, if_true]
    omega
  refine ⟨harena, hperm.nodup_iff.2 ?_, fun i hi => ?_, fun i hi => ?_⟩
  · exact List.nodup_cons.2 ⟨by simp [hne, hnew], List.nodup_cons.2 ⟨hnew true, hnodup⟩⟩
  · obtain rfl | rfl | hi : i = (s.node e.id).child false ∨ i = (s.node e.id).child true ∨ i ∈ reached done w := by
      simpa using hperm.mem_iff.1 hi
    · exact ((hs.layered.child_lt hid hl).2 false).trans hid
    · exact ((hs.layered.child_lt hid hl).2 true).trans hid
    · exact hexist i hi
  · obtain rfl | rfl | hi : i = (s.node e.id).child false ∨ i = (s.node e.id).child true ∨ i ∈ reached done w := by
      simpa using hperm.mem_iff.1 hi
    · exact .inr ⟨e.id, List.mem_cons_self, false, hl, rfl⟩
    · exact .inr ⟨e.id, List.mem_cons_self, true, hl, rfl⟩
    · exact (hparent i hi).imp_right fun ⟨j, hj, hjc⟩ => ⟨j, List.mem_cons_of_mem _ hj, hjc⟩

theorem VisitsOnce.visitNode {s w : State} {done : List NodeId} (h : VisitsOnce s w done) (hs : s.Inv)
    (hv : s.treeValid = true) {e : StkEntry} {rest : List StkEntry} (hstk : w.stk = e :: rest) :
    VisitsOnce s (visitNode e rest w) (e.id :: done) := by
  have hnode : w.node e.id = s.node e.id := node_congr h.arena e.id
  cases hl : (s.node e.id).leaf with
  | true =>
    rw [visitNode_leaf (hnode ▸ hl)]
    exact h.visit_leaf hstk _
  | false =>
    rw [visitNode_internal (hnode ▸ hl), hnode]
    exact h.visit_internal hs hv hstk hl

/-- With as many visits left as there are records not visited, the traversal ends. -/
theorem VisitsOnce.walkTree_ends {s w : State} {done : List NodeId} (h : VisitsOnce s w done) (hs : s.Inv)
    (hv : s.treeValid = true) {k : Nat} (hk : done.length + k = s.arena.length) : ∃ t, walkTree k w = some t := by
  induction k generalizing w done with
  | zero =>
    have hle := h.length_le
    exact ⟨w, walkTree_nil (List.eq_nil_of_length_eq_zero (by omega))⟩
  | succ k ih =>
    match hstk : w.stk with
    | [] => exact ⟨w, walkTree_nil hstk⟩
    | e :: rest =>
      rw [walkTree_cons hstk]
      exact ih (h.visitNode hs hv hstk) (by rw [List.length_cons]; omega)

/-- GEN's traversal of a tree ends within as many visits as there are records (R209). -/
theorem walkTree_startWalk_ends {s : State} (hs : s.Inv) (hv : s.treeValid = true) :
    ∃ t, walkTree s.arena.length (startWalk s) = some t := by
  have hroot := (hs.treeShape.2.2 hv).2.2.1
  have hstart : VisitsOnce s (startWalk s) [] := by
    refine ⟨rfl, List.nodup_singleton s.root, fun i hi => ?_, fun i hi => .inl ?_⟩
    · obtain rfl : i = s.root := List.mem_singleton.1 hi
      omega
    · exact List.mem_singleton.1 hi
  exact hstart.walkTree_ends hs hv (Nat.zero_add _)

end Sys2Proof.Machine
end

section
/-! SUPPORT. Every accepted command ends, with one response (R84). -/

namespace Sys2Proof.Machine

/-! ## Every command answers -/

/-- BUILD answers in every state: the queue holds an entry when the last one is taken (R207). -/
theorem execBuild_answers (s : State) : ∃ t, execBuild s = .next t := by
  unfold execBuild
  split
  · exact ⟨_, rfl⟩
  split
  · exact ⟨_, rfl⟩
  rename_i hno
  split
  · exact ⟨_, rfl⟩
  · rename_i hpop
    have hlen := (growTree_pq_length s fun h0 => hno (.inl h0)).1
    rw [pqPopMin_eq_none.1 hpop] at hlen
    cases hlen

theorem execGen_answers {s : State} (hs : s.Inv) : ∃ t, execGen s = .next t := by
  unfold execGen
  split
  · exact ⟨_, rfl⟩
  rename_i hv
  split
  · exact ⟨_, rfl⟩
  obtain ⟨t, ht⟩ := walkTree_startWalk_ends hs (by simpa using hv)
  rw [ht]
  exact ⟨_, rfl⟩

/-- In a state that meets the invariant no command stops the model: BUILD and GEN are the only ones that could. -/
theorem exec_answers (i : Instr) {s : State} (hs : s.Inv) : ∃ t, exec i s = .next t := by
  cases i with
  | build => exact execBuild_answers s
  | gen => exact execGen_answers hs
  | _ =>
    simp only [exec, execNop, execClr, execRdcsr, execWrcsr, execTally, execLeaf, execRdnode, execRdlen, execRdcbit,
      execEnc, execPushbit, execClrbits, execRdbit, execDecode, execRdout]
    repeat' split
    all_goals exact ⟨_, rfl⟩

/-! ## Its response (R84, R180) -/

/-- A response as R84 and R180 have it: a code of at most 12, and data 0 with every error but the three that give data. -/
def Response.Regular (r : Response) : Prop :=
  r.err.toNat ≤ 12 ∧ (r.err ≠ 0#8 → r.err ≠ 2#8 → r.err ≠ 4#8 → r.err ≠ 10#8 → r.data = 0#32)

theorem regular_success (d : Word) : Response.Regular ⟨0#8, d⟩ := ⟨by simp, fun h => absurd rfl h⟩

theorem regular_error_zero (e : Err) : Response.Regular ⟨errCode e, 0#32⟩ :=
  ⟨(errCode_bounds e).2, fun _ _ _ _ => rfl⟩

/-- The three errors that give data. -/
theorem regular_error_data {e : Err} (he : e = .malformedBit ∨ e = .truncated ∨ e = .outOverflow) (d : Word) :
    Response.Regular ⟨errCode e, d⟩ := by
  have hle (e : Err) : (errCode e).toNat ≤ 12 := (errCode_bounds e).2
  obtain rfl | rfl | rfl := he
  · exact ⟨hle _, fun _ h => absurd rfl h⟩
  · exact ⟨hle _, fun _ _ h => absurd rfl h⟩
  · exact ⟨hle _, fun _ _ _ h => absurd rfl h⟩

/-- DECODE gives data with the errors of its walk and of its end, not with those of its entry (R160, R161). -/
theorem execDecode_regular {s t : State} (h : execDecode s = .next t) : ∃ r, t.resp = some r ∧ r.Regular := by
  unfold execDecode at h
  split at h
  · cases h; exact ⟨_, rfl, regular_error_zero .invalidInput⟩
  split at h
  · cases h; exact ⟨_, rfl, regular_error_zero .invalidInput⟩
  split at h
  · rename_i e d hwalk
    cases h
    exact ⟨_, rfl, regular_error_data ((walkBits_error hwalk).imp_right .inr) d⟩
  split at h <;> cases h
  · exact ⟨_, rfl, regular_error_data (.inr (.inl rfl)) _⟩
  · exact ⟨_, rfl, regular_success _⟩

theorem exec_regular {i : Instr} {s t : State} (h : exec i s = .next t) : ∃ r, t.resp = some r ∧ r.Regular := by
  cases exec_ends h with
  | success d u _ => exact ⟨_, rfl, regular_success d⟩
  | fault e _ _ => exact ⟨_, rfl, regular_error_zero e⟩
  | decodeFault e d hi => subst hi; exact execDecode_regular h

/-! ## The host's events -/

/-- No effect takes an event from the host. -/
theorem Effect.input_eq {i : Instr} {s u : State} (h : Effect i s u) : u.input = s.input := by
  cases i with
  | tally x =>
    obtain ⟨-, -, ⟨-, rfl⟩ | ⟨-, rfl⟩⟩ := h
    · simp
    · simp
  | leaf x w => obtain ⟨-, -, -, -, rfl⟩ := h; simp
  | build =>
    obtain ⟨-, -, r, q, -, rfl⟩ := h
    rw [growTree_frame]; simp
  | gen =>
    obtain ⟨-, ⟨-, rfl⟩ | ⟨-, t, ht, rfl⟩⟩ := h
    · simp [degenerateTable]
    · rw [walkTree_frame ht]; simp [startWalk]
  | enc x => obtain ⟨c, -, -, rfl⟩ := h; simp
  | pushbit x => obtain ⟨-, rfl⟩ := h; simp
  | decode =>
    obtain ⟨-, t, ht, -, rfl⟩ := h
    rw [walkBits_ok ht]; simp [startDecode]
  | _ => subst h; rfl

theorem Ends.input_eq {i : Instr} {s t : State} (h : Ends i s t) : t.input = s.input := by
  cases h with
  | success d u hu => simpa using hu.input_eq
  | fault e _ _ => rfl
  | decodeFault e d _ => rfl

/-- Settles O11: a refused word is answered with IllegalCommand, and every command ends with a regular response. -/
theorem everyCommandEndsWithOneResponse : Obligations.EveryCommandEndsWithOneResponse := by
  intro s w rest hs hin
  match hdec : decode w with
  | .error r =>
    exact ⟨_, _, step_of_decode_error hin hdec, rfl, rfl, regular_error_zero .illegalCommand⟩
  | .ok i =>
    obtain ⟨t, ht⟩ := exec_answers i (hs.accept rest)
    obtain ⟨r, hresp, hr⟩ := exec_regular ht
    exact ⟨t, r, (step_of_decode_ok hin hdec).trans ht, hresp, (exec_ends ht).input_eq, hr⟩

end Sys2Proof.Machine
end

section
/-! SUPPORT. The system commands NOP, RDCSR and WRCSR (R100, R102, R103), and the bits of STATUS and CFG (R41, R43). -/

namespace Sys2Proof.Machine

/-- Settles O19: NOP responds with data 0. -/
theorem nopSucceedsAndDoesNothing : Obligations.NopSucceedsAndDoesNothing := fun _ => rfl

/-! ## The bits of STATUS and CFG -/

/-- A word that holds a flag at bit `i` and nothing else. -/
def flagAt (b : Bool) (i : Nat) : Word := if b then BitVec.twoPow 32 i else 0#32

theorem getLsbD_flagAt {i : Nat} (hi : i < 32) (b : Bool) (k : Nat) :
    (flagAt b i).getLsbD k = (b && decide (i = k)) := by
  cases b <;> simp [flagAt, hi]

theorem status_eq_flags (s : State) : s.status = flagAt s.treeValid 0 ||| flagAt s.ctValid 1 ||| flagAt s.decDone 2
    ||| flagAt s.degen 3 ||| flagAt s.errAny 4 := rfl

theorem cfg_eq_flag (s : State) : s.cfg = flagAt s.cfgLenient 0 := rfl

/-- The bits of STATUS are its five flags in R41's order, and 0 above them. -/
theorem getLsbD_status (s : State) (k : Nat) :
    s.status.getLsbD k = [s.treeValid, s.ctValid, s.decDone, s.degen, s.errAny].getD k false := by
  simp only [status_eq_flags, BitVec.getLsbD_or, getLsbD_flagAt, Nat.reduceLT]
  match k with
  | 0 | 1 | 2 | 3 | 4 | k + 5 => simp

/-- The only bit of CFG that can be 1 is bit 0, LENIENT (R43). -/
theorem getLsbD_cfg (s : State) (k : Nat) : s.cfg.getLsbD k = (s.cfgLenient && decide (0 = k)) := by
  rw [cfg_eq_flag, getLsbD_flagAt (by decide)]

/-! ## RDCSR (R102) -/

theorem exec_rdcsr_of_csr {n : BitVec 8} {s : State} {d : Word} (h : s.csr n = some d) :
    exec (.rdcsr n) s = .next (respond d s) := by
  simp only [exec, execRdcsr, h]

theorem exec_rdcsr_of_reserved {n : BitVec 8} {s : State} (h : s.csr n = none) :
    exec (.rdcsr n) s = .next (raise .illegalCommand 0#32 s) := by
  simp only [exec, execRdcsr, h]

/-- The registers above TOTAL_W are reserved (R40). -/
theorem csr_eq_none {n : BitVec 8} (h : 8#8 < n) (s : State) : s.csr n = none := by
  have hn : 8 < n.toNat := h
  unfold State.csr
  split
  case h_10 => rfl
  all_goals omega

/-- Settles O20: each register by its own equation; of STATUS and CFG, bit by bit. -/
theorem rdcsrReadsTheNineRegisters : Obligations.RdcsrReadsTheNineRegisters := by
  intro s
  refine ⟨⟨s.status, exec_rdcsr_of_csr rfl, getLsbD_status s 0, getLsbD_status s 1, getLsbD_status s 2,
      getLsbD_status s 3, ?errAny, ?above4⟩, exec_rdcsr_of_csr rfl,
    ⟨s.cfg, exec_rdcsr_of_csr rfl, ?lenient, ?above0⟩, exec_rdcsr_of_csr rfl, exec_rdcsr_of_csr rfl,
    exec_rdcsr_of_csr rfl, exec_rdcsr_of_csr rfl, exec_rdcsr_of_csr rfl, exec_rdcsr_of_csr rfl,
    fun n hn => exec_rdcsr_of_reserved (csr_eq_none hn s)⟩
  case errAny => rw [getLsbD_status]; exact bne_iff_ne
  case above4 => intro k hk; simp [getLsbD_status, hk]
  case lenient => rw [getLsbD_cfg]; simp
  case above0 => intro k hk; simp [getLsbD_cfg, show 0 ≠ k by omega]

/-! ## WRCSR (R103) -/

theorem exec_wrcsr_cfg (v : BitVec 16) (s : State) :
    exec (.wrcsr 2#8 v) s = .next (respond 0#32 { s with cfgLenient := v.getLsbD 0 }) := by
  simp only [exec, execWrcsr, if_true]

theorem exec_wrcsr_of_ne {n : BitVec 8} (h : n ≠ 2#8) (v : BitVec 16) (s : State) :
    exec (.wrcsr n v) s = .next (raise .illegalCommand 0#32 s) := by
  simp only [exec, execWrcsr, if_neg h]

/-- Settles O21: the number is CFG's or it is refused. -/
theorem wrcsrWritesOnlyTheLenientBit : Obligations.WrcsrWritesOnlyTheLenientBit :=
  fun s v => ⟨exec_wrcsr_cfg v s, fun _ hn => exec_wrcsr_of_ne hn v s⟩

end Sys2Proof.Machine
end

section
/-! SUPPORT. TALLY (R110) by its checks, and what the leaves hold after the TALLYs of a sequence (R111). -/

namespace Sys2Proof.Machine

/-! ## TALLY (R110) -/

theorem exec_tally_of_tree {s : State} (hv : s.treeValid = true) (x : Sym) :
    exec (.tally x) s = .next (raise .badState 0#32 s) := by
  simp only [exec, execTally, if_pos hv]

theorem exec_tally_of_full {s : State} (hv : s.treeValid = false) (hw : s.totalW.toNat = maxWeight) (x : Sym) :
    exec (.tally x) s = .next (raise .weightOverflow 0#32 s) := by
  simp [exec, execTally, hv, hw]

theorem exec_tally_of_new {s : State} (hv : s.treeValid = false) (hw : s.totalW.toNat ≠ maxWeight) {x : Sym}
    (hx : s.leafOfSym x = nil9) : exec (.tally x) s = .next (respond (zext32 s.nNode) (s.addLeaf x 1#32)) := by
  simp [exec, execTally, hv, hw, hx]

theorem exec_tally_of_met {s : State} (hv : s.treeValid = false) (hw : s.totalW.toNat ≠ maxWeight) {x : Sym}
    (hx : s.leafOfSym x ≠ nil9) :
    exec (.tally x) s = .next (respond (zext32 (s.leafOfSym x)) (s.bumpLeaf (s.leafOfSym x))) := by
  simp [exec, execTally, hv, hw, hx]

/-- Settles O22: TALLY's four cases, with what `addLeaf` and `bumpLeaf` write. -/
theorem tallyCountsOneOccurrence : Obligations.TallyCountsOneOccurrence := by
  intro s x
  have below : s.totalW ≠ 0xFFFFFFFF#32 → s.totalW.toNat ≠ maxWeight := fun hw hc => hw (BitVec.eq_of_toNat_eq hc)
  refine ⟨fun hv => exec_tally_of_tree hv x, fun hv hw => exec_tally_of_full hv (by rw [hw]; rfl) x, ?new, ?met⟩
  case new =>
    intro hv hw hx
    exact ⟨_, exec_tally_of_new hv (below hw) hx, rfl, rfl, (leafOfSym_addLeaf s x x 1#32).trans (if_pos rfl),
      fun y hy => (leafOfSym_addLeaf s x y 1#32).trans (if_neg hy), rfl⟩
  case met =>
    intro hv hw hx hlt
    exact ⟨_, exec_tally_of_met hv (below hw) hx, rfl, node_bumpLeaf_self s hlt, fun j hj => node_bumpLeaf_of_ne s hj,
      List.length_modify .., rfl⟩

/-! ## The symbols of a sequence in the order of first occurrence -/

theorem eraseDups_concat_of_mem {xs : List Sym} {x : Sym} (hx : x ∈ xs) : (xs ++ [x]).eraseDups = xs.eraseDups := by
  simp [List.eraseDups_append, List.removeAll, hx]

theorem eraseDups_concat_of_not_mem {xs : List Sym} {x : Sym} (hx : x ∉ xs) :
    (xs ++ [x]).eraseDups = xs.eraseDups ++ [x] := by
  simp [List.eraseDups_append, List.removeAll, hx, List.eraseDups_cons]

theorem nodup_eraseDups (xs : List Sym) : xs.eraseDups.Nodup := by
  induction xs using List.reverseRecOn with
  | nil => exact List.nodup_nil
  | append_singleton xs x ih =>
    by_cases hx : x ∈ xs
    · rwa [eraseDups_concat_of_mem hx]
    · rw [eraseDups_concat_of_not_mem hx]
      exact ih.append (List.nodup_singleton x) (by simpa [List.mem_eraseDups] using hx)

/-- There are 256 symbols. -/
theorem length_eraseDups_le (xs : List Sym) : xs.eraseDups.length ≤ 256 := by
  calc
    xs.eraseDups.length ≤ Fintype.card Sym := (nodup_eraseDups xs).length_le_card
    _ = 256 := FinEnum.card_eq_fintypeCard.symm

/-! ## What the leaves hold after the TALLYs of a sequence (R111) -/

/-- Symbol `x` has a leaf of weight `k`. -/
structure State.HasLeaf (s : State) (x : Sym) (k : Nat) : Prop where
  live : (s.leafOfSym x).toNat < s.arena.length
  sym : (s.node (s.leafOfSym x)).sym = x
  weight : (s.node (s.leafOfSym x)).weight.toNat = k

@[simp] theorem leafOfSym_bumpLeaf (s : State) (i : NodeId) (y : Sym) :
    (s.bumpLeaf i).leafOfSym y = s.leafOfSym y := rfl

/-- One more occurrence leaves the symbols of all records. -/
theorem map_sym_bumpLeaf (s : State) (i : NodeId) :
    (s.bumpLeaf i).arena.map (fun n => n.sym) = s.arena.map (fun n => n.sym) := by
  refine List.ext_getElem (by simp) fun j _ _ => ?_
  simp only [bumpLeaf_fields, List.getElem_map, List.getElem_modify]
  split <;> rfl

theorem hasLeaf_addLeaf_self (s : State) (x : Sym) (w : Word) (hlen : s.arena.length < 512) :
    (s.addLeaf x w).HasLeaf x w.toNat := by
  have hleaf : (s.addLeaf x w).leafOfSym x = s.nNode := (leafOfSym_addLeaf ..).trans (if_pos rfl)
  have hnode := node_addLeaf_self s x w hlen
  refine ⟨?_, by rw [hleaf, hnode], by rw [hleaf, hnode]⟩
  simp [hleaf, State.nNode]
  omega

theorem State.HasLeaf.addLeaf_of_ne {s : State} {x y : Sym} {k : Nat} (h : s.HasLeaf y k) (hyx : y ≠ x) (w : Word) :
    (s.addLeaf x w).HasLeaf y k := by
  have hleaf : (s.addLeaf x w).leafOfSym y = s.leafOfSym y := (leafOfSym_addLeaf ..).trans (if_neg hyx)
  have hnode := node_addLeaf_of_lt s x w h.live
  refine ⟨?_, by rw [hleaf, hnode, h.sym], by rw [hleaf, hnode, h.weight]⟩
  have hlive := h.live
  simp [hleaf]
  omega

theorem State.HasLeaf.bumpLeaf_self {s : State} {x : Sym} {k : Nat} (h : s.HasLeaf x k) (hk : k < maxWeight) :
    (s.bumpLeaf (s.leafOfSym x)).HasLeaf x (k + 1) := by
  have hnode := node_bumpLeaf_self s h.live
  refine ⟨by simpa using h.live, by simp [hnode, h.sym], ?_⟩
  simp only [maxWeight] at hk
  simp [hnode, BitVec.toNat_add, h.weight]
  omega

/-- Another symbol has another leaf. -/
theorem State.HasLeaf.bumpLeaf_of_ne {s : State} {x y : Sym} {j k : Nat} (hx : s.HasLeaf x j) (h : s.HasLeaf y k)
    (hyx : y ≠ x) : (s.bumpLeaf (s.leafOfSym x)).HasLeaf y k := by
  have hne : s.leafOfSym y ≠ s.leafOfSym x := fun hc => hyx (by rw [← h.sym, hc, hx.sym])
  have hnode := node_bumpLeaf_of_ne s hne
  exact ⟨by simpa using h.live, by simp [hnode, h.sym], by simp [hnode, h.weight]⟩

/-- The leaves, their index and the total count the sequence `xs`, and there is no tree. -/
structure State.Counts (s : State) (xs : List Sym) : Prop where
  noTree : s.treeValid = false
  total : s.totalW.toNat = xs.length
  order : s.arena.map (fun n => n.sym) = xs.eraseDups
  absent : ∀ y, y ∉ xs → s.leafOfSym y = nil9
  present : ∀ y ∈ xs, s.HasLeaf y (xs.count y)

theorem State.Counts.respond {s : State} {xs : List Sym} (h : s.Counts xs) (d : Word) : (respond d s).Counts xs :=
  ⟨h.noTree, h.total, h.order, h.absent, fun y hy => ⟨(h.present y hy).live, (h.present y hy).sym, (h.present y hy).weight⟩⟩

theorem counts_hardReset (s : State) : (hardReset s).Counts [] :=
  ⟨rfl, rfl, rfl, fun y _ => leafOfSym_hardReset s y, nofun⟩

section
variable {s : State} {xs : List Sym} (h : s.Counts xs)
include h

theorem State.Counts.arena_length_le : s.arena.length ≤ 256 := by
  rw [← List.length_map (fun n : Node => n.sym), h.order]
  exact length_eraseDups_le xs

theorem State.Counts.leafOfSym_ne_nil {y : Sym} (hy : y ∈ xs) : s.leafOfSym y ≠ nil9 := by
  intro hnil
  have hlive := (h.present y hy).live
  have hlen := h.arena_length_le
  simp [hnil, nil9] at hlive
  omega

/-- The total below the limit grows by 1 without wrapping. -/
theorem State.Counts.toNat_total_add_one (hmax : xs.length < maxWeight) (x : Sym) :
    (s.totalW + 1#32).toNat = (xs ++ [x]).length := by
  have htotal := h.total
  simp only [maxWeight] at hmax
  simp [BitVec.toNat_add]
  omega

/-- The first occurrence of a symbol: a new leaf of weight 1, and the other leaves as they were. -/
theorem State.Counts.addLeaf {x : Sym} (hx : x ∉ xs) (hmax : xs.length < maxWeight) :
    (s.addLeaf x 1#32).Counts (xs ++ [x]) where
  noTree := h.noTree
  total := h.toNat_total_add_one hmax x
  order := by simp [h.order, eraseDups_concat_of_not_mem hx]
  absent y hy := by
    obtain ⟨hy, hyx⟩ : y ∉ xs ∧ y ≠ x := by simpa using hy
    rw [leafOfSym_addLeaf, if_neg hyx, h.absent y hy]
  present y hy := by
    by_cases hyx : y = x
    · subst hyx
      have hlen := h.arena_length_le
      simpa [List.count_eq_zero_of_not_mem hx] using hasLeaf_addLeaf_self s y 1#32 (by omega)
    · have hleaf := h.present y (by simpa [hyx] using hy)
      simpa [Ne.symm hyx] using hleaf.addLeaf_of_ne hyx 1#32

/-- A further occurrence of a symbol: 1 more on its leaf, and the other leaves as they were. -/
theorem State.Counts.bumpLeaf {x : Sym} (hx : x ∈ xs) (hmax : xs.length < maxWeight) :
    (s.bumpLeaf (s.leafOfSym x)).Counts (xs ++ [x]) where
  noTree := h.noTree
  total := h.toNat_total_add_one hmax x
  order := by rw [map_sym_bumpLeaf, h.order, eraseDups_concat_of_mem hx]
  absent y hy := h.absent y fun hc => hy (List.mem_append_left _ hc)
  present y hy := by
    have hleaf := h.present x hx
    by_cases hyx : y = x
    · subst hyx
      have hcount : xs.count y < maxWeight := List.count_le_length.trans_lt hmax
      simpa using hleaf.bumpLeaf_self hcount
    · have hother := h.present y (by simpa [hyx] using hy)
      simpa [Ne.symm hyx] using hleaf.bumpLeaf_of_ne hother hyx

/-- Below the limit a TALLY succeeds and counts one more symbol of the sequence. -/
theorem State.Counts.exec_tally (hmax : xs.length < maxWeight) (x : Sym) :
    ∃ d u, exec (.tally x) s = .next (Machine.respond d u) ∧ u.Counts (xs ++ [x]) := by
  have hw : s.totalW.toNat ≠ maxWeight := h.total ▸ hmax.ne
  by_cases hx : x ∈ xs
  · exact ⟨_, _, exec_tally_of_met h.noTree hw (h.leafOfSym_ne_nil hx), h.bumpLeaf hx hmax⟩
  · exact ⟨_, _, exec_tally_of_new h.noTree hw (h.absent x hx), h.addLeaf hx hmax⟩

end

/-- The TALLYs of `ys` after those of `xs` count the whole sequence, while it stays within the weight limit. -/
theorem State.Counts.runCommands_tallys {s : State} {xs : List Sym} (h : s.Counts xs) (ys : List Sym)
    (hmax : xs.length + ys.length ≤ maxWeight) :
    ∃ t, runCommands (ys.map .tally) s = some t ∧ t.Counts (xs ++ ys) := by
  induction ys generalizing s xs with
  | nil => exact ⟨s, rfl, by simpa using h⟩
  | cons y ys ih =>
    simp only [List.length_cons] at hmax
    obtain ⟨d, u, hexec, hu⟩ := h.exec_tally (by omega) y
    obtain ⟨t, hrun, ht⟩ := ih (hu.respond d) (by simp; omega)
    exact ⟨t, (runCommands_cons hexec (succeeded_respond d u)).trans hrun, by simpa using ht⟩

/-- Settles O23: CLR leaves the state that counts the empty sequence. -/
theorem talliesCountTheSequence : Obligations.TalliesCountTheSequence := by
  intro s xs hmax
  obtain ⟨t, hrun, ht⟩ := ((counts_hardReset s).respond 0#32).runCommands_tallys xs (by simpa [maxWeight] using hmax)
  exact ⟨t, (runCommands_cons rfl (succeeded_respond ..)).trans hrun,
    fun x hx => ⟨ht.leafOfSym_ne_nil hx, (ht.present x hx).sym, (ht.present x hx).weight⟩, ht.absent, ht.order, ht.total⟩

end Sys2Proof.Machine
end

section
/-! SUPPORT. The order of the queue (R120) and insertion into it (R121, R122). The key (weight, number) is one natural
number, so that the order is that of the naturals. -/

namespace Sys2Proof.Machine

/-- The key of R120, weight first. -/
def queueKey (w : Weight) (n : BitVec 9) : Nat := w.toNat * 512 + n.toNat

theorem queueKey_lt_iff {v w : Weight} {m n : BitVec 9} : queueKey v m < queueKey w n ↔ v < w ∨ (v = w ∧ m < n) := by
  rw [← BitVec.toNat_inj, BitVec.lt_def, BitVec.lt_def, queueKey, queueKey]
  omega

theorem queueKey_ne {v w : Weight} {m n : BitVec 9} (h : m ≠ n) : queueKey v m ≠ queueKey w n := by
  rw [ne_eq, ← BitVec.toNat_inj] at h
  rw [queueKey, queueKey]
  omega

/-- The key of an entry. -/
def PqEntry.key (e : PqEntry) : Nat := queueKey e.weight e.seq

theorem entryBefore_iff {e f : PqEntry} : entryBefore e f = true ↔ e.key < f.key := by
  simp [entryBefore, PqEntry.key, queueKey_lt_iff]

theorem entryBefore_eq_false_iff {e f : PqEntry} : entryBefore e f = false ↔ f.key ≤ e.key := by
  rw [← Bool.not_eq_true, entryBefore_iff, not_lt]

/-- Sorted by the key of R120. -/
abbrev QueueSorted (q : List PqEntry) : Prop := q.Pairwise (fun a b => entryBefore a b = true)

/-! ## Insertion (R121) -/

theorem pqInsert_cons_of_before {e f : PqEntry} (h : entryBefore f e = true) (q : List PqEntry) :
    pqInsert e (f :: q) = f :: pqInsert e q := by
  simp [pqInsert, h]

theorem pqInsert_of_none_before {e : PqEntry} {q : List PqEntry} (h : ∀ f ∈ q, entryBefore f e = false) :
    pqInsert e q = e :: q := by
  have hzero : q.countP (fun f => entryBefore f e) = 0 := List.countP_eq_zero.2 fun f hf => by simp [h f hf]
  simp [pqInsert, hzero]

/-- Insertion of an entry with a new sequence number keeps the queue sorted: it goes past the entries before it and stops
at the first that is not. -/
theorem queueSorted_pqInsert {e : PqEntry} {q : List PqEntry} (hq : QueueSorted q) (hnew : ∀ f ∈ q, f.seq ≠ e.seq) :
    QueueSorted (pqInsert e q) := by
  induction q with
  | nil => exact List.pairwise_singleton _ e
  | cons f q ih =>
    obtain ⟨hf, hq'⟩ := List.pairwise_cons.1 hq
    by_cases hfe : entryBefore f e = true
    · rw [pqInsert_cons_of_before hfe]
      refine List.pairwise_cons.2 ⟨fun g hg => ?_, ih hq' fun g hg => hnew g (List.mem_cons_of_mem f hg)⟩
      obtain rfl | hg := mem_pqInsert.1 hg
      · exact hfe
      · exact hf g hg
    · have hne : f.key ≠ e.key := queueKey_ne (hnew f List.mem_cons_self)
      rw [entryBefore_iff] at hfe
      have hmin : ∀ g ∈ f :: q, e.key < g.key := by
        intro g hg
        obtain rfl | hg := List.mem_cons.1 hg
        · omega
        · have := entryBefore_iff.1 (hf g hg)
          omega
      rw [pqInsert_of_none_before fun g hg => entryBefore_eq_false_iff.2 (hmin g hg).le]
      exact List.pairwise_cons.2 ⟨fun g hg => entryBefore_iff.2 (hmin g hg), hq⟩

/-- Settles O24: what is removed is the head of a sorted queue. -/
theorem queueInsertionKeepsTheOrder : Obligations.QueueInsertionKeepsTheOrder := by
  intro e q hq hnew
  have hsorted := queueSorted_pqInsert hq hnew
  refine ⟨hsorted, pqInsert_perm e q, ?_⟩
  have hlen := pqInsert_length e q
  match hins : pqInsert e q with
  | [] => simp [hins] at hlen
  | m :: r =>
    rw [hins] at hsorted hlen
    exact ⟨m, r, rfl, by simpa using hlen, (List.pairwise_cons.1 hsorted).1⟩

end Sys2Proof.Machine
end

section
/-! SUPPORT. BUILD merges the two nodes that leave the queue first (R120, R124): the loop invariant of the merges with the
order of the queue, and for every internal node made so far that it joins the two lightest nodes of its time. -/

namespace Sys2Proof.Machine

/-! ## The order of the nodes -/

/-- An identifier does not exceed the number it is made from. -/
theorem toNat_ofNat_le (m : Nat) : (BitVec.ofNat 9 m).toNat ≤ m := by
  simpa using Nat.mod_le m 512

theorem toNat_nNode {s : State} (h : s.arena.length < 512) : s.nNode.toNat = s.arena.length := by
  simp [State.nNode]
  omega

/-- The key of node `i`, the sequence number being the identifier (R28). -/
def State.key (s : State) (i : NodeId) : Nat := queueKey (s.node i).weight i

theorem lighterThan_iff {s : State} {i j : NodeId} : s.LighterThan i j ↔ s.key i < s.key j := queueKey_lt_iff.symm

/-- The internal node `k` joins the first two of the nodes in the queue when it is made. -/
structure State.JoinsLightest (s : State) (k : NodeId) : Prop where
  leaf : (s.node k).leaf = false
  weight : (s.node k).weight = (s.node (s.node k).left).weight + (s.node (s.node k).right).weight
  left_queued : s.QueuedBefore k.toNat (s.node k).left
  right_queued : s.QueuedBefore k.toNat (s.node k).right
  left_lt_right : s.key (s.node k).left < s.key (s.node k).right
  right_lt : ∀ j, s.QueuedBefore k.toNat j → j ≠ (s.node k).left → j ≠ (s.node k).right →
    s.key (s.node k).right < s.key j

section
variable {s t : State} {n : Nat} (hn : t.nLeaf = s.nLeaf) (hnode : ∀ i : NodeId, i.toNat < n → t.node i = s.node i)
include hn hnode

/-- Which nodes are queued when node `k` is made depends on the records below `k`. -/
theorem queuedBefore_congr {k : Nat} (hk : k ≤ n) (j : NodeId) : t.QueuedBefore k j ↔ s.QueuedBefore k j := by
  refine and_congr_right fun _ => forall_congr' fun m => ?_
  rw [hn]
  refine forall_congr' fun _ => forall_congr' fun hm => ?_
  rw [hnode _ ((toNat_ofNat_le m).trans_lt (hm.trans_le hk))]

/-- What a merge has joined stays so when records are appended. -/
theorem State.JoinsLightest.congr {k : NodeId} (hk : k.toNat < n) (h : s.JoinsLightest k) : t.JoinsLightest k := by
  obtain ⟨hleaf, hweight, hleft, hright, hlr, hlt⟩ := h
  have hqueued := queuedBefore_congr hn hnode hk.le
  have hnode' {j : NodeId} (hj : s.QueuedBefore k.toNat j) : t.node j = s.node j := hnode j (hj.1.trans hk)
  have hkey {j : NodeId} (hj : s.QueuedBefore k.toNat j) : t.key j = s.key j := by rw [State.key, State.key, hnode' hj]
  have hk' := hnode k hk
  refine ⟨?_, ?_, ?_, ?_, ?_, fun j hj hjl hjr => ?_⟩
  · rwa [hk']
  · rwa [hk', hnode' hleft, hnode' hright]
  · rwa [hk', hqueued]
  · rwa [hk', hqueued]
  · rwa [hk', hkey hleft, hkey hright]
  · rw [hk'] at hjl hjr ⊢
    have hj' := (hqueued j).1 hj
    rw [hkey hright, hkey hj']
    exact hlt j hj' hjl hjr

end

/-! ## The queue holds the nodes no merge has removed -/

namespace State.Layered

variable {s : State} (h : s.Layered)
include h

theorem parentCount_pos {k : NodeId} (hk : k.toNat < s.arena.length) (hl : (s.node k).leaf = false) (v : Bool) :
    0 < s.parentCount ((s.node k).child v) := by
  have hmem : s.node k ∈ s.arena := (mem_arena_iff h.length_lt).2 ⟨k, hk, rfl⟩
  have hcount := List.countP_pos_iff.2 ⟨_, hmem, show Node.hasChild v ((s.node k).child v) (s.node k) = true by
    simp [Node.hasChild, hl]⟩
  rw [parentCount_eq_hasChild s _ v]
  omega

/-- A node is queued when the next record is made exactly when it is nobody's child. -/
theorem queuedBefore_iff {j : NodeId} :
    s.QueuedBefore s.arena.length j ↔ j.toNat < s.arena.length ∧ s.parentCount j = 0 := by
  refine and_congr_right fun hj => ⟨fun hq => ?_, fun hzero m hge hlt => ?_⟩
  · by_contra hpos
    obtain ⟨m, v, hm, hl, hc⟩ := h.exists_parent hpos
    have hm' := hq m.toNat (h.child_lt hm hl).1 hm
    rw [BitVec.ofNat_toNat, BitVec.setWidth_eq] at hm'
    cases v
    · exact hm'.1 hc
    · exact hm'.2 hc
  · have hm : (BitVec.ofNat 9 m).toNat < s.arena.length := (toNat_ofNat_le m).trans_lt hlt
    have hpos := h.parentCount_pos hm (h.internal m hlt hge).1
    constructor
    · rintro rfl
      exact (hpos false).ne' hzero
    · rintro rfl
      exact (hpos true).ne' hzero

end State.Layered

/-- Between two merges the queue holds the entries of exactly the nodes no merge has removed. -/
theorem State.Growing.queuedBefore_iff {g : State} (h : g.Growing) {j : NodeId} :
    g.QueuedBefore g.arena.length j ↔ ∃ e ∈ g.pq, e.id = j := by
  have hmem : (∃ e ∈ g.pq, e.id = j) ↔ 0 < (g.pq.map (·.id)).count j := by simp
  rw [h.layered.queuedBefore_iff, hmem]
  constructor
  · rintro ⟨hj, hzero⟩
    have := h.once j hj
    omega
  · intro hpos
    obtain ⟨e, he, rfl⟩ := hmem.2 hpos
    have hid := (h.queued e he).1
    have := h.once e.id hid
    exact ⟨hid, by omega⟩

/-! ## The loop invariant -/

/-- The loop invariant of BUILD with the order of the queue (R28, R120): entries are numbered by their nodes. -/
structure State.Ordered (g : State) : Prop where
  growing : g.Growing
  sorted : QueueSorted g.pq
  numbered : ∀ e ∈ g.pq, e.seq = e.id
  joined : ∀ k : NodeId, g.nLeaf.toNat ≤ k.toNat → k.toNat < g.arena.length → g.JoinsLightest k

section
variable {g : State} (h : g.Ordered)
include h

/-- The key of a queued node is that of its entry. -/
theorem State.Ordered.key_id {e : PqEntry} (he : e ∈ g.pq) : g.key e.id = e.key := by
  rw [State.key, PqEntry.key, (h.growing.queued e he).2, h.numbered e he]

/-- The node a merge makes joins the first two entries of the queue. -/
theorem State.Ordered.joinsLightest_mergeNodes {a b : PqEntry} {q : List PqEntry} (hpq : g.pq = a :: b :: q) :
    (mergeNodes a b { g with pq := q }).JoinsLightest g.nNode := by
  have hlen := h.growing.layered.length_lt
  have ha : a ∈ g.pq := by simp [hpq]
  have hb : b ∈ g.pq := by simp [hpq]
  obtain ⟨haid, haw⟩ := h.growing.queued a ha
  obtain ⟨hbid, hbw⟩ := h.growing.queued b hb
  have hsorted := h.sorted
  rw [hpq] at hsorted
  obtain ⟨hab, hbq⟩ := List.pairwise_cons.1 hsorted
  -- the new record, and those that were there
  have hnew : (mergeNodes a b { g with pq := q }).node g.nNode = ⟨false, 0#8, a.weight + b.weight, a.id, b.id⟩ :=
    node_addNode_self g _ hlen
  have hold (i : NodeId) (hi : i.toNat < g.arena.length) : (mergeNodes a b { g with pq := q }).node i = g.node i :=
    node_addNode_of_lt g _ hi
  have hkey {i : NodeId} (hi : i.toNat < g.arena.length) : (mergeNodes a b { g with pq := q }).key i = g.key i := by
    rw [State.key, State.key, hold i hi]
  have hk := toNat_nNode hlen
  have hqueued (j : NodeId) : (mergeNodes a b { g with pq := q }).QueuedBefore g.nNode.toNat j ↔ ∃ e ∈ g.pq, e.id = j := by
    rw [hk, ← h.growing.queuedBefore_iff]
    exact queuedBefore_congr (by rfl) hold le_rfl j
  refine ⟨by rw [hnew], ?_, ?_, ?_, ?_, fun j hj hja hjb => ?_⟩
  · rw [hnew, hold _ haid, hold _ hbid, haw, hbw]
  · rw [hnew, hqueued]; exact ⟨a, ha, rfl⟩
  · rw [hnew, hqueued]; exact ⟨b, hb, rfl⟩
  · rw [hnew, hkey haid, hkey hbid, h.key_id ha, h.key_id hb]
    exact entryBefore_iff.1 (hab b (by simp))
  · rw [hnew] at hja hjb ⊢
    obtain ⟨e, he, rfl⟩ := (hqueued j).1 hj
    have heq : e ∈ q := by
      obtain rfl | rfl | heq : e = a ∨ e = b ∨ e ∈ q := by simpa [hpq] using he
      · exact absurd rfl hja
      · exact absurd rfl hjb
      · exact heq
    rw [hkey hbid, hkey (h.growing.queued e he).1, h.key_id hb, h.key_id he]
    exact entryBefore_iff.1 ((List.pairwise_cons.1 hbq).1 e heq)

/-- One merge keeps the loop invariant. -/
theorem State.Ordered.mergeNodes {a b : PqEntry} {q : List PqEntry} (hpq : g.pq = a :: b :: q) :
    (mergeNodes a b { g with pq := q }).Ordered := by
  have hjoin := h.joinsLightest_mergeNodes hpq
  obtain ⟨hgrow, hsorted, hnum, hjoined⟩ := h
  have hlen := hgrow.layered.length_lt
  have hk := toNat_nNode hlen
  have hq : ∀ f ∈ q, f ∈ g.pq := by simp +contextual [hpq]
  obtain ⟨-, hpq', -⟩ := mergeNodes_fields a b { g with pq := q }
  refine ⟨hgrow.mergeNodes hpq, ?_, fun f hf => ?_, fun i hge hi => ?_⟩
  · rw [hpq']
    refine queueSorted_pqInsert (hsorted.sublist (by simp [hpq])) fun f hf hc => ?_
    have hid := (hgrow.queued f (hq f hf)).1
    rw [← hnum f (hq f hf), hc, hgrow.seq, hk] at hid
    omega
  · rw [hpq'] at hf
    obtain rfl | hf := mem_pqInsert.1 hf
    · exact hgrow.seq
    · exact hnum f (hq f hf)
  · obtain hi | hi : i.toNat < g.arena.length ∨ i.toNat = g.arena.length := by
      simp [mergeNodes_fields] at hi; omega
    · refine State.JoinsLightest.congr (s := g) ?_ (fun j hj => ?_) hi (hjoined i hge hi)
      · rfl
      · exact node_addNode_of_lt g _ hj
    · rwa [BitVec.eq_of_toNat_eq (hi.trans hk.symm)]

end

theorem State.Ordered.mergeLoop (k : Nat) {g : State} (h : g.Ordered) : (mergeLoop k g).Ordered := by
  induction k generalizing g with
  | zero => exact h
  | succ k ih =>
    rw [Machine.mergeLoop]
    split
    · exact ih (h.mergeNodes ‹_›)
    · exact h

/-- Seeding keeps the queue sorted: every leaf enters it under the next number. -/
theorem queueSorted_seedLeaves (k i : Nat) (s : State) (hi : i + k ≤ 512) (hseq : s.seqCtr = BitVec.ofNat 9 i)
    (hsorted : QueueSorted s.pq) (hlt : ∀ f ∈ s.pq, f.seq.toNat < i) : QueueSorted (seedLeaves k i s).pq := by
  induction k generalizing i s with
  | zero => exact hsorted
  | succ k ih =>
    have hnum : s.seqCtr.toNat = i := by simp [hseq]; omega
    refine ih (i + 1) (seedLeaf (BitVec.ofNat 9 i) s) (by omega) ?_ ?_ fun f hf => ?_
    · simp [seedLeaf, hseq, BitVec.ofNat_add]
    · refine queueSorted_pqInsert hsorted fun f hf hc => ?_
      have := hlt f hf
      rw [hc, hnum] at this
      omega
    · obtain rfl | hf := mem_pqInsert.1 hf
      · dsimp only; omega
      · have := hlt f hf
        omega

/-- The loop invariant holds when the merges are done. -/
theorem ordered_growTree {s : State} (h : s.Inv) (hv : s.treeValid = false) : (growTree s).Ordered := by
  obtain ⟨h256, hlen, -, -⟩ := h.onlyLeaves hv
  obtain ⟨hperm, hseq⟩ := seedLeaves_pq_perm s.nLeaf.toNat 0 s.emptyQueue rfl
  have hsorted := queueSorted_seedLeaves s.nLeaf.toNat 0 s.emptyQueue (by omega) rfl List.Pairwise.nil nofun
  refine State.Ordered.mergeLoop s.nLeaf.toNat ⟨?_, hsorted, fun e he => ?_, fun k hge hlt => ?_⟩
  · rw [seedLeaves_frame, hseq, Nat.zero_add]
    exact h.growing hv (by rw [List.range_eq_range']; exact hperm)
  · obtain ⟨j, -, rfl⟩ := List.mem_map.1 (hperm.mem_iff.1 he)
    rfl
  · rw [seedLeaves_frame] at hge hlt
    exact absurd hge (by simp at hlt ⊢; omega)

/-- After a BUILD that plants a tree every internal node joins the two lightest nodes of its time. -/
theorem Effect.joinsLightest_build {s u : State} (h : Effect .build s u) (hs : s.Inv) {k : NodeId}
    (hge : u.nLeaf.toNat ≤ k.toNat) (hlt : k.toNat < u.arena.length) : u.JoinsLightest k := by
  obtain ⟨hv, -, r, q, -, rfl⟩ := h
  have hg := ordered_growTree hs hv
  refine State.JoinsLightest.congr (s := growTree s) ?_ (fun j _ => ?_) hlt (hg.joined k hge hlt)
  · rfl
  · rfl

/-- Settles O27: a BUILD that leaves no tree has failed; of the others, `joinsLightest_build` says it. -/
theorem buildMergesTheTwoLightestNodes : Obligations.BuildMergesTheTwoLightestNodes := by
  intro s t hs hv hexec ht k hge hlt
  cases exec_ends hexec with
  | decodeFault _ _ hd => cases hd
  | fault e _ _ => exact absurd ht (by simp [hv])
  | success d u hu =>
    have hk : (BitVec.ofNat 9 k).toNat = k := by
      have : u.arena.length < 512 := (hu.inv hs).layered.length_lt
      have : k < u.arena.length := hlt
      simp; omega
    obtain ⟨hleaf, hweight, hleft, hright, hlr, hmin⟩ :=
      hu.joinsLightest_build hs (k := BitVec.ofNat 9 k) (by rw [hk]; exact hge) (by rw [hk]; exact hlt)
    rw [hk] at hleft hright hmin
    exact ⟨hleaf, hweight, hleft, hright, lighterThan_iff.2 hlr,
      fun j hj hjl hjr => lighterThan_iff.2 (hmin j hj hjl hjr)⟩

end Sys2Proof.Machine
end

section
/-! SUPPORT. The length of a code (R128): a tree whose internal nodes join the two lightest nodes of their time removes its
nodes from the queue in the order of their keys, so a node with the larger key has no earlier parent and no longer path. -/

namespace Sys2Proof.Machine

/-- A node that is queued has been so since it was made. -/
theorem State.QueuedBefore.mono {s : State} {k m : Nat} {j : NodeId} (h : s.QueuedBefore m j) (hkm : k ≤ m)
    (hj : j.toNat < k) : s.QueuedBefore k j :=
  ⟨hj, fun i hge hlt => h.2 i hge (hlt.trans_le hkm)⟩

theorem State.QueuedBefore.ne_child {s : State} {k m : NodeId} {j : NodeId} (h : s.QueuedBefore m.toNat j)
    (hge : s.nLeaf.toNat ≤ k.toNat) (hkm : k.toNat < m.toNat) : j ≠ (s.node k).left ∧ j ≠ (s.node k).right := by
  have hk := h.2 k.toNat hge hkm
  rw [BitVec.ofNat_toNat, BitVec.setWidth_eq] at hk
  exact ⟨hk.1.symm, hk.2.symm⟩

namespace State.JoinsLightest

variable {s : State} {k : NodeId} (h : s.JoinsLightest k) (v : Bool)
include h

theorem child_queued : s.QueuedBefore k.toNat ((s.node k).child v) := by
  cases v
  · exact h.left_queued
  · exact h.right_queued

theorem key_child_le : s.key ((s.node k).child v) ≤ s.key (s.node k).right := by
  cases v
  · exact h.left_lt_right.le
  · exact le_rfl

end State.JoinsLightest

theorem key_lt_of_weight_le {s : State} {i j : NodeId} (hw : (s.node i).weight.toNat ≤ (s.node j).weight.toNat)
    (hij : i.toNat < j.toNat) : s.key i < s.key j := by
  rw [State.key, State.key, queueKey, queueKey]
  omega

theorem weight_le_of_key_le {s : State} {i j : NodeId} (h : s.key i ≤ s.key j) :
    (s.node i).weight.toNat ≤ (s.node j).weight.toNat := by
  rw [State.key, State.key, queueKey, queueKey] at h
  omega

/-- An arena as BUILD leaves it: every internal node joins the two lightest nodes of its time. -/
structure State.MergedInOrder (s : State) : Prop where
  layered : s.Layered
  joined : ∀ k : NodeId, s.nLeaf.toNat ≤ k.toNat → k.toNat < s.arena.length → s.JoinsLightest k

namespace State.MergedInOrder

variable {s : State} (h : s.MergedInOrder)
include h

theorem weight_eq {k : NodeId} (hge : s.nLeaf.toNat ≤ k.toNat) (hk : k.toNat < s.arena.length) :
    (s.node k).weight.toNat
      = (s.node ((s.node k).child false)).weight.toNat + (s.node ((s.node k).child true)).weight.toNat :=
  (h.layered.internalRecord hk hge).2.2.2.2

theorem weight_child_le {k : NodeId} (hge : s.nLeaf.toNat ≤ k.toNat) (hk : k.toNat < s.arena.length) (v : Bool) :
    (s.node ((s.node k).child v)).weight.toNat ≤ (s.node k).weight.toNat := by
  rw [h.weight_eq hge hk]
  cases v
  · exact Nat.le_add_right _ _
  · exact Nat.le_add_left _ _

/-- What is still queued after node `k` is made, or made later, comes after both children of `k`. -/
theorem right_lt_of_queued {k m j : NodeId} (hge : s.nLeaf.toNat ≤ k.toNat) (hkm : k.toNat < m.toNat)
    (hm : m.toNat < s.arena.length) (hj : s.QueuedBefore m.toNat j) : s.key (s.node k).right < s.key j := by
  have hk : k.toNat < s.arena.length := hkm.trans hm
  have hjoin := h.joined k hge hk
  induction hn : j.toNat using Nat.strong_induction_on generalizing j m with
  | _ n ih =>
    obtain hlt | rfl | hgt : j.toNat < k.toNat ∨ j = k ∨ k.toNat < j.toNat := by
      rw [← BitVec.toNat_inj]; omega
    · -- queued already with the children of `k`
      obtain ⟨hleft, hright⟩ := hj.ne_child hge hkm
      exact hjoin.right_lt j (hj.mono hkm.le hlt) hleft hright
    · exact key_lt_of_weight_le (h.weight_child_le hge hk true) hjoin.right_queued.1
    · -- made later, so no lighter than its own right child, to which the same applies
      have hj' : j.toNat < s.arena.length := hj.1.trans hm
      have hright := (h.joined j (by omega) hj').right_queued
      have hkey := ih _ (hn ▸ hright.1) hgt hj' hright rfl
      have hw := h.weight_child_le (by omega) hj' true
      exact key_lt_of_weight_le ((weight_le_of_key_le hkey.le).trans hw) (hjoin.right_queued.1.trans hgt)

/-- The children of the earlier node leave the queue earlier. -/
theorem key_child_lt {k m : NodeId} (hge : s.nLeaf.toNat ≤ k.toNat) (hkm : k.toNat < m.toNat)
    (hm : m.toNat < s.arena.length) (u v : Bool) : s.key ((s.node k).child u) < s.key ((s.node m).child v) :=
  ((h.joined k hge (hkm.trans hm)).key_child_le u).trans_lt
    (h.right_lt_of_queued hge hkm hm ((h.joined m (by omega) hm).child_queued v))

/-- Internal nodes are made in the order of their weights. -/
theorem weight_le {k m : NodeId} (hge : s.nLeaf.toNat ≤ k.toNat) (hkm : k.toNat ≤ m.toNat)
    (hm : m.toNat < s.arena.length) : (s.node k).weight.toNat ≤ (s.node m).weight.toNat := by
  obtain heq | hlt := hkm.eq_or_lt
  · rw [BitVec.eq_of_toNat_eq heq]
  · rw [h.weight_eq hge (hkm.trans_lt hm), h.weight_eq (by omega) hm]
    exact Nat.add_le_add (weight_le_of_key_le (h.key_child_lt hge hlt hm false false).le)
      (weight_le_of_key_le (h.key_child_lt hge hlt hm true true).le)

/-! ## Paths -/

/-- A path stays in the arena. -/
theorem toNat_lt_of_follow {i j : NodeId} {p : BitSeq} (hi : i.toNat < s.arena.length) (hp : s.follow i p = some j) :
    j.toNat < s.arena.length := by
  induction p generalizing i with
  | nil => cases hp; exact hi
  | cons v p ih =>
    cases hl : (s.node i).leaf with
    | true => simp [State.follow, hl] at hp
    | false => exact ih (((h.layered.child_lt hi hl).2 v).trans hi) (by simpa [State.follow, hl] using hp)

/-- The last edge of a path. -/
theorem parent_of_follow_snoc {i j : NodeId} {p : BitSeq} {v : Bool} (hi : i.toNat < s.arena.length)
    (hp : s.follow i (p ++ [v]) = some j) :
    ∃ k, s.follow i p = some k ∧ k.toNat < s.arena.length ∧ s.nLeaf.toNat ≤ k.toNat ∧ (s.node k).child v = j := by
  rw [follow_append, Option.bind_eq_some_iff] at hp
  obtain ⟨k, hk, hkj⟩ := hp
  have hk' := h.toNat_lt_of_follow hi hk
  cases hl : (s.node k).leaf with
  | true => simp [State.follow, hl] at hkj
  | false => exact ⟨k, hk, hk', (h.layered.child_lt hk' hl).1, by simpa [State.follow, hl] using hkj⟩

/-- The node with the larger key has no longer path from the last record. -/
theorem length_path_le {r i j : NodeId} {p q : BitSeq} (hr : r.toNat + 1 = s.arena.length) (hp : s.follow r p = some i)
    (hq : s.follow r q = some j) (hij : s.key i ≤ s.key j) : q.length ≤ p.length := by
  induction q using List.reverseRecOn generalizing i j p with
  | nil => exact Nat.zero_le _
  | append_singleton q v ih =>
    obtain ⟨m, hqm, hm, hmge, rfl⟩ := h.parent_of_follow_snoc (by omega) hq
    have hchild := ((h.joined m hmge hm).child_queued v).1
    obtain rfl | ⟨p, u, rfl⟩ := List.eq_nil_or_concat' p
    · -- the last record has the largest key
      cases hp
      have hle := h.weight_le (k := m) (m := r) hmge (by omega) (by omega)
      have hlt := key_lt_of_weight_le ((h.weight_child_le hmge hm v).trans hle) (by omega)
      exact absurd hij (by omega)
    · obtain ⟨k, hpk, hk, hkge, rfl⟩ := h.parent_of_follow_snoc (by omega) hp
      have hkm : k.toNat ≤ m.toNat := by
        by_contra hlt
        exact absurd (h.key_child_lt hmge (by omega) hk v u) (by omega)
      have hkey : s.key k ≤ s.key m := by
        have hle := h.weight_le hkge hkm hm
        rw [State.key, State.key, queueKey, queueKey]
        omega
      simpa using ih hpk hqm hkey

end State.MergedInOrder

/-! ## BUILD and GEN -/

/-- GEN leaves the tree. -/
theorem Ends.sameTree_gen {s t : State} (h : Ends .gen s t) : SameTree s t := by
  cases h with
  | fault e _ _ => simp [SameTree]
  | decodeFault _ _ hd => cases hd
  | success d u hu =>
    obtain ⟨-, ⟨-, rfl⟩ | ⟨-, w, hw, rfl⟩⟩ := hu
    · simp [SameTree, degenerateTable]
    · rw [walkTree_frame hw]
      simp [SameTree, startWalk]

/-- A tree that is there after BUILD and GEN, and was not before, was merged in order. -/
theorem mergedInOrder_of_build_gen {s t u : State} (hs : s.Inv) (hv : s.treeValid = false) (hb : Ends .build s t)
    (hg : Ends .gen t u) (hu : u.treeValid = true) : u.MergedInOrder := by
  have hlay := (hg.inv (hb.inv hs)).layered
  obtain ⟨ha, hn, -, -, htv, -⟩ := hg.sameTree_gen
  rw [htv] at hu
  cases hb with
  | fault e _ _ => exact absurd hu (by simp [hv])
  | decodeFault _ _ hd => cases hd
  | success d w hw =>
    refine ⟨hlay, fun k hge hlt => ?_⟩
    rw [hn] at hge
    rw [ha] at hlt
    exact State.JoinsLightest.congr (s := w) hn (fun j _ => node_congr ha j) hlt (hw.joinsLightest_build hs hge hlt)

/-- Settles O34: in the degenerate tree there is one code; in any other a code is a path. -/
theorem heavierSymbolsHaveNoLongerCodes : Obligations.HeavierSymbolsHaveNoLongerCodes := by
  intro s t u x y p q hs hv hb hg hp hq hlt
  have hinv := (exec_ends hg).inv ((exec_ends hb).inv hs)
  obtain ⟨hct, hentry⟩ := hinv.tableHolds
  obtain ⟨hctv, -, -, hpfix, hppath⟩ := (hentry x).2 p (by simp [hp])
  obtain ⟨-, -, -, hqfix, hqpath⟩ := (hentry y).2 q (by simp [hq])
  have hmerged := mergedInOrder_of_build_gen hs hv (exec_ends hb) (exec_ends hg) (hct hctv)
  cases hl : (u.node u.root).leaf with
  | true => rw [hpfix hl, hqfix hl]
  | false =>
    obtain ⟨-, -, hroot, -⟩ := hinv.treeShape.2.2 (hct hctv)
    exact hmerged.length_path_le hroot (hqpath hl) (hppath hl) (queueKey_lt_iff.2 (.inl hlt)).le

end Sys2Proof.Machine
end

section
/-! SUPPORT. The commands of the tree builder by their checks: LEAF, BUILD and RDNODE (R123, R124, R126). -/

namespace Sys2Proof.Machine

/-! ## LEAF (R123) -/

theorem exec_leaf_of_tree {s : State} (hv : s.treeValid = true) (x : Sym) (w : BitVec 16) :
    exec (.leaf x w) s = .next (raise .badState 0#32 s) := by
  simp only [exec, execLeaf, if_pos hv]

theorem exec_leaf_of_zero {s : State} (hv : s.treeValid = false) (x : Sym) :
    exec (.leaf x 0#16) s = .next (raise .invalidWeight 0#32 s) := by
  simp [exec, execLeaf, hv]

theorem exec_leaf_of_met {s : State} (hv : s.treeValid = false) {x : Sym} {w : BitVec 16} (hw : w ≠ 0#16)
    (hx : s.leafOfSym x ≠ nil9) : exec (.leaf x w) s = .next (raise .duplicateSymbol 0#32 s) := by
  simp [exec, execLeaf, hv, hw, hx]

theorem exec_leaf_of_full {s : State} (hv : s.treeValid = false) {x : Sym} {w : BitVec 16} (hw : w ≠ 0#16)
    (hx : s.leafOfSym x = nil9) (hsum : maxWeight < s.totalW.toNat + w.toNat) :
    exec (.leaf x w) s = .next (raise .weightOverflow 0#32 s) := by
  simp [exec, execLeaf, hv, hw, hx, hsum]

theorem exec_leaf_of_new {s : State} (hv : s.treeValid = false) {x : Sym} {w : BitVec 16} (hw : w ≠ 0#16)
    (hx : s.leafOfSym x = nil9) (hsum : s.totalW.toNat + w.toNat ≤ maxWeight) :
    exec (.leaf x w) s = .next (respond (zext32 s.nNode) (s.addLeaf x (zext32 w))) := by
  simp [exec, execLeaf, hv, hw, hx, hsum]

/-- Settles O25: LEAF's five cases, with what `addLeaf` writes. -/
theorem leafLoadsAWeightedLeaf : Obligations.LeafLoadsAWeightedLeaf := by
  intro s x w
  refine ⟨fun hv => exec_leaf_of_tree hv x w, ?zero, fun hv hw hx => exec_leaf_of_met hv hw hx,
    fun hv hw hx hsum => exec_leaf_of_full hv hw hx (by rw [maxWeight]; omega), ?new⟩
  case zero =>
    rintro hv rfl
    exact exec_leaf_of_zero hv x
  case new =>
    intro hv hw hx hsum
    refine ⟨_, exec_leaf_of_new hv hw hx (by rw [maxWeight]; omega), rfl, rfl,
      (leafOfSym_addLeaf s x x _).trans (if_pos rfl), fun y hy => (leafOfSym_addLeaf s x y _).trans (if_neg hy), ?_, rfl⟩
    simp [zext32, BitVec.toNat_add]
    omega

/-! ## BUILD (R124) -/

theorem allBlank_iff {s : State} :
    s.allBlank = true ↔ ∀ i, i < s.nLeaf.toNat → (s.node (BitVec.ofNat 9 i)).sym ∈ s.params.blank := by
  simp [State.allBlank]

theorem exec_build_of_tree {s : State} (hv : s.treeValid = true) :
    exec .build s = .next (raise .badState 0#32 s) := by
  simp only [exec, execBuild, if_pos hv]

theorem exec_build_of_blank {s : State} (hv : s.treeValid = false) (hb : s.allBlank = true) :
    exec .build s = .next (raise .invalidInput 0#32 s) := by
  simp [exec, execBuild, hv, hb]

/-- A BUILD that passes its checks plants the last entry of the queue, which leaves it empty (R207). -/
theorem exec_build_of_leaves {s : State} (hv : s.treeValid = false) (hn : s.nLeaf ≠ 0#9) (hb : s.allBlank = false) :
    ∃ r, (growTree s).pq = [r] ∧ exec .build s = .next (respond (zext32 r.id)
      (State.plantRoot { growTree s with pq := [], tbState := .idle } r.id).forgetBuilder) := by
  obtain ⟨r, hr⟩ := List.length_eq_one_iff.1 (growTree_pq_length s hn).1
  exact ⟨r, hr, by simp [exec, execBuild, hv, hn, hb, hr, pqPopMin]⟩

/-- Settles O26: BUILD's three cases; what a completed BUILD leaves unchanged is the frame of `growTree`. -/
theorem buildChecksThenPlantsATree : Obligations.BuildChecksThenPlantsATree := by
  intro s
  refine ⟨exec_build_of_tree, fun hv hb => exec_build_of_blank hv (allBlank_iff.2 hb), ?_⟩
  rintro hv ⟨i, hi, hsym⟩
  have hn : s.nLeaf ≠ 0#9 := by rintro h0; simp [h0] at hi
  have hb : s.allBlank = false := by
    rw [← Bool.not_eq_true, allBlank_iff]
    exact fun hall => hsym (hall i hi)
  obtain ⟨r, hr, hexec⟩ := exec_build_of_leaves hv hn hb
  obtain ⟨-, hlen, hprefix⟩ := growTree_pq_length s hn
  refine ⟨_, hexec, rfl, rfl, rfl, rfl, hprefix, hlen, ?_⟩
  rw [growTree_frame]
  rfl

/-! ## RDNODE (R126) -/

theorem exec_rdnode_of_illegal {f : BitVec 8} (hf : 3#8 < f) (i : BitVec 16) (s : State) :
    exec (.rdnode f i) s = .next (raise .illegalCommand 0#32 s) := by
  simp only [exec, execRdnode, if_pos hf]

theorem exec_rdnode_of_absent {f : BitVec 8} (hf : f ≤ 3#8) {i : BitVec 16} {s : State} (hi : s.arena.length ≤ i.toNat) :
    exec (.rdnode f i) s = .next (raise .badIndex 0#32 s) := by
  simp [exec, execRdnode, BitVec.not_lt.2 hf, hi]

theorem exec_rdnode_of_live {f : BitVec 8} (hf : f ≤ 3#8) {i : BitVec 16} {s : State} {n : Node} {d : Word}
    (hn : s.arena[i.toNat]? = some n) (hd : nodeField f n = some d) : exec (.rdnode f i) s = .next (respond d s) := by
  simp [exec, execRdnode, BitVec.not_lt.2 hf, hn, hd]

/-- INFO holds the leaf bit above the symbol (R126). -/
theorem nodeField_info (n : Node) : nodeField 0#8 n = some ((BitVec.ofBool n.leaf ++ n.sym).setWidth 32) := by
  have hinfo : flagAt n.leaf 8 ||| zext32 n.sym = (BitVec.ofBool n.leaf ++ n.sym).setWidth 32 := by
    refine BitVec.eq_of_getLsbD_eq fun i hi => ?_
    rw [BitVec.getLsbD_or, getLsbD_flagAt (by decide), BitVec.getLsbD_setWidth, BitVec.getLsbD_append]
    by_cases h8 : i < 8
    · simp [zext32, hi, h8, show 8 ≠ i by omega]
    · have hsym : n.sym.getLsbD i = false := BitVec.getLsbD_of_ge _ _ (by omega)
      simp [zext32, hi, h8, hsym, BitVec.getLsbD_ofBool, show i - 8 = 0 ↔ 8 = i by omega, Bool.and_comm]
  exact congrArg some hinfo

/-- Settles O29: each field by its own equation. -/
theorem rdnodeReadsOneField : Obligations.RdnodeReadsOneField := by
  intro s i
  refine ⟨fun n hn => ⟨?_, ?_, ?_, ?_⟩, fun hi f hf => exec_rdnode_of_absent hf hi,
    fun f hf => exec_rdnode_of_illegal hf i s⟩
  · exact exec_rdnode_of_live (by decide) hn (nodeField_info n)
  · exact exec_rdnode_of_live (by decide) hn rfl
  · exact exec_rdnode_of_live (by decide) hn rfl
  · exact exec_rdnode_of_live (by decide) hn rfl

end Sys2Proof.Machine
end

section
/-! SUPPORT. A machine run by its visits (R9). -/

namespace Sys2Proof.Machine

section
variable {busy : State → Bool} {visit : State → Host.Outcome State Fault Refusal} {s t u : State}

theorem runMachine_of_not_busy (h : busy s = false) (k : Nat) : runMachine busy visit k s = .next s := by
  cases k with
  | zero => rfl
  | succ k => simp [runMachine, h]

theorem runMachine_succ_of_visit (hb : busy s = true) (hv : visit s = .next t) (k : Nat) :
    runMachine busy visit (k + 1) s = runMachine busy visit k t := by
  simp [runMachine, hb, hv]

/-- A run goes on from where it has come to. -/
theorem runMachine_add {k : Nat} (h : runMachine busy visit k s = .next t) (m : Nat) :
    runMachine busy visit (k + m) s = runMachine busy visit m t := by
  induction k generalizing s with
  | zero => cases h; rw [Nat.zero_add]
  | succ k ih =>
    cases hb : busy s with
    | false =>
      rw [runMachine_of_not_busy hb] at h
      cases h
      rw [runMachine_of_not_busy hb, runMachine_of_not_busy hb]
    | true =>
      cases hv : visit s with
      | next s' =>
        rw [runMachine_succ_of_visit hb hv] at h
        rw [Nat.succ_add, runMachine_succ_of_visit hb hv, ih h]
      | fault r => simp [runMachine, hb, hv] at h
      | refused r => simp [runMachine, hb, hv] at h

/-- The machine comes from `s` to `t` in some number of visits. -/
def MachineReaches (busy : State → Bool) (visit : State → Host.Outcome State Fault Refusal) (s t : State) : Prop :=
  ∃ k, runMachine busy visit k s = .next t

theorem MachineReaches.refl (s : State) : MachineReaches busy visit s s := ⟨0, rfl⟩

theorem MachineReaches.trans (h : MachineReaches busy visit s t) (h' : MachineReaches busy visit t u) :
    MachineReaches busy visit s u := by
  obtain ⟨k, hk⟩ := h
  obtain ⟨m, hm⟩ := h'
  exact ⟨k + m, (runMachine_add hk m).trans hm⟩

theorem MachineReaches.of_visit (hb : busy s = true) (hv : visit s = .next t) : MachineReaches busy visit s t :=
  ⟨1, runMachine_succ_of_visit hb hv 0⟩

end

end Sys2Proof.Machine
end

section
/-! SUPPORT. The merge machine performs BUILD (R125): a state of the machine is a state of the command level with the
machine's registers overwritten, and seeding and merging leave those alone. -/

namespace Sys2Proof.Machine

/-- `s` with the registers of the merge machine. -/
def State.inMerge (s : State) (m : TbState) (i : BitVec 9) (a b : PqEntry) : State :=
  { s with tbState := m, seedI := i, tbA := a, tbB := b }

abbrev MergeReaches : State → State → Prop := MachineReaches tbBusy tbVisit

section
variable {s : State} {i : BitVec 9} {a b : PqEntry}

/-! ## One visit -/

theorem visit_seed_leaf (h : i < s.nLeaf) :
    MergeReaches (s.inMerge .seed i a b) ((seedLeaf i s).inMerge .seed (i + 1#9) a b) :=
  .of_visit rfl (if_pos h)

theorem visit_seed_done (h : ¬ i < s.nLeaf) :
    MergeReaches (s.inMerge .seed i a b) (tbNext (s.inMerge .seed i a b)) :=
  .of_visit rfl (if_neg h)

theorem visit_pop1 {e : PqEntry} {q : List PqEntry} (h : s.pq = e :: q) :
    MergeReaches (s.inMerge .pop1 i a b) (State.inMerge { s with pq := q } .pop2 i e b) :=
  .of_visit rfl (by simp only [tbVisit, State.inMerge, h, pqPopMin])

theorem visit_pop2 {e : PqEntry} {q : List PqEntry} (h : s.pq = e :: q) :
    MergeReaches (s.inMerge .pop2 i a b) (State.inMerge { s with pq := q } .merge i a e) :=
  .of_visit rfl (by simp only [tbVisit, State.inMerge, h, pqPopMin])

theorem visit_merge : MergeReaches (s.inMerge .merge i a b) (tbNext ((mergeNodes a b s).inMerge .merge i a b)) :=
  .of_visit rfl rfl

theorem visit_fin {e : PqEntry} {q : List PqEntry} (h : s.pq = e :: q) :
    MergeReaches (s.inMerge .fin i a b)
      (respond (zext32 e.id) (State.plantRoot (State.inMerge { s with pq := q } .idle i a b) e.id)) :=
  .of_visit rfl (by simp only [tbVisit, State.inMerge, h, pqPopMin])

theorem tbNext_inMerge (m : TbState) :
    tbNext (s.inMerge m i a b) = s.inMerge (if s.pq.length = 1 then .fin else .pop1) i a b := rfl

/-! ## The loops -/

/-- The visits of TB_SEED seed the leaves that are left. -/
theorem reaches_seedLeaves (k j : Nat) (h : j + k = s.nLeaf.toNat) :
    MergeReaches (s.inMerge .seed (BitVec.ofNat 9 j) a b) (tbNext ((seedLeaves k j s).inMerge .seed s.nLeaf a b)) := by
  induction k generalizing j s with
  | zero =>
    obtain rfl : j = s.nLeaf.toNat := h
    rw [BitVec.ofNat_toNat, BitVec.setWidth_eq]
    exact visit_seed_done (BitVec.lt_irrefl _)
  | succ k ih =>
    have hlt : BitVec.ofNat 9 j < s.nLeaf := by
      rw [BitVec.lt_def, BitVec.toNat_ofNat]
      omega
    have hrest := ih (s := seedLeaf (BitVec.ofNat 9 j) s) (j + 1) (by simpa [seedLeaf] using by omega)
    rw [BitVec.ofNat_add] at hrest
    exact (visit_seed_leaf hlt).trans hrest

/-- Three visits to a merge, until one entry is left. -/
theorem reaches_mergeLoop (k n : Nat) (hlen : s.pq.length = n + 1) (hk : n ≤ k) (m : TbState) :
    ∃ a' b', MergeReaches (tbNext (s.inMerge m i a b)) ((mergeLoop k s).inMerge .fin i a' b') := by
  induction n generalizing k s a b m with
  | zero =>
    obtain ⟨e, hpq⟩ := List.length_eq_one_iff.1 hlen
    have hstop : mergeLoop k s = s := by cases k <;> simp [mergeLoop, hpq]
    rw [hstop, tbNext_inMerge, if_pos hlen]
    exact ⟨a, b, .refl _⟩
  | succ n ih =>
    match hpq : s.pq with
    | [] => simp [hpq] at hlen
    | [e] => simp [hpq] at hlen
    | x :: y :: q =>
      obtain ⟨k, rfl⟩ : ∃ k', k = k' + 1 := ⟨k - 1, by omega⟩
      have hstep : mergeLoop (k + 1) s = mergeLoop k (mergeNodes x y { s with pq := q }) := by rw [mergeLoop, hpq]
      have hlen' : (mergeNodes x y { s with pq := q }).pq.length = n + 1 := by
        simpa [mergeNodes_fields, hpq] using hlen
      obtain ⟨a', b', hrest⟩ := ih (a := x) (b := y) k hlen' (by omega) .merge
      rw [hstep, tbNext_inMerge, if_neg (by omega)]
      exact ⟨a', b', (visit_pop1 hpq).trans ((visit_pop2 rfl).trans (visit_merge.trans hrest))⟩

end

/-- Settles O28: the machine seeds, merges and plants as the command does; its registers are all that differs. -/
theorem mergeMachineRefinesBuild : Obligations.MergeMachineRefinesBuild := by
  intro s u hv hn hb hexec
  obtain ⟨r, hr, hbuild⟩ := exec_build_of_leaves hv hn hb
  rw [hbuild] at hexec
  cases hexec
  have hseed : MergeReaches (tbAccept s) _ := reaches_seedLeaves (s := s.emptyQueue) s.nLeaf.toNat 0 (Nat.zero_add _)
  have hpos : s.nLeaf.toNat ≠ 0 := fun hc => hn (BitVec.eq_of_toNat_eq hc)
  have hlen := seedLeaves_pq_length s.nLeaf.toNat 0 s.emptyQueue
  obtain ⟨a, b, hmerge⟩ := reaches_mergeLoop (s := seedLeaves s.nLeaf.toNat 0 s.emptyQueue) (i := s.nLeaf) (a := s.tbA)
    (b := s.tbB) s.nLeaf.toNat (s.nLeaf.toNat - 1) (by rw [hlen]; simp; omega) (by omega) .seed
  obtain ⟨k, hk⟩ := hseed.trans (hmerge.trans (visit_fin (s := growTree s) hr))
  exact ⟨k, _, hk, rfl, rfl⟩

end Sys2Proof.Machine
end

section
/-! SUPPORT. The reads of the code table, RDLEN and RDCBIT, by what the table holds (R142, R143). -/

namespace Sys2Proof.Machine

section
variable {s : State} {x : Sym} {p : BitSeq}

theorem exec_rdlen_of_code (hp : s.codeOf x = some p) : exec (.rdlen x) s = .next (respond (word p.length) s) := by
  simp only [exec, execRdlen, hp]

theorem exec_rdlen_of_unmapped (hc : s.codeOf x = none) : exec (.rdlen x) s = .next (respond 0#32 s) := by
  simp only [exec, execRdlen, hc]

theorem exec_rdcbit_of_unmapped (hc : s.codeOf x = none) (k : BitVec 16) :
    exec (.rdcbit x k) s = .next (raise .unmappedSymbol 0#32 s) := by
  simp only [exec, execRdcbit, hc]

theorem exec_rdcbit_of_beyond (hp : s.codeOf x = some p) {k : BitVec 16} (hk : p.length ≤ k.toNat) :
    exec (.rdcbit x k) s = .next (raise .badIndex 0#32 s) := by
  simp only [exec, execRdcbit, hp, List.getElem?_eq_none hk]

theorem exec_rdcbit_of_bit (hp : s.codeOf x = some p) {k : BitVec 16} {b : Bool} (hb : p[k.toNat]? = some b) :
    exec (.rdcbit x k) s = .next (respond (bitWord b) s) := by
  simp only [exec, execRdcbit, hp, hb]

end

theorem bitWord_eq_setWidth (b : Bool) : bitWord b = (BitVec.ofBool b).setWidth 32 := by
  cases b <;> rfl

/-- Settles O35: with an entry and without one. -/
theorem rdlenReadsTheCodeLength : Obligations.RdlenReadsTheCodeLength :=
  fun _ _ => ⟨fun _ hp => exec_rdlen_of_code hp, fun hc => exec_rdlen_of_unmapped hc⟩

/-- Settles O36: without an entry, beyond the code, and inside it. -/
theorem rdcbitReadsOneCodeBit : Obligations.RdcbitReadsOneCodeBit := by
  intro s x k
  refine ⟨fun hc => exec_rdcbit_of_unmapped hc k, fun p hp hk => exec_rdcbit_of_beyond hp hk, fun p b hp hb => ?_⟩
  rw [← bitWord_eq_setWidth]
  exact exec_rdcbit_of_bit hp hb

end Sys2Proof.Machine
end

section
/-! SUPPORT. GEN counts every leaf once (R140): the traversal counts the leaves it visits, it visits no node twice, and a
symbol has a code only when its leaf has been visited. -/

namespace Sys2Proof.Machine

/-! ## The command by its cases -/

section
variable {s w : State}

theorem exec_gen_of_no_tree (hv : s.treeValid = false) : exec .gen s = .next (raise .badState 0#32 s) := by
  simp only [exec, execGen, if_pos hv]

theorem exec_gen_of_degenerate (hv : s.treeValid = true) (hl : (s.node s.root).leaf = true) :
    exec .gen s = .next (finishTable (degenerateTable s)) := by
  simp [exec, execGen, hv, hl]

theorem exec_gen_of_walk (hv : s.treeValid = true) (hl : (s.node s.root).leaf = false)
    (hw : walkTree s.arena.length (startWalk s) = some w) : exec .gen s = .next (finishTable w) := by
  simp [exec, execGen, hv, hl, hw]

end

/-- The table a GEN leaves is the one it has written. -/
theorem finishTable_ct (w : State) : (finishTable w).ct = w.ct := rfl

/-- GEN answers the number of entries written. -/
theorem finishTable_resp (w : State) : (finishTable w).resp = some ⟨0#8, zext32 w.count⟩ := rfl

/-- What every visit keeps holds when the traversal has ended. -/
theorem walkTree_keeps {P : State → Prop}
    (hvisit : ∀ {w : State} {e : StkEntry} {rest : List StkEntry}, w.stk = e :: rest → P w → P (visitNode e rest w))
    {k : Nat} {w t : State} (h : P w) (hw : walkTree k w = some t) : P t := by
  induction k generalizing w with
  | zero =>
    match hstk : w.stk with
    | [] => rw [walkTree_nil hstk] at hw; cases hw; exact h
    | e :: rest => rw [walkTree_zero_cons hstk] at hw; cases hw
  | succ k ih =>
    match hstk : w.stk with
    | [] => rw [walkTree_nil hstk] at hw; cases hw; exact h
    | e :: rest =>
      rw [walkTree_cons hstk] at hw
      exact ih (hvisit hstk h) hw

/-! ## The leaves -/

/-- A leaf's identifier is not NIL. -/
theorem State.Layered.ne_nil_of_lt {s : State} (h : s.Layered) {i : NodeId} (hi : i.toNat < s.nLeaf.toNat) : i ≠ nil9 := by
  have h256 := h.leavesFirst.1
  rintro rfl
  simp [nil9] at hi
  omega

/-- The degenerate tree has one leaf. -/
theorem State.Inv.nLeaf_eq_one {s : State} (hs : s.Inv) (hv : s.treeValid = true) (hl : (s.node s.root).leaf = true) :
    s.nLeaf = 1#9 := by
  obtain ⟨hpos, hsize, hroot, -⟩ := hs.treeShape.2.2 hv
  have hlt := (hs.layered.leaf_iff (i := s.root) (by omega)).1 hl
  exact BitVec.eq_of_toNat_eq (by simp; omega)

/-- The traversal has visited no node when it starts. -/
theorem visitsOnce_startWalk {s : State} (hs : s.Inv) (hv : s.treeValid = true) : VisitsOnce s (startWalk s) [] := by
  have hroot := (hs.treeShape.2.2 hv).2.2.1
  refine ⟨rfl, List.nodup_singleton s.root, fun i hi => ?_, fun i hi => .inl (List.mem_singleton.1 hi)⟩
  obtain rfl : i = s.root := List.mem_singleton.1 hi
  omega

/-- The count of the traversal of the tree of `s`: `done` are the nodes visited. -/
structure CountsLeaves (s w : State) (done : List NodeId) : Prop where
  visits : VisitsOnce s w done
  count : w.count = BitVec.ofNat 9 (done.countP fun i => (s.node i).leaf)
  coded : ∀ x, w.codeOf x ≠ none → s.leafOfSym x ∈ done

theorem CountsLeaves.visitNode {s w : State} {done : List NodeId} (h : CountsLeaves s w done) (hs : s.Inv)
    (hv : s.treeValid = true) {e : StkEntry} {rest : List StkEntry} (hstk : w.stk = e :: rest) :
    CountsLeaves s (visitNode e rest w) (e.id :: done) := by
  obtain ⟨hvisits, hcount, hcoded⟩ := h
  have hnode : w.node e.id = s.node e.id := node_congr hvisits.arena e.id
  have hvisits' := hvisits.visitNode hs hv hstk
  cases hl : (s.node e.id).leaf with
  | true =>
    have hid := hvisits.exist e.id (by simp [reached, hstk])
    have hleaf := hs.layered.leafOfSym_sym ((hs.layered.leaf_iff hid).1 hl)
    rw [visitNode_leaf (hnode ▸ hl), hnode] at hvisits' ⊢
    refine ⟨hvisits', by simp [hl, hcount, BitVec.ofNat_add], fun x hx => ?_⟩
    by_cases hxe : x = (s.node e.id).sym
    · rw [hxe, hleaf]
      exact List.mem_cons_self
    · exact List.mem_cons_of_mem _ (hcoded x (codeOf_setCode_of_ne w e.path hxe ▸ hx))
  | false =>
    rw [visitNode_internal (hnode ▸ hl)] at hvisits' ⊢
    exact ⟨hvisits', by simp [hl, hcount], fun x hx => List.mem_cons_of_mem _ (hcoded x hx)⟩

theorem CountsLeaves.walkTree {s w t : State} {done : List NodeId} (h : CountsLeaves s w done) (hs : s.Inv)
    (hv : s.treeValid = true) {k : Nat} (hw : walkTree k w = some t) : ∃ all, CountsLeaves s t all :=
  walkTree_keeps (P := fun w => ∃ done, CountsLeaves s w done)
    (fun hstk ⟨_, h⟩ => ⟨_, h.visitNode hs hv hstk⟩) ⟨done, h⟩ hw

/-- When every leaf has its code, the count is the number of leaves. -/
theorem CountsLeaves.count_eq {s t : State} {all : List NodeId} (h : CountsLeaves s t all) (hs : s.Inv)
    (hmapped : ∀ x, s.leafOfSym x ≠ nil9 → t.codeOf x ≠ none) : t.count = s.nLeaf := by
  have hlay := hs.layered
  obtain ⟨hvisits, hcount, hcoded⟩ := h
  have hnodup : all.Nodup := hvisits.nodup.of_append_left
  have hlt {i : NodeId} (hi : i ∈ all) : i.toNat < s.arena.length := hvisits.exist i (List.mem_append_left _ hi)
  have hall {i : NodeId} (hi : i.toNat < s.nLeaf.toNat) : i ∈ all := by
    have hleaf := hlay.leafOfSym_sym hi
    have hcode := hcoded _ (hmapped _ (by rw [hleaf]; exact hlay.ne_nil_of_lt hi))
    rwa [hleaf] at hcode
  have hperm : ((all.filter fun i => (s.node i).leaf).map BitVec.toNat).Perm (List.range s.nLeaf.toNat) := by
    refine (List.perm_ext_iff_of_nodup ((hnodup.filter _).map fun _ _ => BitVec.eq_of_toNat_eq) List.nodup_range).2
      fun n => ?_
    simp only [List.mem_map, List.mem_filter, List.mem_range]
    constructor
    · rintro ⟨i, ⟨hi, hl⟩, rfl⟩
      exact (hlay.leaf_iff (hlt hi)).1 hl
    · intro hn
      have h256 := hlay.leavesFirst.1
      have hid : (BitVec.ofNat 9 n).toNat = n := by simp; omega
      have hi := hall (i := BitVec.ofNat 9 n) (by omega)
      exact ⟨_, ⟨hi, (hlay.leaf_iff (hlt hi)).2 (by omega)⟩, hid⟩
  have hlen := hperm.length_eq
  rw [List.length_map, ← List.countP_eq_length_filter, List.length_range] at hlen
  rw [hcount, hlen, BitVec.ofNat_toNat, BitVec.setWidth_eq]

/-- The traversal of a tree counts `n_leaf` leaves. -/
theorem count_walkTree {s t : State} (hs : s.Inv) (hv : s.treeValid = true) (hl : (s.node s.root).leaf = false) {k : Nat}
    (ht : walkTree k (startWalk s) = some t) : t.count = s.nLeaf := by
  have hstart : CountsLeaves s (startWalk s) [] :=
    ⟨visitsOnce_startWalk hs hv, rfl, fun x hx => absurd (codeOf_clearTable s x) hx⟩
  obtain ⟨all, hall⟩ := hstart.walkTree hs hv ht
  exact hall.count_eq hs (tableWritten_walkTree hs hv hl ht).mapped

/-! ## The table -/

/-- With a tree GEN writes every leaf's entry, and counts them. -/
theorem exec_gen_of_tree {s : State} (hs : s.Inv) (hv : s.treeValid = true) :
    ∃ w, exec .gen s = .next (finishTable w) ∧ TableWritten s w ∧ w.count = s.nLeaf := by
  cases hl : (s.node s.root).leaf with
  | true =>
    exact ⟨_, exec_gen_of_degenerate hv hl, tableWritten_degenerate hs hv hl, (hs.nLeaf_eq_one hv hl).symm⟩
  | false =>
    obtain ⟨w, hw⟩ := walkTree_startWalk_ends hs hv
    exact ⟨w, exec_gen_of_walk hv hl hw, tableWritten_walkTree hs hv hl hw, count_walkTree hs hv hl hw⟩

/-- Settles O30: GEN's two cases, with the table of `exec_gen_of_tree`. -/
theorem genFillsTheTableWithPaths : Obligations.GenFillsTheTableWithPaths := by
  intro s
  refine ⟨exec_gen_of_no_tree, fun hs hv => ?_⟩
  obtain ⟨w, hexec, ⟨hframe, hmapped, hentry⟩, hcount⟩ := exec_gen_of_tree hs hv
  refine ⟨_, hexec, by rw [← hcount]; rfl, fun x hx => ?_, fun x hx => ?_, ?_⟩
  · -- an entry would name a leaf of `x`
    exact Option.eq_none_iff_forall_ne_some.2 fun c hc => (hentry x c hc).1 hx
  · obtain ⟨c, hc⟩ := Option.ne_none_iff_exists'.1 (hmapped x hx)
    obtain ⟨-, -, hfixed, hpath⟩ := hentry x c hc
    exact ⟨c, hc, hfixed, hpath⟩
  · obtain ⟨-, -, -, -, hstk, -⟩ := hs.machinesIdle
    rw [← hstk] at hframe
    rw [hframe]
    rfl

end Sys2Proof.Machine
end

section
/-! SUPPORT. What the table depends on (R140) and that no code of it begins another (R144). -/

namespace Sys2Proof.Machine

/-! ## The traversal reads the tree and its own registers -/

/-- `h` with what the traversal writes taken from `w`. -/
def State.withWalk (h w : State) : State := { h with ct := w.ct, stk := w.stk, count := w.count }

section
variable {h w : State} (ha : h.arena = w.arena)
include ha

theorem visitNode_withWalk (e : StkEntry) (rest : List StkEntry) :
    visitNode e rest (h.withWalk w) = h.withWalk (visitNode e rest w) := by
  have hnode : (h.withWalk w).node e.id = w.node e.id := node_congr ha e.id
  unfold visitNode
  rw [hnode]
  dsimp only
  split <;> rfl

/-- Every other register may be overwritten before the traversal or after it: `walkTree_besideStack` for the visible ones
too. -/
theorem walkTree_withWalk (k : Nat) : walkTree k (h.withWalk w) = (walkTree k w).map h.withWalk := by
  have hstk (w : State) : (h.withWalk w).stk = w.stk := rfl
  induction k generalizing w with
  | zero =>
    match hs : w.stk with
    | [] => rw [walkTree_nil hs, walkTree_nil (hstk w ▸ hs)]; rfl
    | e :: rest => rw [walkTree_zero_cons hs, walkTree_zero_cons (hstk w ▸ hs)]; rfl
  | succ k ih =>
    match hs : w.stk with
    | [] => rw [walkTree_nil hs, walkTree_nil (hstk w ▸ hs)]; rfl
    | e :: rest =>
      rw [walkTree_cons hs, walkTree_cons (hstk w ▸ hs), visitNode_withWalk ha, ih]
      rw [visitNode_frame]
      exact ha

end

/-- The fixed code depends on the tree alone. -/
theorem degenerateTable_congr {s t : State} (ha : t.arena = s.arena) (hr : t.root = s.root) :
    (degenerateTable t).ct = (degenerateTable s).ct ∧ (degenerateTable t).count = (degenerateTable s).count := by
  simp [degenerateTable, node_congr ha, hr]

/-- The traversal of the tree of `s` can be started again from any state with that tree. -/
theorem walkTree_startWalk_congr {s t w : State} (ha : t.arena = s.arena) (hr : t.root = s.root)
    (hw : walkTree s.arena.length (startWalk s) = some w) : walkTree t.arena.length (startWalk t) = some (t.withWalk w) := by
  have hstart : startWalk t = t.withWalk (startWalk s) := by
    simp only [startWalk, hr]
    rfl
  have hagain := walkTree_withWalk (h := t) (w := startWalk s) ha s.arena.length
  rwa [← hstart, hw, ← ha] at hagain

/-- Settles O32: the second GEN finds the same tree. -/
theorem genRepeatedWritesTheSameTable : Obligations.GenRepeatedWritesTheSameTable := by
  intro s hs hv
  obtain ⟨t, hfirst⟩ := execGen_answers hs
  obtain ⟨ha, -, -, -, htv, hr⟩ := (exec_ends (i := .gen) hfirst).sameTree_gen
  have hroot : t.node t.root = s.node s.root := by rw [node_congr ha, hr]
  cases hl : (s.node s.root).leaf with
  | true =>
    have ht : t = finishTable (degenerateTable s) := by
      simpa using hfirst.symm.trans (exec_gen_of_degenerate hv hl)
    have hsecond := exec_gen_of_degenerate (htv.trans hv) (hroot ▸ hl)
    obtain ⟨hct, hcount⟩ := degenerateTable_congr ha hr
    refine ⟨t, _, hfirst, hsecond, ?_, ?_, rfl⟩
    · rw [finishTable_ct, hct, ht, finishTable_ct]
    · rw [finishTable_resp, hcount, ht, finishTable_resp]
  | false =>
    obtain ⟨w, hw⟩ := walkTree_startWalk_ends hs hv
    have ht : t = finishTable w := by simpa using hfirst.symm.trans (exec_gen_of_walk hv hl hw)
    have hsecond := exec_gen_of_walk (htv.trans hv) (hroot ▸ hl) (walkTree_startWalk_congr ha hr hw)
    refine ⟨t, _, hfirst, hsecond, ?_, ?_, rfl⟩
    · rw [finishTable_ct, ht, finishTable_ct]
      rfl
    · rw [finishTable_resp, ht, finishTable_resp]
      rfl

/-! ## No code begins another -/

/-- A path that begins with a path to a leaf leads to that leaf. -/
theorem follow_eq_of_isPrefix {s : State} {r i j : NodeId} {p q : BitSeq} (hpq : p <+: q) (hp : s.follow r p = some i)
    (hl : (s.node i).leaf = true) (hq : s.follow r q = some j) : j = i := by
  obtain ⟨d, rfl⟩ := hpq
  rw [follow_append, hp] at hq
  exact follow_of_leaf hq hl

/-- Settles O33: the codes of two symbols of which one begins the other lead to the same leaf. -/
theorem noCodeBeginsAnother : Obligations.NoCodeBeginsAnother := by
  intro s x y p q hs hp hq hxy hpq
  have hlay := hs.layered
  obtain ⟨hct, hentry⟩ := hs.tableHolds
  obtain ⟨hctv, hx, -, -, hppath⟩ := (hentry x).2 p (by simp [hp])
  obtain ⟨-, hy, -, -, hqpath⟩ := (hentry y).2 q (by simp [hq])
  obtain ⟨hxlt, hxsym⟩ := hlay.leafOfSym_of_ne_nil hx
  obtain ⟨hylt, hysym⟩ := hlay.leafOfSym_of_ne_nil hy
  have hsame : s.leafOfSym y = s.leafOfSym x := by
    cases hl : (s.node s.root).leaf with
    | true =>
      rw [hs.nLeaf_eq_one (hct hctv) hl] at hxlt hylt
      exact BitVec.eq_of_toNat_eq (by simp at hxlt hylt; omega)
    | false => exact follow_eq_of_isPrefix hpq (hppath hl) (hlay.isLeaf_of_lt hxlt).1 (hqpath hl)
  exact hxy (by rw [← hxsym, ← hysym, hsame])

end Sys2Proof.Machine
end

section
/-! SUPPORT. The traversal machine performs GEN (R141). -/

namespace Sys2Proof.Machine

/-- `s` with the table `table`, in CG_CLEAR before entry `i` (R141). -/
def State.inClear (s : State) (table : Vector (Option BitSeq) 256) (i : BitVec 9) : State :=
  { s with ct := table, sI := i, cgState := .clear }

abbrev GenReaches : State → State → Prop := MachineReaches cgBusy cgVisit

section
variable {s : State} {table : Vector (Option BitSeq) 256}

/-! ## CG_CLEAR -/

theorem visit_clear_entry {i : BitVec 9} (hi : i ≤ 255#9) :
    GenReaches (s.inClear table i) (s.inClear (table.setIfInBounds i.toNat none) (i + 1#9)) :=
  .of_visit rfl (if_pos hi)

theorem visit_clear_degenerate (hl : (s.node s.root).leaf = true) :
    GenReaches (s.inClear table 256#9) (cgFinish 1#32 ((s.inClear table 256#9).setCode (s.node s.root).sym [false])) :=
  .of_visit rfl (if_pos hl)

theorem visit_clear_walk (hl : (s.node s.root).leaf = false) :
    GenReaches (s.inClear table 256#9)
      { s.inClear table 256#9 with stk := [⟨s.root, []⟩], count := 0#9, cgState := .walk } := by
  refine .of_visit rfl ?_
  show (if (s.node s.root).leaf = true then _ else _) = _
  rw [if_neg (by simp [hl])]
  rfl

/-- The visits of CG_CLEAR empty the table from entry `j` on. -/
theorem reaches_clear (k j : Nat) (hjk : j + k = 256) (hbelow : ∀ i (hi : i < 256), i < j → table[i] = none) :
    GenReaches (s.inClear table (BitVec.ofNat 9 j)) (s.inClear (Vector.replicate 256 none) 256#9) := by
  induction k generalizing table j with
  | zero =>
    obtain rfl : j = 256 := hjk
    obtain rfl : table = Vector.replicate 256 none := Vector.ext fun i hi => by simp [hbelow i hi hi]
    exact .refl _
  | succ k ih =>
    have hj : (BitVec.ofNat 9 j).toNat = j := by simp; omega
    have hrest := ih (table := table.setIfInBounds j none) (j + 1) (by omega) fun i hi hij => by
      rw [Vector.getElem_setIfInBounds]
      split
      · rfl
      · exact hbelow i hi (by omega)
    have hvisit := visit_clear_entry (s := s) (table := table) (i := BitVec.ofNat 9 j) (by
      rw [BitVec.le_def, hj, BitVec.toNat_ofNat]; omega)
    rw [hj] at hvisit
    rw [BitVec.ofNat_add] at hrest
    exact hvisit.trans hrest

end

/-! ## CG_WALK -/

/-- The visits of CG_WALK are those of the traversal, and one more that ends the command. -/
theorem reaches_walkTree {k : Nat} {w t : State} (hcg : w.cgState = .walk) (hw : walkTree k w = some t) :
    GenReaches w (cgFinish (zext32 t.count) t) := by
  have hbusy {w : State} (hcg : w.cgState = .walk) : cgBusy w = true := by simp [cgBusy, hcg]
  obtain ⟨hreach, hcgt⟩ : GenReaches w t ∧ t.cgState = .walk := by
    refine walkTree_keeps (P := fun v => GenReaches w v ∧ v.cgState = .walk) ?_ ⟨.refl w, hcg⟩ hw
    rintro v e rest hstk ⟨hreach, hcgv⟩
    exact ⟨hreach.trans (.of_visit (hbusy hcgv) (by simp only [cgVisit, hcgv, hstk])), by rw [visitNode_frame]; exact hcgv⟩
  have hstk : t.stk = [] := by rw [walkTree_frame hw]
  exact hreach.trans (.of_visit (hbusy hcgt) (by simp only [cgVisit, hcgt, hstk]))

/-- Settles O31: the machine empties the table and visits the nodes as the command does; `s_i` and `count` are all that
differs. -/
theorem traversalMachineRefinesGen : Obligations.TraversalMachineRefinesGen := by
  intro s u hv hexec
  have hclear : GenReaches (cgAccept s) (s.inClear (Vector.replicate 256 none) 256#9) :=
    reaches_clear (table := s.ct) 256 0 rfl fun _ _ hi => absurd hi (Nat.not_lt_zero _)
  cases hl : (s.node s.root).leaf with
  | true =>
    rw [exec_gen_of_degenerate hv hl] at hexec
    cases hexec
    obtain ⟨k, hk⟩ := hclear.trans (visit_clear_degenerate hl)
    exact ⟨k, _, hk, rfl, rfl⟩
  | false =>
    cases hw : walkTree s.arena.length (startWalk s) with
    | none => simp [exec, execGen, hv, hl, hw] at hexec
    | some w =>
      rw [exec_gen_of_walk hv hl hw] at hexec
      cases hexec
      have hwalk := walkTree_withWalk (h := { s with sI := 256#9, cgState := .walk }) (w := startWalk s) rfl s.arena.length
      rw [hw] at hwalk
      obtain ⟨k, hk⟩ := hclear.trans ((visit_clear_walk hl).trans (reaches_walkTree rfl hwalk))
      refine ⟨k, _, hk, rfl, ?_⟩
      rw [walkTree_frame hw]
      rfl

end Sys2Proof.Machine
end

section
/-! SUPPORT. The commands of the encoder and the bit buffer by their checks (R150 to R153), and the ENCs of a sequence
(R154). -/

namespace Sys2Proof.Machine

/-! ## ENC (R150) -/

section
variable {s : State} {x : Sym} {p : BitSeq}

theorem exec_enc_of_no_table (hv : s.ctValid = false) (x : Sym) : exec (.enc x) s = .next (raise .badState 0#32 s) := by
  simp only [exec, execEnc, if_pos hv]

theorem exec_enc_of_unmapped (hv : s.ctValid = true) (hc : s.codeOf x = none) :
    exec (.enc x) s = .next (raise .unmappedSymbol 0#32 s) := by
  simp [exec, execEnc, hv, hc]

theorem exec_enc_of_full (hv : s.ctValid = true) (hp : s.codeOf x = some p)
    (hfull : s.params.bitCap < s.bitbuf.length + p.length) :
    exec (.enc x) s = .next (raise .bufferOverflow 0#32 s) := by
  simp [exec, execEnc, hv, hp, hfull]

theorem exec_enc_of_fits (hv : s.ctValid = true) (hp : s.codeOf x = some p)
    (hfit : s.bitbuf.length + p.length ≤ s.params.bitCap) :
    exec (.enc x) s = .next (respond (word (s.bitbuf.length + p.length)) (s.appendBits p)) := by
  simp [exec, execEnc, hv, hp, Nat.not_lt.2 hfit]

end

/-- Settles O37: ENC's four cases, with what `appendBits` writes. -/
theorem encAppendsTheCode : Obligations.EncAppendsTheCode := by
  intro s x
  refine ⟨fun hv => exec_enc_of_no_table hv x, exec_enc_of_unmapped, fun _ => exec_enc_of_full, ?fits⟩
  case fits =>
    intro p hv hp hfit
    rw [List.length_append]
    exact exec_enc_of_fits hv hp hfit

/-! ## PUSHBIT (R151) -/

theorem exec_pushbit_of_illegal {x : BitVec 24} (hx : 1#24 < x) (s : State) :
    exec (.pushbit x) s = .next (raise .illegalCommand 0#32 s) := by
  simp only [exec, execPushbit, gt_iff_lt, if_pos hx]

theorem exec_pushbit_of_full {x : BitVec 24} (hx : x ≤ 1#24) {s : State} (hfull : s.bitbuf.length = s.params.bitCap) :
    exec (.pushbit x) s = .next (raise .bufferOverflow 0#32 s) := by
  simp [exec, execPushbit, BitVec.not_lt.2 hx, hfull]

theorem exec_pushbit_of_room {x : BitVec 24} (hx : x ≤ 1#24) {s : State} (hroom : s.bitbuf.length ≠ s.params.bitCap) :
    exec (.pushbit x) s = .next (respond (word (s.bitbuf.length + 1)) (s.appendBits [x.getLsbD 0])) := by
  simp [exec, execPushbit, BitVec.not_lt.2 hx, hroom]

/-- The one bit of a legal operand. -/
theorem getLsbD_zero_of_le_one {x : BitVec 24} (hx : x ≤ 1#24) : x.getLsbD 0 = decide (x = 1#24) := by
  obtain rfl | rfl : x = 0#24 ∨ x = 1#24 := by bv_omega
  · rfl
  · rfl

/-- Settles O38: PUSHBIT's three cases; the bit appended is bit 0 of the operand. -/
theorem pushbitAppendsOneBit : Obligations.PushbitAppendsOneBit := by
  intro s x
  refine ⟨fun hx => exec_pushbit_of_illegal hx s, fun hx hfull => exec_pushbit_of_full hx hfull, fun hx hroom => ?_⟩
  rw [← getLsbD_zero_of_le_one hx]
  exact exec_pushbit_of_room hx hroom

/-! ## CLRBITS and RDBIT (R152, R153) -/

/-- Settles O39: CLRBITS has no check. -/
theorem clrbitsEmptiesTheBitBuffer : Obligations.ClrbitsEmptiesTheBitBuffer := fun _ => rfl

theorem exec_rdbit_of_beyond {s : State} {k : BitVec 24} (hk : s.bitbuf.length ≤ k.toNat) :
    exec (.rdbit k) s = .next (raise .badIndex 0#32 s) := by
  simp only [exec, execRdbit, List.getElem?_eq_none hk]

theorem exec_rdbit_of_bit {s : State} {k : BitVec 24} {b : Bool} (hb : s.bitbuf[k.toNat]? = some b) :
    exec (.rdbit k) s = .next (respond (bitWord b) s) := by
  simp only [exec, execRdbit, hb]

/-- Settles O40: beyond the buffer and inside it. -/
theorem rdbitReadsOneBit : Obligations.RdbitReadsOneBit := by
  intro s k
  refine ⟨exec_rdbit_of_beyond, fun b hb => ?_⟩
  rw [← bitWord_eq_setWidth]
  exact exec_rdbit_of_bit hb

/-! ## The encoding of a sequence (R154) -/

theorem codesOf_cons {s : State} {x : Sym} {p : BitSeq} (hp : s.codeOf x = some p) (xs : List Sym) :
    s.codesOf (x :: xs) = p ++ s.codesOf xs := by
  simp [State.codesOf, hp]

/-- The codes of a sequence depend on the table alone, which appending bits leaves. -/
theorem codesOf_respond_appendBits (d : Word) (s : State) (p : BitSeq) (xs : List Sym) :
    (respond d (s.appendBits p)).codesOf xs = s.codesOf xs := rfl

/-- The ENCs of mapped symbols whose codes fit all succeed and append the codes in order; the response is all else they
write. -/
theorem runCommands_encs {s : State} {xs : List Sym} (hv : s.ctValid = true) (hmapped : ∀ x ∈ xs, s.codeOf x ≠ none)
    (hfit : s.bitbuf.length + (s.codesOf xs).length ≤ s.params.bitCap) :
    ∃ r, runCommands (xs.map .enc) s = some { s with bitbuf := s.bitbuf ++ s.codesOf xs, resp := r } := by
  induction xs generalizing s with
  | nil => exact ⟨s.resp, by simp [runCommands, State.codesOf]⟩
  | cons x xs ih =>
    rw [List.forall_mem_cons] at hmapped
    obtain ⟨hx, hxs⟩ := hmapped
    obtain ⟨p, hp⟩ := Option.ne_none_iff_exists'.1 hx
    rw [codesOf_cons hp, ← List.append_assoc]
    rw [codesOf_cons hp, List.length_append, ← Nat.add_assoc] at hfit
    have hexec := exec_enc_of_fits hv hp (by omega)
    obtain ⟨r, hrun⟩ := ih (s := respond (word (s.bitbuf.length + p.length)) (s.appendBits p)) hv hxs
      (by simpa [codesOf_respond_appendBits, Nat.add_assoc] using hfit)
    exact ⟨r, (runCommands_cons hexec (succeeded_respond ..)).trans hrun⟩

/-- Settles O41, by `runCommands_encs`, an induction on the sequence. -/
theorem encodingASequenceConcatenatesItsCodes : Obligations.EncodingASequenceConcatenatesItsCodes := by
  intro s xs hv hmapped hfit
  obtain ⟨r, hrun⟩ := runCommands_encs hv hmapped hfit
  exact ⟨_, hrun, rfl, rfl⟩

end Sys2Proof.Machine
end

section
/-! SUPPORT. DECODE and RDOUT by their checks (R160, R161, R164, R166). -/

namespace Sys2Proof.Machine

/-! ## DECODE (R160) -/

section
variable {s t : State} {e : Err} {d : Word}

theorem exec_decode_of_absent (h : s.treeValid = false ∨ s.bitbuf = []) :
    exec .decode s = .next (failDecode .invalidInput 0#32 s) := by
  obtain hv | hb := h
  · simp only [exec, execDecode, if_pos hv]
  · simp [exec, execDecode, hb]

/-- The walk over no bits does not fail, so there are bits when it does. -/
theorem exec_decode_of_error (hv : s.treeValid = true) (hw : walkBits s.bitbuf (startDecode s) = .error (e, d)) :
    exec .decode s = .next (failDecode e d s) := by
  have hb : s.bitbuf ≠ [] := by rintro hb; rw [hb] at hw; cases hw
  simp [exec, execDecode, hv, hb, hw]

theorem exec_decode_of_truncated (hv : s.treeValid = true) (hb : s.bitbuf ≠ [])
    (hw : walkBits s.bitbuf (startDecode s) = .ok t) (hc : t.cursor ≠ t.root) :
    exec .decode s = .next (failDecode .truncated (zext32 s.bitN) s) := by
  simp [exec, execDecode, hv, hb, hw, hc]

theorem exec_decode_of_end (hv : s.treeValid = true) (hb : s.bitbuf ≠ [])
    (hw : walkBits s.bitbuf (startDecode s) = .ok t) (hc : t.cursor = t.root) :
    exec .decode s = .next (finishDecode t) := by
  simp [exec, execDecode, hv, hb, hw, hc]

end

/-- Settles O42: either check leaves what `failDecode` leaves. -/
theorem decodeRefusesAbsentInput : Obligations.DecodeRefusesAbsentInput :=
  fun _ h => ⟨_, exec_decode_of_absent h, rfl⟩

/-! ## RDOUT (R166) -/

theorem exec_rdout_of_beyond {s : State} {k : BitVec 24} (hk : s.outbuf.length ≤ k.toNat) :
    exec (.rdout k) s = .next (raise .badIndex 0#32 s) := by
  simp only [exec, execRdout, List.getElem?_eq_none hk]

theorem exec_rdout_of_symbol {s : State} {k : BitVec 24} {x : Sym} (hx : s.outbuf[k.toNat]? = some x) :
    exec (.rdout k) s = .next (respond (zext32 x) s) := by
  simp only [exec, execRdout, hx]

/-- Settles O47: beyond the buffer and inside it. -/
theorem rdoutReadsOneSymbol : Obligations.RdoutReadsOneSymbol :=
  fun _ _ => ⟨exec_rdout_of_beyond, fun _ => exec_rdout_of_symbol⟩

end Sys2Proof.Machine
end

section
/-! SUPPORT. The walk of DECODE, bit by bit (R160 to R165): along a path it only moves the cursor, the last bit of a code
emits the leaf's symbol. From the tree and the position everything about a step follows, so a state of the walk is written
as `atBit`. -/

namespace Sys2Proof.Machine

/-- The walk of a DECODE accepted in `s`, before bit `n`: `out` has been emitted, the cursor is `cur`. -/
def State.atBit (s : State) (out : List Sym) (cur : NodeId) (n : Nat) : State :=
  { startDecode s with outbuf := out, cursor := cur, rdPtr := BitVec.ofNat 25 n }

/-- The end of a step that emits `x` (R165): OutOverflow on a full buffer, else the cursor is at the root. -/
def State.emitThenRoot (s : State) (out : List Sym) (x : Sym) (n : Nat) : Except Err State :=
  if out.length = s.params.outCap then .error .outOverflow else .ok (s.atBit (out ++ [x]) s.root (n + 1))

theorem emitThenRoot_of_full {s : State} {out : List Sym} (hfull : out.length = s.params.outCap) (x : Sym) (n : Nat) :
    s.emitThenRoot out x n = .error .outOverflow := if_pos hfull

theorem emitThenRoot_of_room {s : State} {out : List Sym} (hroom : out.length ≠ s.params.outCap) (x : Sym) (n : Nat) :
    s.emitThenRoot out x n = .ok (s.atBit (out ++ [x]) s.root (n + 1)) := if_neg hroom

/-- There is a tree: the records are in their order and the root is one of them. This is what DECODE needs of the
invariant, and it does not speak of the capacities. -/
structure State.HasTree (s : State) : Prop where
  layered : s.Layered
  valid : s.treeValid = true
  root_lt : s.root.toNat < s.arena.length

theorem State.Inv.hasTree {s : State} (hs : s.Inv) (hv : s.treeValid = true) : s.HasTree := by
  have hroot := (hs.treeShape.2.2 hv).2.2.1
  exact ⟨hs.layered, hv, by omega⟩

/-- Whether there is a tree depends on the tree alone. -/
theorem State.HasTree.congr {s t : State} (h : s.HasTree) (tree : SameTree s t) : t.HasTree := by
  obtain ⟨ha, hn, hl, hw, hv, hr⟩ := tree
  have hs : State.HasTree { s with
      arena := t.arena, nLeaf := t.nLeaf, leafOf := t.leafOf, totalW := t.totalW, treeValid := t.treeValid,
      root := t.root } := by
    rw [ha, hn, hl, hw, hv, hr]
    exact h
  obtain ⟨⟨hfirst, hindex, hinternal, hlt⟩, hvalid, hroot⟩ := hs
  exact ⟨⟨hfirst, hindex, hinternal, hlt⟩, hvalid, hroot⟩

/-- A child is never NIL: its identifier is below its parent's. -/
theorem State.Layered.child_ne_nil {s : State} (h : s.Layered) {i : NodeId} (hi : i.toNat < s.arena.length)
    (hl : (s.node i).leaf = false) (v : Bool) : (s.node i).child v ≠ nil9 := by
  have hlt := (h.child_lt hi hl).2 v
  intro hnil
  rw [hnil] at hlt
  simp [nil9] at hlt
  omega

/-! ## One step -/

section
variable (s : State) (out : List Sym) (cur : NodeId) (n : Nat)

/-- A step that leaves the output and moves the cursor. -/
theorem atBit_next (c : NodeId) :
    { s.atBit out cur n with cursor := c, rdPtr := (s.atBit out cur n).rdPtr + 1#25 } = s.atBit out c (n + 1) := by
  simp [State.atBit, BitVec.ofNat_add]

theorem rdPtr_atBit : (s.atBit out cur n).rdPtr = BitVec.ofNat 25 n := rfl

theorem emit_atBit (x : Sym) : emit x (s.atBit out cur n) =
    if out.length = s.params.outCap then .error .outOverflow else .ok (s.atBit (out ++ [x]) cur n) := rfl

variable {s cur}

/-- From an internal node to an internal child: the cursor moves. -/
theorem stepBit_to_internal {v : Bool} (hl : (s.node cur).leaf = false) (hne : (s.node cur).child v ≠ nil9)
    (hc : (s.node ((s.node cur).child v)).leaf = false) :
    stepBit v (s.atBit out cur n) = .ok (s.atBit out ((s.node cur).child v) (n + 1)) := by
  have hnode (i : NodeId) : (s.atBit out cur n).node i = s.node i := rfl
  have hcur : (s.atBit out cur n).cursor = cur := rfl
  simp only [stepBit, stepInternal, moveTo, hnode, hcur, hl, hne, hc, Bool.false_eq_true, if_false]
  exact congrArg _ (atBit_next s out cur n _)

/-- From an internal node to a leaf: its symbol is emitted. -/
theorem stepBit_to_leaf {v : Bool} (hl : (s.node cur).leaf = false) (hne : (s.node cur).child v ≠ nil9)
    (hc : (s.node ((s.node cur).child v)).leaf = true) :
    stepBit v (s.atBit out cur n) = s.emitThenRoot out (s.node ((s.node cur).child v)).sym n := by
  have hnode (i : NodeId) : (s.atBit out cur n).node i = s.node i := rfl
  have hcur : (s.atBit out cur n).cursor = cur := rfl
  simp only [stepBit, stepInternal, moveTo, hnode, hcur, hl, hne, hc, Bool.false_eq_true, if_false, if_true, emit_atBit]
  by_cases hfull : out.length = s.params.outCap
  · rw [emitThenRoot_of_full hfull, if_pos hfull]
  · rw [emitThenRoot_of_room hfull, if_neg hfull]
    exact congrArg _ (atBit_next s _ cur n s.root)

/-- In the degenerate tree bit 0 emits the root's symbol (R163). -/
theorem stepBit_degenerate_zero (hl : (s.node s.root).leaf = true) :
    stepBit false (s.atBit out s.root n) = s.emitThenRoot out (s.node s.root).sym n := by
  have hnode (i : NodeId) : (s.atBit out s.root n).node i = s.node i := rfl
  have hcur : (s.atBit out s.root n).cursor = s.root := rfl
  simp only [stepBit, stepLeaf, hnode, hcur, hl, Bool.false_eq_true, if_false, if_true, emit_atBit]
  by_cases hfull : out.length = s.params.outCap
  · rw [emitThenRoot_of_full hfull, if_pos hfull]
  · rw [emitThenRoot_of_room hfull, if_neg hfull]
    exact congrArg _ (atBit_next s _ s.root n s.root)

/-- In the degenerate tree bit 1 is ignored in lenient mode and MalformedBit in strict mode (R163). -/
theorem stepBit_degenerate_one (hl : (s.node s.root).leaf = true) :
    stepBit true (s.atBit out s.root n)
      = if s.cfgLenient then .ok (s.atBit out s.root (n + 1)) else .error .malformedBit := by
  have hnode (i : NodeId) : (s.atBit out s.root n).node i = s.node i := rfl
  have hcur : (s.atBit out s.root n).cursor = s.root := rfl
  have hmode : (s.atBit out s.root n).lenient = s.cfgLenient := rfl
  simp only [stepBit, stepLeaf, missingChild, hnode, hcur, hmode, hl, if_true]
  cases s.cfgLenient
  · rfl
  · exact congrArg _ (atBit_next s out s.root n s.root)

end

/-! ## Walks in parts -/

section
variable {us : BitSeq} {v : Bool} {s t : State} {e : Err} {d : Word}

theorem walkBits_append_of_ok (h : walkBits us s = .ok t) (vs : BitSeq) : walkBits (us ++ vs) s = walkBits vs t := by
  rw [walkBits_append, h]

theorem walkBits_append_of_error (h : walkBits us s = .error (e, d)) (vs : BitSeq) :
    walkBits (us ++ vs) s = .error (e, d) := by
  rw [walkBits_append, h]

theorem walkBits_cons_of_ok (h : stepBit v s = .ok t) (vs : BitSeq) : walkBits (v :: vs) s = walkBits vs t := by
  rw [walkBits, h]

theorem walkBits_cons_of_error (h : stepBit v s = .error e) (vs : BitSeq) :
    walkBits (v :: vs) s = .error (e, zext32 s.rdPtr) := by
  rw [walkBits, h]

end

/-- A step that emits, as a walk over one bit. -/
theorem walkBits_singleton_of_emits {s w : State} {out : List Sym} {x : Sym} {n : Nat} {v : Bool}
    (h : stepBit v w = s.emitThenRoot out x n) : walkBits [v] w =
      if out.length = s.params.outCap then .error (.outOverflow, zext32 w.rdPtr)
      else .ok (s.atBit (out ++ [x]) s.root (n + 1)) := by
  split
  · exact walkBits_cons_of_error (h.trans (emitThenRoot_of_full ‹_› ..)) []
  · exact walkBits_cons_of_ok (h.trans (emitThenRoot_of_room ‹_› ..)) []

/-! ## Paths and codes -/

namespace State.HasTree

variable {s : State} (h : s.HasTree)
include h

/-- Along a path to an internal node only the cursor moves: every node on the way is internal. -/
theorem walkBits_path {i j : NodeId} {p : BitSeq} (hi : i.toNat < s.arena.length) (hp : s.follow i p = some j)
    (hj : (s.node j).leaf = false) (out : List Sym) (n : Nat) :
    walkBits p (s.atBit out i n) = .ok (s.atBit out j (n + p.length)) := by
  have internal {i : NodeId} {p : BitSeq} (hp : s.follow i p = some j) : (s.node i).leaf = false := by
    by_contra hl
    rw [Bool.not_eq_false] at hl
    rw [follow_of_leaf hp hl, hl] at hj
    cases hj
  induction p generalizing i n with
  | nil => cases hp; rfl
  | cons v p ih =>
    have hl := internal hp
    have hrest : s.follow ((s.node i).child v) p = some j := by simpa [State.follow, hl] using hp
    have hlt := (h.layered.child_lt hi hl).2 v
    rw [walkBits_cons_of_ok (stepBit_to_internal out n hl (h.layered.child_ne_nil hi hl v) (internal hrest)),
      ih (hlt.trans hi) hrest, List.length_cons, Nat.add_right_comm, Nat.add_assoc]

/-- Along a path the identifiers fall. -/
theorem toNat_add_length_le {i j : NodeId} {p : BitSeq} (hi : i.toNat < s.arena.length) (hp : s.follow i p = some j) :
    j.toNat + p.length ≤ i.toNat := by
  induction p generalizing i with
  | nil => cases hp; exact le_rfl
  | cons v p ih =>
    cases hl : (s.node i).leaf with
    | true => simp [State.follow, hl] at hp
    | false =>
      have hlt := (h.layered.child_lt hi hl).2 v
      have hrest := ih (hlt.trans hi) (by simpa [State.follow, hl] using hp)
      rw [List.length_cons]
      omega

/-- The last bit of a code emits, the bits before it do not. -/
theorem code_split {i : NodeId} {c : BitSeq} (hc : s.IsCode i c) :
    ∃ p v k, c = p ++ [v] ∧ (∀ out n, walkBits p (s.atBit out s.root n) = .ok (s.atBit out k (n + p.length)))
      ∧ ∀ out n, stepBit v (s.atBit out k n) = s.emitThenRoot out (s.node i).sym n := by
  obtain ⟨hleaf, -, hfixed, hpath⟩ := hc
  cases hl : (s.node s.root).leaf with
  | true =>
    obtain ⟨rfl, rfl⟩ := hfixed hl
    exact ⟨[], false, s.root, rfl, fun _ _ => rfl, fun out n => stepBit_degenerate_zero out n hl⟩
  | false =>
    have hfollow := hpath hl
    obtain rfl | ⟨p, v, rfl⟩ := List.eq_nil_or_concat' c
    · cases hfollow
      simp [hl] at hleaf
    rw [follow_append, Option.bind_eq_some_iff] at hfollow
    obtain ⟨k, hk, hki⟩ := hfollow
    have hk' := (Nat.le_of_add_right_le (h.toNat_add_length_le h.root_lt hk)).trans_lt h.root_lt
    cases hkl : (s.node k).leaf with
    | true => simp [State.follow, hkl] at hki
    | false =>
      obtain rfl : (s.node k).child v = i := by simpa [State.follow, hkl] using hki
      exact ⟨p, v, k, rfl, h.walkBits_path h.root_lt hk hkl,
        fun out n => stepBit_to_leaf out n hkl (h.layered.child_ne_nil hk' hkl v) hleaf⟩

/-- The walk over one code. -/
theorem walkBits_code {i : NodeId} {c : BitSeq} (hc : s.IsCode i c) (out : List Sym) (n : Nat) :
    walkBits c (s.atBit out s.root n) =
      if out.length = s.params.outCap then .error (.outOverflow, zext32 (BitVec.ofNat 25 (n + c.length - 1)))
      else .ok (s.atBit (out ++ [(s.node i).sym]) s.root (n + c.length)) := by
  obtain ⟨p, v, k, rfl, hpath, hlast⟩ := h.code_split hc
  rw [walkBits_append_of_ok (hpath out n), walkBits_singleton_of_emits (hlast out _), List.length_append]
  rfl

/-- The walk over the codes of leaves that the output has room for (R162, R163). -/
theorem walkBits_codes {ps : List (NodeId × BitSeq)} (hps : ∀ p ∈ ps, s.IsCode p.1 p.2) {out : List Sym}
    (hfit : out.length + ps.length ≤ s.params.outCap) (n : Nat) :
    walkBits (bitsAlong ps) (s.atBit out s.root n)
      = .ok (s.atBit (out ++ s.symbolsAt ps) s.root (n + (bitsAlong ps).length)) := by
  induction ps generalizing out n with
  | nil => simp [bitsAlong, State.symbolsAt, walkBits]
  | cons p ps ih =>
    rw [List.forall_mem_cons] at hps
    obtain ⟨hp, hps⟩ := hps
    rw [List.length_cons] at hfit
    have hcode := h.walkBits_code hp out n
    rw [if_neg (by omega)] at hcode
    have hrest := ih hps (out := out ++ [(s.node p.1).sym]) (by simp; omega) (n + p.2.length)
    simpa [bitsAlong, State.symbolsAt, Nat.add_assoc] using (walkBits_append_of_ok hcode _).trans hrest

end State.HasTree

/-! ## The data of a response -/

/-- An index within the bit buffer, or its length, fits `rd_ptr` and `bit_n` (R33, R35). -/
theorem zext32_ofNat {n : Nat} (hn : n ≤ 2 ^ 24) : zext32 (BitVec.ofNat 25 n) = BitVec.ofNat 32 n := by
  refine BitVec.eq_of_toNat_eq ?_
  simp [zext32]
  omega

theorem State.Inv.bitbuf_length_le {s : State} (hs : s.Inv) : s.bitbuf.length ≤ 2 ^ 24 := by
  obtain ⟨⟨-, hcap, -⟩, hfit, -⟩ := hs.buffersFit
  exact hfit.trans hcap

/-- What a DECODE that ends well leaves. -/
theorem finishDecode_atBit (s : State) (out : List Sym) (cur : NodeId) (n : Nat) :
    finishDecode (s.atBit out cur n) = respond (word out.length) (State.forgetDecoder { s with
      outbuf := out, decDone := true, cursor := cur, deState := .idle }) := rfl

/-! ## The obligations about codes -/

/-- DECODE of codes, in a state with a tree (R160). -/
theorem State.HasTree.exec_decode_codes {s : State} (h : s.HasTree) {ps : List (NodeId × BitSeq)} (hne : ps ≠ [])
    (hps : ∀ p ∈ ps, s.IsCode p.1 p.2) (hbits : s.bitbuf = bitsAlong ps) (hfit : ps.length ≤ s.params.outCap) :
    exec .decode s = .next (respond (word ps.length) (State.forgetDecoder { s with
      outbuf := s.symbolsAt ps, decDone := true, cursor := s.root, deState := .idle })) := by
  have hb : s.bitbuf ≠ [] := by
    obtain ⟨p, ps, rfl⟩ := List.exists_cons_of_ne_nil hne
    obtain ⟨q, v, -, hq, -⟩ := h.code_split (hps p (by simp))
    simp [hbits, bitsAlong, hq]
  have hw := h.walkBits_codes hps (out := []) (by simpa using hfit) 0
  rw [← hbits, List.nil_append, Nat.zero_add] at hw
  have hlen : (s.symbolsAt ps).length = ps.length := List.length_map _
  rw [exec_decode_of_end h.valid hb hw rfl, finishDecode_atBit, hlen]

/-- Settles O43, by `walkBits_codes`, an induction on the list of leaves. -/
theorem decodeInvertsTheLeafPaths : Obligations.DecodeInvertsTheLeafPaths := by
  intro s ps hs hv hne hps hbits hfit
  exact ⟨_, (hs.hasTree hv).exec_decode_codes hne hps hbits hfit, rfl⟩

/-- Settles O45: the codes are decoded, and the path after them leaves the cursor below the root. -/
theorem decodeRefusesTruncatedInput : Obligations.DecodeRefusesTruncatedInput := by
  intro s ps p j hs hv hps hfit hp hj hjl hbits
  have h := hs.hasTree hv
  have hw := (walkBits_append_of_ok (h.walkBits_codes hps (out := []) (by simpa using hfit) 0) p).trans
    (h.walkBits_path h.root_lt hj hjl _ _)
  rw [← hbits] at hw
  have hbelow : j ≠ s.root := by
    have hle := h.toNat_add_length_le h.root_lt hj
    have hpos := List.length_pos_iff.2 hp
    rintro rfl
    omega
  have hexec := exec_decode_of_truncated hv (by simp [hbits, hp]) hw hbelow
  rw [State.bitN, zext32_ofNat hs.bitbuf_length_le] at hexec
  exact ⟨_, hexec, rfl⟩

/-- Settles O46: the codes before it fill the output, and the last bit of the next code wants to emit. -/
theorem decodeRefusesToOverfillTheOutput : Obligations.DecodeRefusesToOverfillTheOutput := by
  intro s ps p rest hs hv hps hp hfull hbits
  have h := hs.hasTree hv
  have hcode := h.walkBits_code hp ([] ++ s.symbolsAt ps) (0 + (bitsAlong ps).length)
  rw [if_pos (by simp [State.symbolsAt, hfull])] at hcode
  have hw := (walkBits_append_of_ok (h.walkBits_codes hps (out := []) (by simp [hfull]) 0) (p.2 ++ rest)).trans
    (walkBits_append_of_error hcode rest)
  rw [← List.append_assoc, ← hbits] at hw
  have hexec := exec_decode_of_error hv hw
  have hlen := hs.bitbuf_length_le
  rw [hbits, List.length_append, List.length_append] at hlen
  rw [Nat.zero_add, ← List.length_append, zext32_ofNat (by rw [List.length_append]; omega)] at hexec
  exact ⟨_, hexec, rfl⟩

end Sys2Proof.Machine
end

section
/-! SUPPORT. The faults of DECODE by its tree (R163, R169): in the degenerate tree the mode decides about a bit 1; in every
other tree each bit has a child to go to, so the mode is never asked for. -/

namespace Sys2Proof.Machine

/-! ## The degenerate tree (R163) -/

/-- The walk over `vs` from the root of the degenerate tree ends at the root, or fails with a fault of that tree. -/
def State.StaysAtRoot (s : State) (vs : BitSeq) (out : List Sym) (n : Nat) : Prop :=
  (∃ out', walkBits vs (s.atBit out s.root n) = .ok (s.atBit out' s.root (n + vs.length)))
    ∨ ∃ e d, walkBits vs (s.atBit out s.root n) = .error (e, d)
        ∧ (e = .outOverflow ∨ (e = .malformedBit ∧ s.cfgLenient = false ∧ true ∈ vs))

theorem State.StaysAtRoot.cons {s : State} {v : Bool} {vs : BitSeq} {out out' : List Sym} {n : Nat}
    (h : s.StaysAtRoot vs out' (n + 1)) (hstep : stepBit v (s.atBit out s.root n) = .ok (s.atBit out' s.root (n + 1))) :
    s.StaysAtRoot (v :: vs) out n := by
  rw [State.StaysAtRoot, ← walkBits_cons_of_ok hstep, Nat.add_assoc, Nat.add_comm 1, ← List.length_cons (a := v)] at h
  exact h.imp_right fun ⟨e, d, hw, he⟩ =>
    ⟨e, d, hw, he.imp_right fun ⟨h, hmode, hmem⟩ => ⟨h, hmode, List.mem_cons_of_mem _ hmem⟩⟩

section
variable {s : State} (hl : (s.node s.root).leaf = true)
include hl

/-- As long as no bit 1 is refused and the output has room, the bits 0 emit the root's symbol. -/
theorem walkBits_degenerate {vs : BitSeq} (hmode : s.cfgLenient = true ∨ true ∉ vs) {out : List Sym}
    (hfit : out.length + vs.count false ≤ s.params.outCap) (n : Nat) :
    walkBits vs (s.atBit out s.root n)
      = .ok (s.atBit (out ++ List.replicate (vs.count false) (s.node s.root).sym) s.root (n + vs.length)) := by
  induction vs generalizing out n with
  | nil => simp [walkBits]
  | cons v vs ih =>
    have hmode' : s.cfgLenient = true ∨ true ∉ vs := hmode.imp_right fun h hc => h (List.mem_cons_of_mem _ hc)
    rw [List.length_cons, Nat.add_comm vs.length 1, ← Nat.add_assoc]
    cases v with
    | false =>
      rw [List.count_cons_self] at hfit ⊢
      have hstep := (stepBit_degenerate_zero out n hl).trans (emitThenRoot_of_room (by omega) ..)
      rw [walkBits_cons_of_ok hstep, ih hmode' (by simp; omega), List.replicate_succ, List.append_assoc,
        List.singleton_append]
    | true =>
      rw [List.count_cons_of_ne (by decide)] at hfit ⊢
      have hstep := stepBit_degenerate_one out n hl
      rw [if_pos (hmode.resolve_right fun h => h List.mem_cons_self)] at hstep
      rw [walkBits_cons_of_ok hstep, ih hmode' hfit]

/-- However the walk ends, the cursor has stayed at the root, and only a bit 1 in strict mode is malformed. -/
theorem staysAtRoot (vs : BitSeq) (out : List Sym) (n : Nat) : s.StaysAtRoot vs out n := by
  induction vs generalizing out n with
  | nil => exact .inl ⟨out, rfl⟩
  | cons v vs ih =>
    cases v with
    | false =>
      have hstep := stepBit_degenerate_zero out n hl
      by_cases hfull : out.length = s.params.outCap
      · exact .inr ⟨_, _, walkBits_cons_of_error (hstep.trans (emitThenRoot_of_full hfull ..)) vs, .inl rfl⟩
      · exact (ih _ _).cons (hstep.trans (emitThenRoot_of_room hfull ..))
    | true =>
      have hstep := stepBit_degenerate_one out n hl
      cases hm : s.cfgLenient with
      | false =>
        rw [hm, if_neg Bool.false_ne_true] at hstep
        exact .inr ⟨_, _, walkBits_cons_of_error hstep vs, .inr ⟨rfl, hm, List.mem_cons_self⟩⟩
      | true =>
        rw [hm, if_pos rfl] at hstep
        exact (ih _ _).cons hstep

end

/-- Settles O44: bits 0 are emitted up to the refused bit 1, or to the end. -/
theorem degenerateTreeDecodesByBitZero : Obligations.DegenerateTreeDecodesByBitZero := by
  intro s hs hv hl
  refine ⟨fun k rest hmode hbits hfit => ?strict, fun hmode hb hfit => ?zeros⟩
  case strict =>
    have hzeros := walkBits_degenerate hl (vs := List.replicate k false) (out := []) (.inr (by simp)) (by simpa) 0
    rw [List.count_replicate_self, List.length_replicate, List.nil_append, Nat.zero_add] at hzeros
    have hstep := stepBit_degenerate_one (List.replicate k (s.node s.root).sym) k hl
    rw [hmode, if_neg Bool.false_ne_true] at hstep
    have hw := (walkBits_append_of_ok hzeros (true :: rest)).trans (walkBits_cons_of_error hstep rest)
    rw [← hbits] at hw
    have hk : k ≤ 2 ^ 24 := by
      have hlen := hs.bitbuf_length_le
      rw [hbits, List.length_append, List.length_replicate] at hlen
      omega
    have hexec := exec_decode_of_error hv hw
    rw [rdPtr_atBit, zext32_ofNat hk] at hexec
    exact ⟨_, hexec, rfl⟩
  case zeros =>
    have hexec := exec_decode_of_end hv hb (walkBits_degenerate hl hmode (out := []) (by simpa) 0) rfl
    rw [finishDecode_atBit, List.nil_append, List.length_replicate] at hexec
    exact ⟨_, hexec, rfl⟩

/-! ## Any other tree (R169) -/

/-- `s` with CFG.LENIENT as `b` (R43). -/
def State.inMode (s : State) (b : Bool) : State := { s with cfgLenient := b }

/-- The walk over `vs` from node `i` ends, or overfills the output, and does so in both modes alike. -/
def State.IgnoresMode (s : State) (vs : BitSeq) (out : List Sym) (i : NodeId) (n : Nat) : Prop :=
  (∃ out' j, ∀ b, walkBits vs ((s.inMode b).atBit out i n) = .ok ((s.inMode b).atBit out' j (n + vs.length)))
    ∨ ∃ d, ∀ b, walkBits vs ((s.inMode b).atBit out i n) = .error (.outOverflow, d)

theorem State.IgnoresMode.cons {s : State} {v : Bool} {vs : BitSeq} {out out' : List Sym} {i j : NodeId} {n : Nat}
    (h : s.IgnoresMode vs out' j (n + 1))
    (hstep : ∀ b, stepBit v ((s.inMode b).atBit out i n) = .ok ((s.inMode b).atBit out' j (n + 1))) :
    s.IgnoresMode (v :: vs) out i n := by
  simp only [State.IgnoresMode, ← walkBits_cons_of_ok (hstep _)] at h
  rwa [Nat.add_assoc, Nat.add_comm 1, ← List.length_cons (a := v)] at h

namespace State.HasTree

variable {s : State} (h : s.HasTree)
include h

theorem inMode (b : Bool) : (s.inMode b).HasTree := h.congr ⟨rfl, rfl, rfl, rfl, rfl, rfl⟩

/-- From an internal node of a tree whose root is internal the walk ends or overfills the output, in both modes alike. -/
theorem ignoresMode (hr : (s.node s.root).leaf = false) (vs : BitSeq) {i : NodeId}
    (hi : i.toNat < s.arena.length) (hl : (s.node i).leaf = false) (out : List Sym) (n : Nat) :
    s.IgnoresMode vs out i n := by
  induction vs generalizing i out n with
  | nil => exact .inl ⟨out, i, fun _ => rfl⟩
  | cons v vs ih =>
    have hne := h.layered.child_ne_nil hi hl v
    cases hc : (s.node ((s.node i).child v)).leaf with
    | false =>
      have hlt := (h.layered.child_lt hi hl).2 v
      exact (ih (hlt.trans hi) hc out _).cons fun b => stepBit_to_internal (s := s.inMode b) out n hl hne hc
    | true =>
      have hstep (b : Bool) : stepBit v ((s.inMode b).atBit out i n)
          = (s.inMode b).emitThenRoot out (s.node ((s.node i).child v)).sym n :=
        stepBit_to_leaf (s := s.inMode b) out n hl hne hc
      by_cases hfull : out.length = s.params.outCap
      · exact .inr ⟨zext32 (BitVec.ofNat 25 n), fun b =>
          walkBits_cons_of_error ((hstep b).trans (emitThenRoot_of_full (s := s.inMode b) hfull ..)) vs⟩
      · exact (ih h.root_lt hr _ _).cons fun b => (hstep b).trans (emitThenRoot_of_room (s := s.inMode b) hfull ..)

/-- Without a leaf at the root DECODE ends well, with Truncated or with OutOverflow, in both modes alike. -/
theorem exec_decode_inMode (hr : (s.node s.root).leaf = false) (hb : s.bitbuf ≠ []) :
    ∃ e d out done, (e = 0#8 ∨ e = 4#8 ∨ e = 10#8)
      ∧ ∀ b, ∃ u, exec .decode (s.inMode b) = .next u ∧ u.resp = some ⟨e, d⟩ ∧ u.outbuf = out ∧ u.decDone = done := by
  obtain ⟨out, j, hw⟩ | ⟨d, hw⟩ := h.ignoresMode hr s.bitbuf h.root_lt hr [] 0
  · by_cases hj : j = s.root
    · exact ⟨0#8, word out.length, out, true, .inl rfl,
        fun b => ⟨_, exec_decode_of_end (h.inMode b).valid hb (hw b) hj, rfl, rfl, rfl⟩⟩
    · exact ⟨4#8, zext32 s.bitN, [], false, .inr (.inl rfl),
        fun b => ⟨_, exec_decode_of_truncated (h.inMode b).valid hb (hw b) hj, rfl, rfl, rfl⟩⟩
  · exact ⟨10#8, d, [], false, .inr (.inr rfl),
      fun b => ⟨_, exec_decode_of_error (h.inMode b).valid (hw b), rfl, rfl, rfl⟩⟩

end State.HasTree

/-- Settles O49: by whether the root is a leaf. -/
theorem decodeFaultsAreThoseOfItsTree : Obligations.DecodeFaultsAreThoseOfItsTree := by
  intro s hs hv hb
  cases hr : (s.node s.root).leaf with
  | false =>
    obtain ⟨e, d, out, done, he, hmode⟩ := (hs.hasTree hv).exec_decode_inMode hr hb
    obtain ⟨t, ht, htresp, htout, htdone⟩ := hmode s.cfgLenient
    refine ⟨t, e, d, ht, htresp, fun _ => ⟨he, fun b => ?_⟩, nofun⟩
    obtain ⟨u, hu, huresp, huout, hudone⟩ := hmode b
    exact ⟨u, hu, huresp.trans htresp.symm, huout.trans htout.symm, hudone.trans htdone.symm⟩
  | true =>
    obtain ⟨out, hw⟩ | ⟨e, d, hw, he⟩ := staysAtRoot hr s.bitbuf [] 0
    · exact ⟨_, _, _, exec_decode_of_end hv hb hw rfl, rfl, nofun, fun _ => .inl rfl⟩
    · refine ⟨_, _, d, exec_decode_of_error hv hw, rfl, nofun, fun _ => .inr ?_⟩
      exact he.imp (congrArg errCode) fun ⟨h, hrest⟩ => ⟨congrArg errCode h, hrest⟩

end Sys2Proof.Machine
end

section
/-! SUPPORT. The tree-walk machine performs DECODE (R167): the machine's state `de_run` is one of the registers that the
walk leaves alone, so its visits are the steps of the walk, with the bit that `rd_ptr` names. -/

namespace Sys2Proof.Machine

abbrev DecodeReaches : State → State → Prop := MachineReaches deBusy deVisit

/-! ## One visit -/

section
variable {w t : State} {v : Bool} {e : Err}

theorem deBusy_of_run (hrun : w.deState = .run) : deBusy w = true := by simp [deBusy, hrun]

theorem visit_step (hrun : w.deState = .run) (hv : w.bitbuf[w.rdPtr.toNat]? = some v) (hstep : stepBit v w = .ok t) :
    DecodeReaches w t :=
  .of_visit (deBusy_of_run hrun) (by simp only [deVisit, hrun, hv, hstep])

theorem visit_fail (hrun : w.deState = .run) (hv : w.bitbuf[w.rdPtr.toNat]? = some v) (hstep : stepBit v w = .error e) :
    DecodeReaches w (deFail e (zext32 w.rdPtr) w) :=
  .of_visit (deBusy_of_run hrun) (by simp only [deVisit, hrun, hv, hstep])

theorem visit_truncated (hrun : w.deState = .run) (hv : w.bitbuf[w.rdPtr.toNat]? = none) (hc : w.cursor ≠ w.root) :
    DecodeReaches w (deFail .truncated (zext32 w.bitN) w) :=
  .of_visit (deBusy_of_run hrun) (by simp only [deVisit, hrun, hv, if_neg hc])

theorem visit_end (hrun : w.deState = .run) (hv : w.bitbuf[w.rdPtr.toNat]? = none) (hc : w.cursor = w.root) :
    DecodeReaches w (respond (word w.outbuf.length) { w with decDone := true, deState := .idle }) :=
  .of_visit (deBusy_of_run hrun) (by simp only [deVisit, hrun, hv, if_pos hc])

end

/-! ## The walk -/

/-- The machine is in DE_RUN and the bits not yet consumed are `vs` (R167). -/
structure State.Unread (w : State) (vs : BitSeq) : Prop where
  run : w.deState = .run
  drop : w.bitbuf.drop w.rdPtr.toNat = vs
  fits : w.rdPtr.toNat + vs.length ≤ 2 ^ 24

theorem State.Unread.getElem? {w : State} {vs : BitSeq} (h : w.Unread vs) : w.bitbuf[w.rdPtr.toNat]? = vs.head? := by
  rw [← h.drop, List.head?_drop]

theorem State.Unread.step {w t : State} {v : Bool} {vs : BitSeq} (h : w.Unread (v :: vs)) (hstep : stepBit v w = .ok t) :
    t.Unread vs := by
  obtain ⟨hrun, hdrop, hfits⟩ := h
  have hframe := stepBit_ok hstep
  have hbits : t.bitbuf = w.bitbuf := by rw [hframe]
  have hptr : t.rdPtr.toNat = w.rdPtr.toNat + 1 := by
    rw [List.length_cons] at hfits
    rw [hframe]
    simp [BitVec.toNat_add]
    omega
  refine ⟨by rw [hframe]; exact hrun, ?_, by rw [List.length_cons] at hfits; omega⟩
  rw [hbits, hptr, ← List.drop_drop, hdrop, List.drop_one, List.tail_cons]

/-- Visit by visit the machine performs a walk that ends. -/
theorem reaches_walkBits {vs : BitSeq} {w t : State} (h : w.Unread vs) (hw : walkBits vs w = .ok t) :
    DecodeReaches w t ∧ t.Unread [] := by
  induction vs generalizing w with
  | nil => cases hw; exact ⟨.refl _, h⟩
  | cons v vs ih =>
    cases hstep : stepBit v w with
    | error e => rw [walkBits_cons_of_error hstep] at hw; cases hw
    | ok u =>
      rw [walkBits_cons_of_ok hstep] at hw
      obtain ⟨hreach, ht⟩ := ih (h.step hstep) hw
      exact ⟨(visit_step h.run h.getElem? hstep).trans hreach, ht⟩

/-- Visit by visit the machine performs a walk that fails. -/
theorem reaches_walkBits_fail {vs : BitSeq} {w : State} {e : Err} {d : Word} (h : w.Unread vs)
    (hw : walkBits vs w = .error (e, d)) :
    ∃ out cur ptr, DecodeReaches w (deFail e d { w with outbuf := out, cursor := cur, rdPtr := ptr }) := by
  induction vs generalizing w with
  | nil => cases hw
  | cons v vs ih =>
    cases hstep : stepBit v w with
    | error f =>
      rw [walkBits_cons_of_error hstep] at hw
      cases hw
      exact ⟨w.outbuf, w.cursor, w.rdPtr, visit_fail h.run h.getElem? hstep⟩
    | ok u =>
      rw [walkBits_cons_of_ok hstep] at hw
      obtain ⟨out, cur, ptr, hreach⟩ := ih (h.step hstep) hw
      have hvisit := visit_step h.run h.getElem? hstep
      rw [stepBit_ok hstep] at hreach hvisit
      exact ⟨out, cur, ptr, hvisit.trans hreach⟩

/-! ## The command -/

/-- The machine's state when it has accepted a DECODE that passes its checks. -/
def runDecode (s : State) : State := { startDecode s with deState := .run }

theorem deAccept_of_absent {s : State} (h : s.treeValid = false ∨ s.bitbuf = []) :
    deAccept s = deFail .invalidInput 0#32 s := if_pos h

theorem deAccept_of_present {s : State} (hv : s.treeValid = true) (hb : s.bitbuf ≠ []) : deAccept s = runDecode s :=
  if_neg (by simp [hv, hb])

/-- No bit has been consumed. -/
theorem unread_runDecode {s : State} (hlen : s.bitbuf.length ≤ 2 ^ 24) : (runDecode s).Unread s.bitbuf :=
  ⟨rfl, rfl, (Nat.zero_add _).trans_le hlen⟩

/-- The machine's state after a part of the walk: the output, the cursor and the read pointer are the command's. -/
def State.midDecode (s : State) (out : List Sym) (cur : NodeId) (ptr : BitVec 25) : State :=
  { runDecode s with outbuf := out, cursor := cur, rdPtr := ptr }

/-- The walk of the machine is that of the command. -/
theorem walkBits_runDecode (vs : BitSeq) (s : State) :
    walkBits vs (runDecode s) = (walkBits vs (startDecode s)).map (fun t => s.midDecode t.outbuf t.cursor t.rdPtr) := by
  have hbeside : walkBits vs (runDecode s) = _ := walkBits_besideCursor vs (startDecode s) (runDecode s)
  rw [hbeside]
  cases hw : walkBits vs (startDecode s) with
  | error p => rfl
  | ok t =>
    rw [walkBits_ok hw]
    rfl

section
variable {s t : State} (hlen : s.bitbuf.length ≤ 2 ^ 24)
include hlen

theorem reaches_fail {e : Err} {d : Word} (hw : walkBits s.bitbuf (startDecode s) = .error (e, d)) :
    ∃ out cur ptr, DecodeReaches (runDecode s) (deFail e d (s.midDecode out cur ptr)) := by
  have hwalk := walkBits_runDecode s.bitbuf s
  rw [hw] at hwalk
  exact reaches_walkBits_fail (unread_runDecode hlen) hwalk

theorem reaches_truncated (hw : walkBits s.bitbuf (startDecode s) = .ok t) (hc : t.cursor ≠ t.root) :
    DecodeReaches (runDecode s) (deFail .truncated (zext32 s.bitN) (s.midDecode t.outbuf t.cursor t.rdPtr)) := by
  have hwalk := walkBits_runDecode s.bitbuf s
  rw [hw] at hwalk
  obtain ⟨hreach, hend⟩ := reaches_walkBits (unread_runDecode hlen) hwalk
  rw [walkBits_ok hw] at hc
  exact hreach.trans (visit_truncated hend.run hend.getElem? hc)

theorem reaches_end (hw : walkBits s.bitbuf (startDecode s) = .ok t) (hc : t.cursor = t.root) :
    DecodeReaches (runDecode s) (respond (word t.outbuf.length)
      { s.midDecode t.outbuf t.cursor t.rdPtr with decDone := true, deState := .idle }) := by
  have hwalk := walkBits_runDecode s.bitbuf s
  rw [hw] at hwalk
  obtain ⟨hreach, hend⟩ := reaches_walkBits (unread_runDecode hlen) hwalk
  rw [walkBits_ok hw] at hc
  exact hreach.trans (visit_end hend.run hend.getElem? hc)

end

/-- Settles O48: by the way the command ends; the machine's `rd_ptr` and `lenient` are all that differs. -/
theorem treeWalkMachineRefinesDecode : Obligations.TreeWalkMachineRefinesDecode := by
  intro s u hlen hexec
  by_cases habsent : s.treeValid = false ∨ s.bitbuf = []
  · rw [exec_decode_of_absent habsent] at hexec
    cases hexec
    exact ⟨0, _, congrArg _ (deAccept_of_absent habsent), rfl, rfl⟩
  obtain ⟨hv, hb⟩ : s.treeValid = true ∧ s.bitbuf ≠ [] := by simpa using habsent
  rw [deAccept_of_present hv hb]
  cases hw : walkBits s.bitbuf (startDecode s) with
  | error p =>
    rw [exec_decode_of_error hv hw] at hexec
    cases hexec
    obtain ⟨out, cur, ptr, k, hk⟩ := reaches_fail hlen hw
    exact ⟨k, _, hk, rfl, rfl⟩
  | ok t =>
    by_cases hc : t.cursor = t.root
    · rw [exec_decode_of_end hv hb hw hc] at hexec
      cases hexec
      obtain ⟨k, hk⟩ := reaches_end hlen hw hc
      refine ⟨k, _, hk, rfl, ?_⟩
      rw [walkBits_ok hw]
      rfl
    · rw [exec_decode_of_truncated hv hb hw hc] at hexec
      cases hexec
      obtain ⟨k, hk⟩ := reaches_truncated hlen hw hc
      exact ⟨k, _, hk, rfl, rfl⟩

end Sys2Proof.Machine
end

section
/-! SUPPORT. What a list of commands that all succeed keeps (R12, R91). -/

namespace Sys2Proof.Machine

theorem runCommands_append_of_some {is : List Instr} {s t : State} (h : runCommands is s = some t) (js : List Instr) :
    runCommands (is ++ js) s = runCommands js t := by
  rw [runCommands_append, h]
  rfl

/-- What every command that succeeds keeps, a list of them keeps. -/
theorem runCommands_keeps {P : State → Prop} {is : List Instr}
    (hkeep : ∀ i ∈ is, ∀ {s t : State}, exec i s = .next t → t.succeeded = true → P s → P t) {s t : State} (hs : P s)
    (h : runCommands is s = some t) : P t := by
  induction is generalizing s with
  | nil => cases h; exact hs
  | cons i is ih =>
    rw [List.forall_mem_cons] at hkeep
    rw [runCommands] at h
    split at h
    · rename_i u hu
      split at h
      · exact ih hkeep.2 (hkeep.1 hu ‹_› hs) h
      · cases h
    · cases h
    · cases h

theorem succeeded_raise (e : Err) (d : Word) (s : State) : (raise e d s).succeeded = false := by
  simp [State.succeeded, errCode_ne_zero]

/-- A command that succeeds has had its effect. -/
theorem Ends.effect_of_succeeded {i : Instr} {s t : State} (h : Ends i s t) (ok : t.succeeded = true) :
    ∃ d u, t = respond d u ∧ Effect i s u := by
  cases h with
  | success d u hu => exact ⟨d, u, rfl, hu⟩
  | fault e _ _ => rw [succeeded_raise] at ok; cases ok
  | decodeFault e d _ => rw [failDecode, succeeded_raise] at ok; cases ok

/-- No effect touches the parameters (R51). -/
theorem Effect.params_eq {i : Instr} {s u : State} (h : Effect i s u) : u.params = s.params := by
  cases i with
  | tally x =>
    obtain ⟨-, -, ⟨-, rfl⟩ | ⟨-, rfl⟩⟩ := h
    · simp
    · simp
  | leaf x w => obtain ⟨-, -, -, -, rfl⟩ := h; simp
  | build =>
    obtain ⟨-, -, r, q, -, rfl⟩ := h
    rw [growTree_frame]; simp
  | gen =>
    obtain ⟨-, ⟨-, rfl⟩ | ⟨-, t, ht, rfl⟩⟩ := h
    · simp [degenerateTable]
    · rw [walkTree_frame ht]; simp [startWalk]
  | enc x => obtain ⟨c, -, -, rfl⟩ := h; simp
  | pushbit x => obtain ⟨-, rfl⟩ := h; simp
  | decode =>
    obtain ⟨-, t, ht, -, rfl⟩ := h
    rw [walkBits_ok ht]; simp [startDecode]
  | _ => subst h; rfl

end Sys2Proof.Machine
end

section
/-! SUPPORT. The capacities of the buffers (R7) do not matter until the first ENC: CLR, TALLY, BUILD and GEN do the same
whatever they are. So what the invariant says of the tree and the table holds also where the capacities are not within
their bounds. -/

namespace Sys2Proof.Machine

/-- `s` with other capacities. -/
def State.withCaps (s : State) (bitCap outCap : Nat) : State :=
  { s with params := { s.params with bitCap := bitCap, outCap := outCap } }

/-- The commands that come before the first ENC of an encoding (R91). -/
abbrev Prepares (i : Instr) : Prop := i = .clr ∨ (∃ x, i = .tally x) ∨ i = .build ∨ i = .gen

/-- An outcome with its next state changed. -/
def onNext (f : State → State) : Host.Outcome State Fault Refusal → Host.Outcome State Fault Refusal
  | .next t => .next (f t)
  | .fault r => .fault r
  | .refused r => .refused r

section
variable (s : State) (b o : Nat)

theorem wf_withCaps_one : (s.withCaps 1 1).params.Wf := by
  simp [State.withCaps, Params.Wf]

/-- What the checks of these commands read is not the capacities. -/
theorem withCaps_reads :
    (s.withCaps b o).treeValid = s.treeValid ∧ (s.withCaps b o).nLeaf = s.nLeaf ∧ (s.withCaps b o).totalW = s.totalW
      ∧ (s.withCaps b o).arena = s.arena ∧ (s.withCaps b o).root = s.root ∧ (s.withCaps b o).allBlank = s.allBlank
      ∧ (∀ i, (s.withCaps b o).node i = s.node i) ∧ ∀ x, (s.withCaps b o).leafOfSym x = s.leafOfSym x :=
  ⟨rfl, rfl, rfl, rfl, rfl, rfl, fun _ => rfl, fun _ => rfl⟩

theorem seedLeaves_withCaps (k i : Nat) : seedLeaves k i (s.withCaps b o) = (seedLeaves k i s).withCaps b o := by
  induction k generalizing i s with
  | zero => rfl
  | succ k ih => exact ih (seedLeaf (BitVec.ofNat 9 i) s) (i + 1)

theorem mergeLoop_withCaps (k : Nat) : mergeLoop k (s.withCaps b o) = (mergeLoop k s).withCaps b o := by
  induction k generalizing s with
  | zero => rfl
  | succ k ih =>
    have hpq : (s.withCaps b o).pq = s.pq := rfl
    rw [mergeLoop, mergeLoop, hpq]
    split
    · exact ih (mergeNodes _ _ { s with pq := _ })
    · rfl

theorem growTree_withCaps : growTree (s.withCaps b o) = (growTree s).withCaps b o := by
  rw [growTree, growTree, ← mergeLoop_withCaps, ← seedLeaves_withCaps]
  rfl

theorem walkTree_startWalk_withCaps (k : Nat) :
    walkTree k (startWalk (s.withCaps b o)) = (walkTree k (startWalk s)).map (·.withCaps b o) := by
  have hwalk := walkTree_withWalk (h := s.withCaps b o) (w := startWalk s) rfl k
  have hstart : startWalk (s.withCaps b o) = (s.withCaps b o).withWalk (startWalk s) := rfl
  rw [hstart, hwalk]
  cases hw : walkTree k (startWalk s) with
  | none => rfl
  | some t =>
    rw [walkTree_frame hw]
    rfl

variable {b o}

theorem exec_withCaps {i : Instr} (hi : Prepares i) : exec i (s.withCaps b o) = onNext (·.withCaps b o) (exec i s) := by
  obtain rfl | ⟨x, rfl⟩ | rfl | rfl := hi
  · rfl
  · simp only [exec, execTally, withCaps_reads]
    split_ifs <;> rfl
  · have hpq : ((growTree s).withCaps b o).pq = (growTree s).pq := rfl
    simp only [exec, execBuild, withCaps_reads, growTree_withCaps, hpq]
    split_ifs
    · rfl
    · rfl
    cases pqPopMin (growTree s).pq <;> rfl
  · simp only [exec, execGen, withCaps_reads, walkTree_startWalk_withCaps]
    split_ifs
    · rfl
    · rfl
    cases walkTree s.arena.length (startWalk s) <;> rfl

/-- Commands before the first ENC run alike whatever the capacities are. -/
theorem runCommands_withCaps {is : List Instr} (his : ∀ i ∈ is, Prepares i) :
    runCommands is (s.withCaps b o) = (runCommands is s).map (·.withCaps b o) := by
  induction is generalizing s with
  | nil => rfl
  | cons i is ih =>
    rw [List.forall_mem_cons] at his
    simp only [runCommands, exec_withCaps s his.1]
    cases exec i s with
    | next t =>
      have hok : (t.withCaps b o).succeeded = t.succeeded := rfl
      simp only [onNext, hok, ih t his.2]
      split <;> rfl
    | fault r => rfl
    | refused r => rfl

end

end Sys2Proof.Machine
end

section
/-! SUPPORT. Encoding and decoding a sequence (R91, R154, R168): CLR, the TALLYs, BUILD and GEN give every symbol of the
sequence its leaf and its code, the ENCs concatenate the codes, and DECODE inverts them. -/

namespace Sys2Proof.Machine

/-! ## A code for every symbol -/

/-- There is a tree, and every symbol of `xs` has a leaf in it whose code is in the table. -/
structure State.CodesFor (s : State) (xs : List Sym) : Prop where
  tree : s.HasTree
  coded : ∀ x ∈ xs, ∃ c, s.codeOf x = some c ∧ s.IsCode (s.leafOfSym x) c ∧ (s.node (s.leafOfSym x)).sym = x

theorem State.CodesFor.congr {s t : State} {xs : List Sym} (h : s.CodesFor xs) (tree : SameTree s t) (ht : t.ct = s.ct) :
    t.CodesFor xs := by
  refine ⟨h.tree.congr tree, fun x hx => ?_⟩
  obtain ⟨ha, -, hl, -, -, hr⟩ := tree
  rw [codeOf_congr ht, leafOfSym_congr hl, node_congr ha]
  obtain ⟨c, hc, hcode, hsym⟩ := h.coded x hx
  exact ⟨c, hc, (isCode_congr ha hr _ c).2 hcode, hsym⟩

/-- The one leaf of the degenerate tree is the root. -/
theorem State.Inv.eq_root_of_degenerate {s : State} (hs : s.Inv) (hv : s.treeValid = true)
    (hl : (s.node s.root).leaf = true) {i : NodeId} (hi : i.toNat < s.nLeaf.toNat) : i = s.root := by
  have hone := hs.nLeaf_eq_one hv hl
  obtain ⟨-, hsize, hroot, -⟩ := hs.treeShape.2.2 hv
  rw [hone] at hi hsize
  exact BitVec.eq_of_toNat_eq (by simp at hi hsize; omega)

/-- With a valid table every symbol that has a leaf has that leaf's code (R30). -/
theorem State.Inv.codesFor {s : State} (hs : s.Inv) (hct : s.ctValid = true) {xs : List Sym}
    (hxs : ∀ x ∈ xs, s.leafOfSym x ≠ nil9) : s.CodesFor xs := by
  obtain ⟨htree, htable⟩ := hs.tableHolds
  have hv := htree hct
  have hlay := hs.layered
  refine ⟨hs.hasTree hv, fun x hx => ?_⟩
  obtain ⟨c, hc⟩ := Option.ne_none_iff_exists'.1 ((htable x).1 hct (hxs x hx))
  obtain ⟨-, -, -, hfixed, hpath⟩ := (htable x).2 c (by simp [hc])
  obtain ⟨hlt, hsym⟩ := hlay.leafOfSym_of_ne_nil (hxs x hx)
  exact ⟨c, hc, ⟨(hlay.isLeaf_of_lt hlt).1, hlt.trans_le hlay.nLeaf_le,
    fun hl => ⟨hs.eq_root_of_degenerate hv hl hlt, hfixed hl⟩, hpath⟩, hsym⟩

/-- The leaves of `xs` with their codes. -/
def State.leafCodes (s : State) (xs : List Sym) : List (NodeId × BitSeq) :=
  xs.map fun x => (s.leafOfSym x, (s.codeOf x).getD [])

theorem bitsAlong_leafCodes (s : State) (xs : List Sym) : bitsAlong (s.leafCodes xs) = s.codesOf xs := by
  rw [bitsAlong, State.leafCodes, List.flatMap_map]
  rfl

theorem State.CodesFor.isCode_leafCodes {s : State} {xs : List Sym} (h : s.CodesFor xs) :
    ∀ p ∈ s.leafCodes xs, s.IsCode p.1 p.2 := by
  refine List.forall_mem_map.2 fun x hx => ?_
  obtain ⟨c, hc, hcode, -⟩ := h.coded x hx
  rw [hc]
  exact hcode

theorem State.CodesFor.symbolsAt_leafCodes {s : State} {xs : List Sym} (h : s.CodesFor xs) :
    s.symbolsAt (s.leafCodes xs) = xs := by
  have hsym : ∀ x ∈ xs, (s.node (s.leafOfSym x)).sym = id x := fun x hx => by
    obtain ⟨_, -, -, hsym⟩ := h.coded x hx
    exact hsym
  rw [State.symbolsAt, State.leafCodes, List.map_map]
  exact (List.map_congr_left hsym).trans (List.map_id xs)

/-- The codes of `xs` decode to `xs`. -/
theorem State.CodesFor.exec_decode {s : State} {xs : List Sym} (h : s.CodesFor xs) (hne : xs ≠ [])
    (hbits : s.bitbuf = s.codesOf xs) (hfit : xs.length ≤ s.params.outCap) :
    exec .decode s = .next (respond (word xs.length) (State.forgetDecoder { s with
      outbuf := xs, decDone := true, cursor := s.root, deState := .idle })) := by
  have hlen : (s.leafCodes xs).length = xs.length := List.length_map _
  have hne' : s.leafCodes xs ≠ [] := by simpa [State.leafCodes] using hne
  have hexec := h.tree.exec_decode_codes hne' h.isCode_leafCodes (hbits.trans (bitsAlong_leafCodes s xs).symm)
    (hlen.trans_le hfit)
  rwa [h.symbolsAt_leafCodes, hlen] at hexec

/-! ## Before the first ENC -/

/-- The invariant holds, nothing has failed and no bit has been appended; the parameters are `p`. -/
structure State.Unused (s : State) (p : Params) : Prop where
  inv : s.Inv
  clean : s.Clean
  empty : s.bitbuf = []
  params : s.params = p

theorem unused_clr (s : State) (hp : s.params.Wf) : (respond 0#32 (hardReset s)).Unused s.params :=
  ⟨(inv_hardReset s hp).respond _, rfl, rfl, rfl⟩

/-- A TALLY, a BUILD or a GEN that succeeds keeps it. -/
theorem State.Unused.exec {i : Instr} (hi : Prepares i) (hclr : i ≠ .clr) {s t : State} {p : Params} (h : s.Unused p)
    (hexec : exec i s = .next t) (ok : t.succeeded = true) : t.Unused p := by
  obtain ⟨d, u, rfl, hu⟩ := (exec_ends hexec).effect_of_succeeded ok
  obtain ⟨-, -, -, -, hbits, -⟩ := hu.keepsOtherSpaces hclr
  refine ⟨(hu.inv h.inv).respond d, (hu.err_eq hclr).trans h.clean, (hbits ?_ ?_ ?_).trans h.empty,
    hu.params_eq.trans h.params⟩
  all_goals obtain rfl | ⟨x, rfl⟩ | rfl | rfl := hi <;> simp

/-- The state after CLR and the TALLYs of `xs`. -/
theorem runCommands_clr_tallys {s : State} (hp : s.params.Wf) {xs : List Sym} (hmax : xs.length ≤ maxWeight) :
    ∃ t, runCommands (.clr :: xs.map .tally) s = some t ∧ t.Counts xs ∧ t.Unused s.params := by
  obtain ⟨t, hrun, ht⟩ := ((counts_hardReset s).respond 0#32).runCommands_tallys xs (by simpa using hmax)
  refine ⟨t, (runCommands_cons rfl (succeeded_respond ..)).trans hrun, ht, ?_⟩
  refine runCommands_keeps (P := (·.Unused s.params)) (fun i hi => ?_) (unused_clr s hp) hrun
  obtain ⟨x, -, rfl⟩ := List.mem_map.1 hi
  exact fun hexec ok h => h.exec (i := .tally x) (.inr (.inl ⟨x, rfl⟩)) nofun hexec ok

/-- BUILD succeeds when a symbol of the sequence is not in BLANK, and leaves the leaf index. -/
theorem State.Counts.exec_build {s : State} {xs : List Sym} (h : s.Counts xs) (hs : s.Inv) {x : Sym} (hx : x ∈ xs)
    (hblank : x ∉ s.params.blank) :
    ∃ t, exec .build s = .next t ∧ t.succeeded = true ∧ t.treeValid = true ∧ t.leafOf = s.leafOf := by
  obtain ⟨hlt, hsym⟩ := hs.layered.leafOfSym_of_ne_nil (h.leafOfSym_ne_nil hx)
  have hn : s.nLeaf ≠ 0#9 := by rintro h0; simp [h0] at hlt
  have hb : s.allBlank = false := by
    rw [← Bool.not_eq_true, allBlank_iff]
    intro hall
    have hmem := hall _ hlt
    rw [BitVec.ofNat_toNat, BitVec.setWidth_eq, hsym] at hmem
    exact hblank hmem
  obtain ⟨r, -, hexec⟩ := exec_build_of_leaves h.noTree hn hb
  obtain ⟨-, hleaf, -⟩ := (exec_ends hexec).keepsOtherSpaces nofun
  exact ⟨_, hexec, succeeded_respond .., rfl, hleaf nofun nofun⟩

/-- The state before the first ENC, with capacities within their bounds. -/
theorem runCommands_prepare {s : State} (hp : s.params.Wf) {xs : List Sym} (hmax : xs.length ≤ maxWeight)
    (hblank : ∃ x ∈ xs, x ∉ s.params.blank) :
    ∃ t, runCommands (.clr :: xs.map .tally ++ [.build, .gen]) s = some t ∧ t.Unused s.params ∧ t.ctValid = true
      ∧ t.CodesFor xs := by
  obtain ⟨x, hx, hxb⟩ := hblank
  obtain ⟨t, htally, hcounts, ht⟩ := runCommands_clr_tallys hp hmax
  obtain ⟨u, hbuild, hbok, huv, hleaf⟩ := hcounts.exec_build ht.inv hx (ht.params ▸ hxb)
  have hu := ht.exec (i := .build) (.inr (.inr (.inl rfl))) nofun hbuild hbok
  obtain ⟨w, hgen, -⟩ := exec_gen_of_tree hu.inv huv
  have hw := hu.exec (i := .gen) (.inr (.inr (.inr rfl))) nofun hgen (succeeded_respond ..)
  obtain ⟨-, hleaf', -⟩ := (exec_ends hgen).keepsOtherSpaces nofun
  have hleaves : (finishTable w).leafOf = t.leafOf := (hleaf' nofun nofun).trans hleaf
  refine ⟨_, ?_, hw, rfl, hw.inv.codesFor rfl fun y hy => ?_⟩
  · rw [runCommands_append_of_some htally, runCommands_cons hbuild hbok, runCommands_cons hgen (succeeded_respond ..)]
    rfl
  · rw [leafOfSym_congr hleaves]
    exact hcounts.leafOfSym_ne_nil hy

/-- The same with any capacities. -/
theorem runCommands_prepare_any (s : State) {xs : List Sym} (hmax : xs.length ≤ maxWeight)
    (hblank : ∃ x ∈ xs, x ∉ s.params.blank) :
    ∃ t, runCommands (.clr :: xs.map .tally ++ [.build, .gen]) s = some t ∧ t.params = s.params ∧ t.Clean
      ∧ t.bitbuf = [] ∧ t.ctValid = true ∧ t.CodesFor xs := by
  obtain ⟨t, hrun, ht, hct, hcodes⟩ := runCommands_prepare (wf_withCaps_one s) hmax hblank
  have hprepares : ∀ i ∈ (.clr :: xs.map .tally ++ [.build, .gen] : List Instr), Prepares i := by
    intro i hi
    have hcases : i = .clr ∨ (∃ x ∈ xs, .tally x = i) ∨ i = .build ∨ i = .gen := by simpa using hi
    exact hcases.imp_right (.imp_left fun ⟨x, _, hx⟩ => ⟨x, hx.symm⟩)
  have hback := runCommands_withCaps (s.withCaps 1 1) (b := s.params.bitCap) (o := s.params.outCap) hprepares
  rw [hrun] at hback
  refine ⟨t.withCaps s.params.bitCap s.params.outCap, hback, ?_, ht.clean, ht.empty, hct,
    hcodes.congr ⟨rfl, rfl, rfl, rfl, rfl, rfl⟩ rfl⟩
  rw [State.withCaps, ht.params]
  rfl

/-! ## The round trip -/

/-- A WRCSR of CFG between the encoding and the decoding, or nothing. -/
theorem runCommands_mode {mode : List Instr} (hmode : mode = [] ∨ ∃ v, mode = [.wrcsr 2#8 v]) (s : State) :
    ∃ b r, runCommands mode s = some { s with cfgLenient := b, resp := r } := by
  obtain rfl | ⟨v, rfl⟩ := hmode
  · exact ⟨_, _, rfl⟩
  · exact ⟨v.getLsbD 0, _, rfl⟩

/-- Settles O50: the codes that the ENCs append are those that DECODE inverts, in the mode CFG has. -/
theorem roundTripReproducesTheInput : Obligations.RoundTripReproducesTheInput := by
  intro s mode xs hmode hne hblank hmax hout
  obtain ⟨t, hrun, hparams, hclean, hempty, hct, hcodes⟩ := runCommands_prepare_any s hmax hblank
  refine ⟨t, hrun, fun hfit => ?_⟩
  have hmapped : ∀ x ∈ xs, t.codeOf x ≠ none := by
    intro x hx
    obtain ⟨c, hc, -⟩ := hcodes.coded x hx
    simp [hc]
  obtain ⟨r, henc⟩ := runCommands_encs hct hmapped (by rwa [hempty, List.length_nil, Nat.zero_add, hparams])
  rw [hempty, List.nil_append] at henc
  obtain ⟨b, r', hmoded⟩ := runCommands_mode hmode { t with bitbuf := t.codesOf xs, resp := r }
  have hdecode := (hcodes.congr (t := { t with bitbuf := t.codesOf xs, cfgLenient := b, resp := r' })
    ⟨rfl, rfl, rfl, rfl, rfl, rfl⟩ rfl).exec_decode hne rfl (hparams ▸ hout)
  have hlist : Pseudo.expand (.encode xs) ++ mode ++ [.decode]
      = (.clr :: xs.map .tally ++ [.build, .gen]) ++ (xs.map .enc ++ (mode ++ [.decode])) := by simp [Pseudo.expand]
  have hall := calc
    runCommands (Pseudo.expand (.encode xs) ++ mode ++ [.decode]) s
      = runCommands (xs.map .enc ++ (mode ++ [.decode])) t := by rw [hlist, runCommands_append_of_some hrun]
    _ = runCommands (mode ++ [.decode]) { t with bitbuf := t.codesOf xs, resp := r } := runCommands_append_of_some henc _
    _ = runCommands [.decode] { t with bitbuf := t.codesOf xs, cfgLenient := b, resp := r' } :=
      runCommands_append_of_some hmoded _
    _ = some _ := runCommands_cons hdecode (succeeded_respond ..)
  exact ⟨_, hall, rfl, rfl, rfl, hclean⟩

end Sys2Proof.Machine
end

section
/-! SUPPORT. What a failed command leaves (R181, R182). -/

namespace Sys2Proof.Machine

/-- A command that responds with an error code has taken an exception: one that is not DECODE in the state it found,
DECODE after it has emptied the output. -/
theorem Ends.exception_of_code_ne_zero {i : Instr} {s t : State} {c : BitVec 8} {d : Word} (h : Ends i s t)
    (hresp : t.resp = some ⟨c, d⟩) (hc : c ≠ 0#8) :
    ∃ e, errCode e = c ∧ ((i ≠ .decode ∧ t = raise e d s) ∨ (i = .decode ∧ t = failDecode e d s)) := by
  cases h with
  | success d' u _ => cases hresp; exact absurd rfl hc
  | fault e _ hd => cases hresp; exact ⟨e, rfl, .inl ⟨hd, rfl⟩⟩
  | decodeFault e d' hd => cases hresp; exact ⟨e, rfl, .inr ⟨hd, rfl⟩⟩

/-- Settles O13: `raise` and `failDecode` write no field but those the statement names. -/
theorem failedCommandsChangeOnlyErr : Obligations.FailedCommandsChangeOnlyErr := by
  intro i s t c d hexec hresp hc
  obtain ⟨e, rfl, ⟨hi, rfl⟩ | ⟨hi, rfl⟩⟩ := (exec_ends hexec).exception_of_code_ne_zero hresp hc
  · exact ⟨fun _ => rfl, fun hd => absurd hd hi⟩
  · exact ⟨fun hd => absurd hi hd, fun _ => rfl⟩

end Sys2Proof.Machine
end

section
/-! SUPPORT. The tree stands still from BUILD to CLR (R203). -/

namespace Sys2Proof.Machine

/-- Where there is a tree no effect but CLR's touches it: those of TALLY, LEAF and BUILD need that there is none (R110, R123,
R124), and every other effect writes elsewhere. -/
theorem Effect.sameTree {i : Instr} {s u : State} (h : Effect i s u) (hi : i ≠ .clr) (hv : s.treeValid = true) :
    SameTree s u := by
  cases i with
  | clr => exact absurd rfl hi
  | tally x =>
    obtain ⟨hnone, -⟩ := h
    simp [hv] at hnone
  | leaf x w =>
    obtain ⟨hnone, -⟩ := h
    simp [hv] at hnone
  | build =>
    obtain ⟨hnone, -⟩ := h
    simp [hv] at hnone
  | gen => exact (Ends.success 0#32 u h).sameTree_gen
  | enc x => obtain ⟨c, -, -, rfl⟩ := h; simp [SameTree]
  | pushbit x => obtain ⟨-, rfl⟩ := h; simp [SameTree]
  | decode =>
    obtain ⟨-, t, ht, -, rfl⟩ := h
    rw [walkBits_ok ht]
    simp [SameTree, startDecode]
  | _ => subst h; simp [SameTree]

/-- Where there is a tree every command but CLR leaves it, however the command ends. -/
theorem Ends.sameTree {i : Instr} {s t : State} (h : Ends i s t) (hi : i ≠ .clr) (hv : s.treeValid = true) :
    SameTree s t := by
  cases h with
  | success d u hu => simpa [SameTree] using hu.sameTree hi hv
  | fault e _ _ => simp [SameTree]
  | decodeFault e d _ => simp [SameTree, failDecode]

/-- The writers of the tree answer BadState where there is one. -/
theorem exec_treeWriter_of_tree {i : Instr} {s : State} (hi : (∃ x, i = .tally x) ∨ (∃ x w, i = .leaf x w) ∨ i = .build)
    (hv : s.treeValid = true) : exec i s = .next (raise .badState 0#32 s) := by
  obtain ⟨x, rfl⟩ | ⟨x, w, rfl⟩ | rfl := hi
  · exact exec_tally_of_tree hv x
  · exact exec_leaf_of_tree hv x w
  · exact exec_build_of_tree hv

/-- Settles O14: the tree by how the command ends, the answer by `exec_treeWriter_of_tree`. -/
theorem treeIsFrozenOnceBuilt : Obligations.TreeIsFrozenOnceBuilt := by
  intro i s t hv hexec hi
  refine ⟨(exec_ends hexec).sameTree hi hv, fun hwriter => ?_⟩
  rw [exec_treeWriter_of_tree hwriter hv] at hexec
  cases hexec
  rfl

end Sys2Proof.Machine
end
